-- ==== Sys2Proof/Word.lean ====
section
/-!
DEFINITION. The words the spec writes with: command words, bytes, block lanes, blocks, plane memories and
motion vectors (00_scope.md R7, R10, R11, R13).
-/

namespace Sys2Proof

/-- A 32-bit word: a head word, an extension word, a result register, a data word (30_encoding.md R70, R21). -/
abbrev Word := BitVec 32

/-- One byte of a plane or of a stream (20_memory.md R50). -/
abbrev Byte := BitVec 8

/-- One lane of a block, an `i16` kept as its 16 two's-complement bits (00_scope.md R7, R11). -/
abbrev Lane := BitVec 16

/-- A block: 64 lanes, lane `8*r + c` for row `r` and column `c` (00_scope.md R11). -/
abbrev Block := Vector Lane 64

/-- A plane of the host: (address, byte) pairs, addresses strictly rising, no entry equal to what an unlisted
address reads as (`Machine.Memory.wf`). -/
abbrev Memory := List Host.Cell

/-- A displacement `(h, v)` of the motion estimator, right and down positive (00_scope.md R13). -/
structure Mv where
  h : Int
  v : Int
deriving DecidableEq, Repr, Inhabited

/-- The zero displacement. -/
def Mv.zero : Mv := ⟨0, 0⟩

/-- A transmitted vector: two 5-bit two's-complement components, -16 to 15 (10_state.md R29). -/
structure Mv5 where
  h : BitVec 5
  v : BitVec 5
deriving DecidableEq, Repr

/-- The zero predictor (46_framing.md R244). -/
def Mv5.zero : Mv5 := ⟨0, 0⟩

end Sys2Proof
end

