-- ==== Sys2Proof/Syntax.lean ====
section
/-!
DEFINITION. The commands: one constructor per row of spec/opcode_table.json (30_encoding.md R75), operands as
numbers and names; the ranges that the fields give them are in WellFormed.lean.
-/

namespace Sys2Proof

/-- The 30 opcodes (30_encoding.md R75). -/
inductive Opcode where
  | nop | reset | csrr | csrw | blkwr | blkrd
  | wrbits | rdbits | bitpos | atend | flush
  | fdct | idct | quant | dequant
  | encblk | decblk | vlcenc | vlcdec
  | meae | mesearch | memtype | meclr
  | putpic | putgob | putmb | getsc | getpic | getgob | getmb
deriving DecidableEq, Repr

/-- `I`, H261DOC's `is_intra` (30_encoding.md R73). -/
inductive Coding where
  | inter
  | intra
deriving DecidableEq, Repr

/-- `side` of BITPOS (30_encoding.md R73). -/
inductive Side where
  | wr
  | rd
deriving DecidableEq, Repr

/-- `tbl`, the six VLC tables (30_encoding.md R73). -/
inductive TableId where
  | mba | mtype | mvd | cbp | t1 | t2
deriving DecidableEq, Repr

/-- A command (30_encoding.md R72, R75). Register operands name `BLK[0..7]`; numbers that the spec counts with are
`Nat`, the four signed immediates `Int`, and bits it never counts with stay bits. -/
inductive Instr where
  | nop
  | reset
  | csrr (csr : Nat)
  | csrw (csr : Nat) (imm16 : BitVec 16)
  | blkwr (b : Fin 8) (lanes : Block)
  | blkrd (b : Fin 8)
  | wrbits (n : Nat) (value : Word)
  | rdbits (n : Nat)
  | bitpos (side : Side)
  | atend
  | flush
  | fdct (bd bs : Fin 8)
  | idct (bd bs : Fin 8)
  | quant (b : Fin 8) (i : Coding) (q : Nat)
  | dequant (b : Fin 8) (i : Coding) (q : Nat)
  | encblk (b : Fin 8) (i : Coding)
  | decblk (b : Fin 8) (i : Coding)
  | vlcenc (tbl : TableId) (val : Nat)
  | vlcdec (tbl : TableId)
  | meae (mbx mby : Nat) (dx dy : Int)
  | mesearch (mbx mby : Nat)
  | memtype (mbx mby : Nat)
  | meclr
  | putpic (tr : Nat) (ptype : BitVec 6) (e : Bool) (ext : Byte)
  | putgob (gn gquant : Nat) (e : Bool) (ext : Byte)
  | putmb (mba mtype mquant : Nat) (mvh mvv : Int) (cbp : Nat)
  | getsc
  | getpic
  | getgob
  | getmb
deriving DecidableEq, Repr

/-- The opcode a command is encoded with (30_encoding.md R75). -/
def Instr.opcode : Instr → Opcode
  | .nop => .nop
  | .reset => .reset
  | .csrr _ => .csrr
  | .csrw _ _ => .csrw
  | .blkwr _ _ => .blkwr
  | .blkrd _ => .blkrd
  | .wrbits _ _ => .wrbits
  | .rdbits _ => .rdbits
  | .bitpos _ => .bitpos
  | .atend => .atend
  | .flush => .flush
  | .fdct _ _ => .fdct
  | .idct _ _ => .idct
  | .quant _ _ _ => .quant
  | .dequant _ _ _ => .dequant
  | .encblk _ _ => .encblk
  | .decblk _ _ => .decblk
  | .vlcenc _ _ => .vlcenc
  | .vlcdec _ => .vlcdec
  | .meae _ _ _ _ => .meae
  | .mesearch _ _ => .mesearch
  | .memtype _ _ => .memtype
  | .meclr => .meclr
  | .putpic _ _ _ _ => .putpic
  | .putgob _ _ _ _ => .putgob
  | .putmb _ _ _ _ _ _ => .putmb
  | .getsc => .getsc
  | .getpic => .getpic
  | .getgob => .getgob
  | .getmb => .getmb

end Sys2Proof
end

