-- ==== Sys2Proof/WellFormed.lean ====
section
/-!
DEFINITION. Which commands have an encoding: every number is in the range its field can hold
(30_encoding.md R72, R74). Range checks that a command makes when it runs (q = 0, n > 32, GN outside 1 to 12)
are not here: such a command is well formed and raises the fault its rule names (R74).
-/

namespace Sys2Proof

/-- A number that an unsigned field of `n` bits holds (30_encoding.md R74). -/
abbrev fitsU (n x : Nat) : Prop := x < 2 ^ n

/-- A number that a signed 5-bit field holds, -16 to 15 (30_encoding.md R74). -/
abbrev fitsS5 (x : Int) : Prop := -16 ≤ x ∧ x ≤ 15

/-- The check, as a Bool: every operand fits its field (30_encoding.md R72). -/
def Instr.wellFormed : Instr → Bool
  | .csrr csr => decide (fitsU 8 csr)
  | .csrw csr _ => decide (fitsU 8 csr)
  | .wrbits n _ => decide (fitsU 6 n)
  | .rdbits n => decide (fitsU 6 n)
  | .quant _ _ q => decide (fitsU 5 q)
  | .dequant _ _ q => decide (fitsU 5 q)
  | .vlcenc _ val => decide (fitsU 16 val)
  | .meae mbx mby dx dy => decide (fitsU 5 mbx ∧ fitsU 5 mby ∧ fitsS5 dx ∧ fitsS5 dy)
  | .mesearch mbx mby => decide (fitsU 5 mbx ∧ fitsU 5 mby)
  | .memtype mbx mby => decide (fitsU 5 mbx ∧ fitsU 5 mby)
  | .putpic tr _ _ _ => decide (fitsU 5 tr)
  | .putgob gn gquant _ _ => decide (fitsU 4 gn ∧ fitsU 5 gquant)
  | .putmb mba mtype mquant mvh mvv cbp =>
    decide (fitsU 6 mba ∧ fitsU 4 mtype ∧ fitsU 5 mquant ∧ fitsS5 mvh ∧ fitsS5 mvv ∧ fitsU 6 cbp)
  | .nop | .reset | .blkwr _ _ | .blkrd _ | .bitpos _ | .atend | .flush | .fdct _ _ | .idct _ _ => true
  | .encblk _ _ | .decblk _ _ | .vlcdec _ | .meclr | .getsc | .getpic | .getgob | .getmb => true

/-- A command that has an encoding. -/
abbrev Instr.WellFormed (i : Instr) : Prop := i.wellFormed = true

end Sys2Proof
end

