-- ==== Sys2Proof/Decode.lean ====
section
/-!
DEFINITION. Command words to commands and back (30_encoding.md part A). A command is a head word and the
extension words its opcode fixes (R70); the decoder is total on any list of words and rejects by name (R76, R77).
After it the encoder, from the same formats (R72), and the numbering of spec/opcode_table.json.
-/

namespace Sys2Proof

/-- The 8-bit code of an opcode (30_encoding.md R75). -/
def Opcode.code : Opcode → BitVec 8
  | .nop => 0x00
  | .reset => 0x01
  | .csrr => 0x02
  | .csrw => 0x03
  | .blkwr => 0x08
  | .blkrd => 0x09
  | .wrbits => 0x10
  | .rdbits => 0x11
  | .bitpos => 0x12
  | .atend => 0x13
  | .flush => 0x14
  | .fdct => 0x20
  | .idct => 0x21
  | .quant => 0x28
  | .dequant => 0x29
  | .encblk => 0x30
  | .decblk => 0x31
  | .vlcenc => 0x32
  | .vlcdec => 0x33
  | .meae => 0x40
  | .mesearch => 0x41
  | .memtype => 0x42
  | .meclr => 0x43
  | .putpic => 0x50
  | .putgob => 0x51
  | .putmb => 0x52
  | .getsc => 0x58
  | .getpic => 0x59
  | .getgob => 0x5A
  | .getmb => 0x5B

/-- Every opcode, in the order of 30_encoding.md R75. -/
def Opcode.all : List Opcode :=
  [.nop, .reset, .csrr, .csrw, .blkwr, .blkrd, .wrbits, .rdbits, .bitpos, .atend, .flush, .fdct, .idct, .quant,
   .dequant, .encblk, .decblk, .vlcenc, .vlcdec, .meae, .mesearch, .memtype, .meclr, .putpic, .putgob, .putmb,
   .getsc, .getpic, .getgob, .getmb]

/-- The opcode that bits 31:24 of a head word name, if they name one (30_encoding.md R71, R76). -/
def Opcode.ofCode? (c : Nat) : Option Opcode :=
  Opcode.all.find? (fun o => o.code.toNat == c)

/-- Number of extension words (30_encoding.md R70). -/
def Opcode.extWords : Opcode → Nat
  | .wrbits => 1
  | .putmb => 1
  | .blkwr => 32
  | _ => 0

/-- Bits 31:24 of a head word (30_encoding.md R71). -/
def headOpc (h : Word) : Nat := h.toNat / 2 ^ 24

/-- The number of extension words the command with this head word has; an unknown opcode has none
(30_encoding.md R70, R76: "the decoder consumes the head word only"). -/
def extWordsOf (h : Word) : Nat :=
  match Opcode.ofCode? (headOpc h) with
  | some op => op.extWords
  | none => 0

/-- `v[hi:lo]` (00_scope.md R10). -/
def field (v hi lo : Nat) : Nat := v / 2 ^ lo % 2 ^ (hi + 1 - lo)

/-- `X[hi:lo]` of the first extension word (30_encoding.md R72). -/
def extField (x : List Word) (hi lo : Nat) : Nat := field (x.getD 0 0).toNat hi lo

/-- `sext_5` (00_scope.md R10). -/
def sext5 (v : Nat) : Int := if v % 32 < 16 then (v % 32 : Nat) else ((v % 32 : Nat) : Int) - 32

/-- The low 5 bits of a signed number, as an unsigned number. -/
def low5 (x : Int) : Nat := (x % 32).toNat

/-- A block register field (30_encoding.md R71). -/
def regField (h hi lo : Nat) : Fin 8 := Fin.ofNat 8 (field h hi lo)

/-- `I` = `H[17]` (30_encoding.md R72, R73). -/
def codingField (h : Nat) : Coding := if field h 17 17 = 1 then .intra else .inter

/-- `side` = `H[0]` (30_encoding.md R72, R73). -/
def sideField (h : Nat) : Side := if field h 0 0 = 1 then .rd else .wr

/-- `tbl` = `H[23:21]`; 6 and 7 are reserved (30_encoding.md R73). -/
def TableId.ofCode? : Nat → Option TableId
  | 0 => some .mba
  | 1 => some .mtype
  | 2 => some .mvd
  | 3 => some .cbp
  | 4 => some .t1
  | 5 => some .t2
  | _ => none

/-- The number of a table (30_encoding.md R73). -/
def TableId.code : TableId → Nat
  | .mba => 0
  | .mtype => 1
  | .mvd => 2
  | .cbp => 3
  | .t1 => 4
  | .t2 => 5

/-- Lane `k` of a block sent in 32 words: even lanes in bits 15:0, odd lanes in bits 31:16 (20_memory.md R53). -/
def laneOfWords (x : List Word) (k : Nat) : Lane :=
  if k % 2 = 0 then (x.getD (k / 2) 0).setWidth 16 else ((x.getD (k / 2) 0) >>> 16).setWidth 16

/-- The block that 32 extension words carry (47_system.md R285). -/
def blockOfWords (x : List Word) : Block := Vector.ofFn (fun k => laneOfWords x k.val)

/-- Word `j` of a block: lane `2*j` low, lane `2*j + 1` high (20_memory.md R53). -/
def wordOfBlock (b : Block) (j : Nat) : Word :=
  ((b[2 * j + 1]?.getD 0) ++ (b[2 * j]?.getD 0) : BitVec 32)

/-- The 32 words of a block (20_memory.md R53). -/
def wordsOfBlock (b : Block) : List Word := (List.range 32).map (wordOfBlock b)

/-- Why a command is illegal (30_encoding.md R76). Each raises `IllegalCommand`. -/
inductive Illegal where
  /-- `OPC` is not in the table of R75. -/
  | unknownOpcode
  /-- A must-be-zero bit of the head or the extension word is set. -/
  | mustBeZero
  /-- `tbl` is 6 or 7. -/
  | reservedTable
deriving DecidableEq, Repr

/-- The command, unless one of the fields that must be zero is not (30_encoding.md R71, R76). -/
def zeroed (fields : List Nat) (i : Instr) : Except Illegal Instr :=
  if fields.all (· == 0) then .ok i else .error .mustBeZero

/-- The command with the table that `H[23:21]` names; 6 and 7 are illegal (30_encoding.md R73, R76). -/
def withTable (h : Nat) (f : TableId → Except Illegal Instr) : Except Illegal Instr :=
  match TableId.ofCode? (field h 23 21) with
  | some t => f t
  | none => .error .reservedTable

/-- The fields of a command of opcode `op`: `h` is the head word as a number, `x` the extension words
(30_encoding.md R72, R76). -/
def decodeFields (op : Opcode) (h : Nat) (x : List Word) : Except Illegal Instr :=
  match op with
  -- format Z
  | .nop => zeroed [field h 23 0] .nop
  | .reset => zeroed [field h 23 0] .reset
  | .atend => zeroed [field h 23 0] .atend
  | .flush => zeroed [field h 23 0] .flush
  | .meclr => zeroed [field h 23 0] .meclr
  | .getsc => zeroed [field h 23 0] .getsc
  | .getpic => zeroed [field h 23 0] .getpic
  | .getgob => zeroed [field h 23 0] .getgob
  | .getmb => zeroed [field h 23 0] .getmb
  -- format R2
  | .fdct => zeroed [field h 17 0] (.fdct (regField h 23 21) (regField h 20 18))
  | .idct => zeroed [field h 17 0] (.idct (regField h 23 21) (regField h 20 18))
  -- format RQ
  | .quant =>
    zeroed [field h 20 18, field h 16 5] (.quant (regField h 23 21) (codingField h) (field h 4 0))
  | .dequant =>
    zeroed [field h 20 18, field h 16 5] (.dequant (regField h 23 21) (codingField h) (field h 4 0))
  -- format RM
  | .encblk => zeroed [field h 20 18, field h 16 0] (.encblk (regField h 23 21) (codingField h))
  | .decblk => zeroed [field h 20 18, field h 16 0] (.decblk (regField h 23 21) (codingField h))
  -- format R1
  | .blkwr => zeroed [field h 20 0] (.blkwr (regField h 23 21) (blockOfWords x))
  | .blkrd => zeroed [field h 20 0] (.blkrd (regField h 23 21))
  -- format N
  | .wrbits => zeroed [field h 23 6] (.wrbits (field h 5 0) (x.getD 0 0))
  | .rdbits => zeroed [field h 23 6] (.rdbits (field h 5 0))
  -- format S
  | .bitpos => zeroed [field h 23 1] (.bitpos (sideField h))
  -- format C
  | .csrr => zeroed [field h 15 0] (.csrr (field h 23 16))
  | .csrw => .ok (.csrw (field h 23 16) (BitVec.ofNat 16 (field h 15 0)))
  -- format V
  | .vlcenc => withTable h (fun t => zeroed [field h 20 16] (.vlcenc t (field h 15 0)))
  | .vlcdec => withTable h (fun t => zeroed [field h 20 0] (.vlcdec t))
  -- format ME
  | .meae =>
    zeroed [field h 23 20]
      (.meae (field h 4 0) (field h 9 5) (sext5 (field h 14 10)) (sext5 (field h 19 15)))
  | .mesearch => zeroed [field h 23 10] (.mesearch (field h 4 0) (field h 9 5))
  | .memtype => zeroed [field h 23 10] (.memtype (field h 4 0) (field h 9 5))
  -- format HP
  | .putpic =>
    zeroed [field h 23 20]
      (.putpic (field h 4 0) (BitVec.ofNat 6 (field h 10 5)) (field h 11 11 == 1) (BitVec.ofNat 8 (field h 19 12)))
  -- format HG
  | .putgob =>
    zeroed [field h 23 18]
      (.putgob (field h 3 0) (field h 8 4) (field h 9 9 == 1) (BitVec.ofNat 8 (field h 17 10)))
  -- format HM
  | .putmb =>
    zeroed [field h 23 10, extField x 31 21]
      (.putmb (field h 5 0) (field h 9 6) (extField x 4 0) (sext5 (extField x 9 5)) (sext5 (extField x 14 10))
        (extField x 20 15))

/-- Decode a head word, as a number, and its extension words (30_encoding.md R71, R76, R77). -/
def decodeHead (h : Nat) (x : List Word) : Except Illegal Instr :=
  match Opcode.ofCode? (h / 2 ^ 24) with
  | none => .error .unknownOpcode
  | some op => decodeFields op h x

/-- What the front of a list of command words is. -/
inductive Decoded where
  /-- A legal command and the words after it. -/
  | instr (i : Instr) (rest : List Word)
  /-- An illegal command, its `OPC`, and the words after it (30_encoding.md R70, R76). -/
  | illegal (why : Illegal) (opc : BitVec 8) (rest : List Word)
  /-- Fewer words than one command has: no command yet (log 1). -/
  | incomplete
deriving DecidableEq, Repr

/-- Take one command off a list of words (30_encoding.md R70, R77, 47_system.md R280). -/
def decode (ws : List Word) : Decoded :=
  match ws with
  | [] => .incomplete
  | h :: rest =>
    if rest.length < extWordsOf h then .incomplete
    else
      match decodeHead h.toNat (rest.take (extWordsOf h)) with
      | .ok i => .instr i (rest.drop (extWordsOf h))
      | .error why => .illegal why (BitVec.ofNat 8 (headOpc h)) (rest.drop (extWordsOf h))

/-! The encoder -/

/-- The bit `I` (30_encoding.md R73). -/
def Coding.bit : Coding → Nat
  | .inter => 0
  | .intra => 1

/-- The bit `side` (30_encoding.md R73). -/
def Side.bit : Side → Nat
  | .wr => 0
  | .rd => 1

/-- Bits 23:0 of the head word of a command (30_encoding.md R72). -/
def Instr.headBits : Instr → Nat
  | .nop | .reset | .atend | .flush | .meclr | .getsc | .getpic | .getgob | .getmb => 0
  | .fdct bd bs | .idct bd bs => bd.val * 2 ^ 21 + bs.val * 2 ^ 18
  | .quant b i q | .dequant b i q => b.val * 2 ^ 21 + i.bit * 2 ^ 17 + q
  | .encblk b i | .decblk b i => b.val * 2 ^ 21 + i.bit * 2 ^ 17
  | .blkwr b _ | .blkrd b => b.val * 2 ^ 21
  | .wrbits n _ | .rdbits n => n
  | .bitpos side => side.bit
  | .csrr csr => csr * 2 ^ 16
  | .csrw csr imm16 => csr * 2 ^ 16 + imm16.toNat
  | .vlcenc tbl val => tbl.code * 2 ^ 21 + val
  | .vlcdec tbl => tbl.code * 2 ^ 21
  | .meae mbx mby dx dy => low5 dy * 2 ^ 15 + low5 dx * 2 ^ 10 + mby * 2 ^ 5 + mbx
  | .mesearch mbx mby | .memtype mbx mby => mby * 2 ^ 5 + mbx
  | .putpic tr ptype e ext => ext.toNat * 2 ^ 12 + e.toNat * 2 ^ 11 + ptype.toNat * 2 ^ 5 + tr
  | .putgob gn gquant e ext => ext.toNat * 2 ^ 10 + e.toNat * 2 ^ 9 + gquant * 2 ^ 4 + gn
  | .putmb mba mtype _ _ _ _ => mtype * 2 ^ 6 + mba

/-- The extension words of a command (30_encoding.md R70, R72). -/
def Instr.extension : Instr → List Word
  | .wrbits _ value => [value]
  | .putmb _ _ mquant mvh mvv cbp =>
    [BitVec.ofNat 32 (cbp * 2 ^ 15 + low5 mvv * 2 ^ 10 + low5 mvh * 2 ^ 5 + mquant)]
  | .blkwr _ lanes => wordsOfBlock lanes
  | .nop | .reset | .csrr _ | .csrw _ _ | .blkrd _ | .rdbits _ | .bitpos _ | .atend | .flush => []
  | .fdct _ _ | .idct _ _ | .quant _ _ _ | .dequant _ _ _ | .encblk _ _ | .decblk _ _ => []
  | .vlcenc _ _ | .vlcdec _ | .meae _ _ _ _ | .mesearch _ _ | .memtype _ _ | .meclr => []
  | .putpic _ _ _ _ | .putgob _ _ _ _ | .getsc | .getpic | .getgob | .getmb => []

/-- The words of a well-formed command, head word first (30_encoding.md R70 to R72). -/
def encode (i : Instr) : List Word :=
  BitVec.ofNat 32 (i.opcode.code.toNat * 2 ^ 24 + i.headBits) :: i.extension

/-! The numbering of spec/opcode_table.json: bit 0 is the least significant bit of the head word, and the first
extension word is bits 63:32 (log 17). -/

/-- The longest command has 33 words (30_encoding.md R70). -/
def maxWords : Nat := 33

/-- The `maxWords` words whose bits are the low `nbits` bits of `w`, every bit above them 0. -/
def tableWords (nbits w : Nat) : List Word :=
  (List.range maxWords).map (fun j => BitVec.ofNat 32 (w % 2 ^ nbits / 2 ^ (32 * j)))

/-- The words of the one command that a table word stands for. -/
def commandWords (nbits w : Nat) : List Word :=
  (tableWords nbits w).take (1 + extWordsOf ((tableWords nbits w).headD 0))

/-- The command the decoder reads from an instruction whose bits are `w`, numbered as the table numbers them. -/
def decodeTableWord (nbits w : Nat) : Option Instr :=
  match decode (commandWords nbits w) with
  | .instr i _ => some i
  | .illegal _ _ _ => none
  | .incomplete => none

end Sys2Proof
end

