-- ==== Sys2Proof/Machine/Arith.lean ====
section
/-!
DEFINITION. The arithmetic notation of the spec (00_scope.md R7 to R10): exact integers, narrowed where a rule
says so.
-/

namespace Sys2Proof.Machine

/-- `clamp(lo, hi, x)` (00_scope.md R7). -/
def clamp (lo hi x : Int) : Int := if x < lo then lo else if x > hi then hi else x

/-- `wrap16(x)` (00_scope.md R7). -/
def wrap16 (x : Int) : Lane := BitVec.ofInt 16 x

/-- `tdiv(a, d)`: the quotient rounded toward zero (00_scope.md R8). -/
def tdiv (a d : Int) : Int := Int.tdiv a d

/-- `rhaz(x, d)`: round half away from zero, `d` even (00_scope.md R8). -/
def rhaz (x d : Int) : Int := if x < 0 then tdiv (x - d / 2) d else tdiv (x + d / 2) d

/-- `asr(x, k) = floor(x / 2^k)` (00_scope.md R9). -/
def asr (x : Int) (k : Nat) : Int := x / 2 ^ k

/-- `abs(x)` as a count (00_scope.md R7). -/
def absNat (x : Int) : Nat := x.natAbs

/-- `bits(n, v)`: the low `n` bits of `v`, most significant first (00_scope.md R10). -/
def bits : Nat → Nat → List Bool
  | 0, _ => []
  | n + 1, v => v.testBit n :: bits n v

/-- The unsigned number a bit string holds, most significant bit first (00_scope.md R10). -/
def ofBits (s : List Bool) : Nat := s.foldl (fun r b => 2 * r + b.toNat) 0

/-- `sext_8(v)` (00_scope.md R10). -/
def sext8 (v : Nat) : Int := (BitVec.ofNat 8 v).toInt

end Sys2Proof.Machine
end

