-- ==== Sys2Proof/Config.lean ====
section
/-!
DEFINITION. What is fixed for one engine: the sizes the spec decides, the parameters it leaves open
(00_scope.md R6, 92_eei_decisions.md section 8) as plain data, and the free values, constants with no body.
-/

namespace Sys2Proof

/-- Number of block registers (10_state.md R24). -/
abbrev nblk : Nat := 8

/-- Largest plane width (10_state.md R28, 00_scope.md R6). -/
abbrev maxW : Nat := 352

/-- Largest plane height (10_state.md R28, 00_scope.md R6). -/
abbrev maxH : Nat := 288

/-- `MAXMB = (352/16) * (288/16)` (10_state.md R28). -/
abbrev maxMb : Nat := 396

/-- Displacement bound of a search (00_scope.md R6, 45_motion.md R202). -/
abbrev searchRange : Int := 15

/-- How an engine fills in a parameter of 00_scope.md R6 that is a function: the default that the spec names, or
some other function, number `k` of the unconstrained constants below (log 12). -/
inductive Choice where
  | default
  | other (k : Nat)
deriving DecidableEq, Repr

/-- The pass a 1-D network runs in (41_transform.md R122, R123). -/
inductive Pass where
  | first
  | second
deriving DecidableEq, Repr

/-- `COS`, the seven cosine constants at scale 2^9, by their names in 41_transform.md R120. -/
structure Cos where
  c1d4 : Int
  c1d8 : Int
  c3d8 : Int
  c1d16 : Int
  c3d16 : Int
  c5d16 : Int
  c7d16 : Int
deriving DecidableEq, Repr

/-- One entry of a VLC table: "value → (bit length, code)" (44_vlc_tables.md, introduction). -/
structure VlcEntry where
  value : Nat
  len : Nat
  code : Nat
deriving DecidableEq, Repr

/-- A VLC table: its entries. -/
abbrev VlcTable := List VlcEntry

/-- One row of the MTYPE attribute table (46_framing.md R240). -/
structure MtypeAttr where
  quant : Bool
  mv : Bool
  cbp : Bool
  tcoeff : Bool
  intra : Bool
  fil : Bool
deriving DecidableEq, Repr

/-- The parameters of 00_scope.md R6: those that 92_eei_decisions.md section 8 calls OPEN, the switches it lets a
model expose, and the tables and constants of 93_implementation_defined.md part B, as plain data (log 11). A step
never changes them. -/
structure Params where
  /-- `COS` (41_transform.md R120). -/
  cos : Cos
  /-- `CHEN_NETWORK`, the two 1-D networks with their pre-scalings, one choice (41_transform.md R130). -/
  chenNetwork : Choice
  /-- `ZIGZAG[0..63]`, the scan position of each raster lane (43_entropy.md R160). -/
  zigzag : Vector Nat 64
  /-- `TBL_MBA` (44_vlc_tables.md R190). -/
  tblMba : VlcTable
  /-- `TBL_MTYPE` (44_vlc_tables.md R191). -/
  tblMtype : VlcTable
  /-- `TBL_MVD` (44_vlc_tables.md R192). -/
  tblMvd : VlcTable
  /-- `TBL_CBP` (44_vlc_tables.md R193). -/
  tblCbp : VlcTable
  /-- `TBL_T1` (44_vlc_tables.md R194). -/
  tblT1 : VlcTable
  /-- `TBL_T2` (44_vlc_tables.md R195). -/
  tblT2 : VlcTable
  /-- `MTYPE_ATTR[0..10]` (46_framing.md R240). -/
  mtypeAttr : Vector MtypeAttr 11
  /-- `PSC` (30_encoding.md R86). -/
  psc : BitVec 20
  /-- `GBSC` (30_encoding.md R86). -/
  gbsc : BitVec 16
  /-- `CHUNK_BYTES`, which affects no rule (20_memory.md R61; log 27): no operation reads it. -/
  chunkBytes : Nat
  /-- `INTRA_DC_QUANT` (42_quantizer.md R141). -/
  intraDcQuant : Choice
  /-- `CBP_THRESHOLD` (42_quantizer.md R144). -/
  cbpThreshold : Int
  /-- `DEQ_EVEN_ONLY` (42_quantizer.md R146). -/
  deqEvenOnly : Bool
  /-- `DEQ_CLIP`: no clip, or the two ends of the clipping range (42_quantizer.md R148, log 14). -/
  deqClip : Option (Int × Int)
  /-- `PAD_BIT` (40_bitchannel.md R104). -/
  padBit : Bool
  /-- `AE_PATTERN`, the sample offsets `(i, j)` (45_motion.md R201). -/
  aePattern : List (Nat × Nat)
  /-- `AE_TCOEFF_THRESHOLD` (45_motion.md R209). -/
  aeTcoeffThreshold : Int
  /-- `AE_INTER_THRESHOLD` (45_motion.md R213). -/
  aeInterThreshold : Int
  /-- `REFRESH_SCORE` (45_motion.md R212). -/
  refreshScore : Choice
  /-- `REFRESH_THRESHOLD` (45_motion.md R212). -/
  refreshThreshold : Int
  /-- `ZERO_MV_CLOSE` (45_motion.md R213). -/
  zeroMvClose : Choice
  /-- `SEARCH_IMPL[0..3]` (45_motion.md R204). -/
  searchImpl : Vector Choice 4
  /-- `MVD_RESET_H261` (46_framing.md R244). -/
  mvdResetH261 : Bool
deriving DecidableEq, Repr

/-- FREE VALUE: lane `k` of block register `b` at the `d`-th draw (10_state.md R38 "draws 64 arbitrary `i16`
values"; log 5). -/
opaque Config.unwrittenLane (d b k : Nat) : Lane

/-- FREE VALUE: `CHUNK_BYTES` of the reference configuration, where 00_scope.md R6 says "any" (log 27). -/
opaque Config.chunkBytes : Nat

/-- FREE VALUE: a forward 1-D network other than the default, with its pre-scaling (41_transform.md R130; log 12). -/
opaque Config.chenForward (k : Nat) (pass : Pass) (u : Vector Int 8) : Vector Int 8

/-- FREE VALUE: the inverse network that belongs to it (41_transform.md R130; log 12). -/
opaque Config.chenInverse (k : Nat) (pass : Pass) (u : Vector Int 8) : Vector Int 8

/-- FREE VALUE: an intra DC quantizer other than the default, of the lane value `v` (42_quantizer.md R141; log 12). -/
opaque Config.intraDcQuant (k : Nat) (v : Int) : Int

/-- FREE VALUE: a way to combine staleness and residual error other than the product (45_motion.md R212; log 12). -/
opaque Config.refreshScore (k : Nat) (stale ae : Nat) : Int

/-- FREE VALUE: a "close enough" test other than the default (45_motion.md R213; log 12, log 13). -/
opaque Config.zeroMvClose (k : Nat) (ae0 best : Nat) : Bool

/-- FREE VALUE: the displacement a search variant other than the default finds. 45_motion.md R204(c): it reads
only the planes, the seed and the configuration (log 12). -/
opaque Config.searchVector (k alg : Nat) (cur ref : Memory) (w h mbx mby : Nat) (seed : Mv) : Mv

end Sys2Proof
end

