-- ==== Sys2Proof/Machine/Tables.lean ====
section
/-!
DEFINITION. The constant tables (10_state.md R35) as the spec prints them, the defaults of the parameters of the same
names: the six VLC tables (44_vlc_tables.md R190 to R195), the zig-zag permutation (43_entropy.md R160), the MTYPE
attributes (46_framing.md R240), the start codes (30_encoding.md R86) and the cosine constants (41_transform.md R120),
all "from general knowledge, not in source" (log 18).
-/

namespace Sys2Proof.Machine

/-- `EOB_SYMBOL` (43_entropy.md R165). -/
def eobSymbol : Nat := 0

/-- `ESCAPE_SYMBOL` (43_entropy.md R165). -/
def escapeSymbol : Nat := 0x1B01

/-- `MBA_STUFFING` (43_entropy.md R165). -/
def mbaStuffing : Nat := 34

/-- `MBA_STARTCODE` (43_entropy.md R165). -/
def mbaStartcode : Nat := 35

/-- `TBL_MBA` (44_vlc_tables.md R190). -/
def tblMba : VlcTable :=
  [⟨1, 1, 0b1⟩, ⟨2, 3, 0b011⟩, ⟨3, 3, 0b010⟩, ⟨4, 4, 0b0011⟩, ⟨5, 4, 0b0010⟩, ⟨6, 5, 0b0001_1⟩,
   ⟨7, 5, 0b0001_0⟩, ⟨8, 7, 0b0000_111⟩, ⟨9, 7, 0b0000_110⟩, ⟨10, 8, 0b0000_1011⟩, ⟨11, 8, 0b0000_1010⟩,
   ⟨12, 8, 0b0000_1001⟩, ⟨13, 8, 0b0000_1000⟩, ⟨14, 8, 0b0000_0111⟩, ⟨15, 8, 0b0000_0110⟩,
   ⟨16, 10, 0b0000_0101_11⟩] ++
  [⟨17, 10, 0b0000_0101_10⟩, ⟨18, 10, 0b0000_0101_01⟩, ⟨19, 10, 0b0000_0101_00⟩, ⟨20, 10, 0b0000_0100_11⟩,
   ⟨21, 10, 0b0000_0100_10⟩, ⟨22, 11, 0b0000_0100_011⟩, ⟨23, 11, 0b0000_0100_010⟩,
   ⟨24, 11, 0b0000_0100_001⟩, ⟨25, 11, 0b0000_0100_000⟩, ⟨26, 11, 0b0000_0011_111⟩,
   ⟨27, 11, 0b0000_0011_110⟩, ⟨28, 11, 0b0000_0011_101⟩, ⟨29, 11, 0b0000_0011_100⟩,
   ⟨30, 11, 0b0000_0011_011⟩, ⟨31, 11, 0b0000_0011_010⟩, ⟨32, 11, 0b0000_0011_001⟩] ++
  [⟨33, 11, 0b0000_0011_000⟩, ⟨34, 11, 0b0000_0001_111⟩, ⟨35, 16, 0b0000_0000_0000_0001⟩]

/-- `TBL_MTYPE` (44_vlc_tables.md R191). -/
def tblMtype : VlcTable :=
  [⟨0, 4, 0b0001⟩, ⟨1, 7, 0b0000_001⟩, ⟨2, 1, 0b1⟩, ⟨3, 5, 0b0000_1⟩, ⟨4, 9, 0b0000_0000_1⟩,
   ⟨5, 8, 0b0000_0001⟩, ⟨6, 10, 0b0000_0000_01⟩, ⟨7, 3, 0b001⟩, ⟨8, 2, 0b01⟩, ⟨9, 6, 0b0000_01⟩]

/-- `TBL_MVD` (44_vlc_tables.md R192). -/
def tblMvd : VlcTable :=
  [⟨0, 1, 0b1⟩, ⟨1, 3, 0b010⟩, ⟨2, 4, 0b0010⟩, ⟨3, 5, 0b0001_0⟩, ⟨4, 7, 0b0000_110⟩, ⟨5, 8, 0b0000_1010⟩,
   ⟨6, 8, 0b0000_1000⟩, ⟨7, 8, 0b0000_0110⟩, ⟨8, 10, 0b0000_0101_10⟩, ⟨9, 10, 0b0000_0101_00⟩,
   ⟨10, 10, 0b0000_0100_10⟩, ⟨11, 11, 0b0000_0100_010⟩, ⟨12, 11, 0b0000_0100_000⟩,
   ⟨13, 11, 0b0000_0011_110⟩, ⟨14, 11, 0b0000_0011_100⟩, ⟨15, 11, 0b0000_0011_010⟩] ++
  [⟨16, 11, 0b0000_0011_001⟩, ⟨17, 11, 0b0000_0011_011⟩, ⟨18, 11, 0b0000_0011_101⟩,
   ⟨19, 11, 0b0000_0011_111⟩, ⟨20, 11, 0b0000_0100_001⟩, ⟨21, 11, 0b0000_0100_011⟩,
   ⟨22, 10, 0b0000_0100_11⟩, ⟨23, 10, 0b0000_0101_01⟩, ⟨24, 10, 0b0000_0101_11⟩, ⟨25, 8, 0b0000_0111⟩,
   ⟨26, 8, 0b0000_1001⟩, ⟨27, 8, 0b0000_1011⟩, ⟨28, 7, 0b0000_111⟩, ⟨29, 5, 0b0001_1⟩, ⟨30, 4, 0b0011⟩,
   ⟨31, 3, 0b011⟩]

/-- `TBL_CBP` (44_vlc_tables.md R193). -/
def tblCbp : VlcTable :=
  [⟨1, 5, 0b0101_1⟩, ⟨2, 5, 0b0100_1⟩, ⟨3, 6, 0b0011_01⟩, ⟨4, 4, 0b1101⟩, ⟨5, 7, 0b0010_111⟩,
   ⟨6, 7, 0b0010_011⟩, ⟨7, 8, 0b0001_1111⟩, ⟨8, 4, 0b1100⟩, ⟨9, 7, 0b0010_110⟩, ⟨10, 7, 0b0010_010⟩,
   ⟨11, 8, 0b0001_1110⟩, ⟨12, 5, 0b1001_1⟩, ⟨13, 8, 0b0001_1011⟩, ⟨14, 8, 0b0001_0111⟩,
   ⟨15, 8, 0b0001_0011⟩, ⟨16, 4, 0b1011⟩] ++
  [⟨17, 7, 0b0010_101⟩, ⟨18, 7, 0b0010_001⟩, ⟨19, 8, 0b0001_1101⟩, ⟨20, 5, 0b1000_1⟩, ⟨21, 8, 0b0001_1001⟩,
   ⟨22, 8, 0b0001_0101⟩, ⟨23, 8, 0b0001_0001⟩, ⟨24, 6, 0b0011_11⟩, ⟨25, 8, 0b0000_1111⟩,
   ⟨26, 8, 0b0000_1101⟩, ⟨27, 9, 0b0000_0001_1⟩, ⟨28, 5, 0b0111_1⟩, ⟨29, 8, 0b0000_1011⟩,
   ⟨30, 8, 0b0000_0111⟩, ⟨31, 9, 0b0000_0011_1⟩, ⟨32, 4, 0b1010⟩] ++
  [⟨33, 7, 0b0010_100⟩, ⟨34, 7, 0b0010_000⟩, ⟨35, 8, 0b0001_1100⟩, ⟨36, 6, 0b0011_10⟩,
   ⟨37, 8, 0b0000_1110⟩, ⟨38, 8, 0b0000_1100⟩, ⟨39, 9, 0b0000_0001_0⟩, ⟨40, 5, 0b1000_0⟩,
   ⟨41, 8, 0b0001_1000⟩, ⟨42, 8, 0b0001_0100⟩, ⟨43, 8, 0b0001_0000⟩, ⟨44, 5, 0b0111_0⟩,
   ⟨45, 8, 0b0000_1010⟩, ⟨46, 8, 0b0000_0110⟩, ⟨47, 9, 0b0000_0011_0⟩, ⟨48, 5, 0b1001_0⟩] ++
  [⟨49, 8, 0b0001_1010⟩, ⟨50, 8, 0b0001_0110⟩, ⟨51, 8, 0b0001_0010⟩, ⟨52, 5, 0b0110_1⟩,
   ⟨53, 8, 0b0000_1001⟩, ⟨54, 8, 0b0000_0101⟩, ⟨55, 9, 0b0000_0010_1⟩, ⟨56, 5, 0b0110_0⟩,
   ⟨57, 8, 0b0000_1000⟩, ⟨58, 8, 0b0000_0100⟩, ⟨59, 9, 0b0000_0010_0⟩, ⟨60, 3, 0b111⟩, ⟨61, 5, 0b0101_0⟩,
   ⟨62, 5, 0b0100_0⟩, ⟨63, 6, 0b0011_00⟩]

/-- The entries that `TBL_T1` and `TBL_T2` share: the escape and 62 run/level pairs (44_vlc_tables.md R194, R195). -/
def tcoeffCommon : VlcTable :=
  [⟨0x1B01, 6, 0b0000_01⟩, ⟨0x0002, 4, 0b0100⟩, ⟨0x0003, 5, 0b0010_1⟩, ⟨0x0004, 7, 0b0000_110⟩,
   ⟨0x0005, 8, 0b0010_0110⟩, ⟨0x0006, 8, 0b0010_0001⟩, ⟨0x0007, 10, 0b0000_0010_10⟩,
   ⟨0x0008, 12, 0b0000_0001_1101⟩, ⟨0x0009, 12, 0b0000_0001_1000⟩, ⟨0x000A, 12, 0b0000_0001_0011⟩,
   ⟨0x000B, 12, 0b0000_0001_0000⟩, ⟨0x000C, 13, 0b0000_0000_1101_0⟩, ⟨0x000D, 13, 0b0000_0000_1100_1⟩,
   ⟨0x000E, 13, 0b0000_0000_1100_0⟩, ⟨0x000F, 13, 0b0000_0000_1011_1⟩, ⟨0x0101, 3, 0b011⟩] ++
  [⟨0x0102, 6, 0b0001_10⟩, ⟨0x0103, 8, 0b0010_0101⟩, ⟨0x0104, 10, 0b0000_0011_00⟩,
   ⟨0x0105, 12, 0b0000_0001_1011⟩, ⟨0x0106, 13, 0b0000_0000_1011_0⟩, ⟨0x0107, 13, 0b0000_0000_1010_1⟩,
   ⟨0x0201, 4, 0b0101⟩, ⟨0x0202, 7, 0b0000_100⟩, ⟨0x0203, 10, 0b0000_0010_11⟩,
   ⟨0x0204, 12, 0b0000_0001_0100⟩, ⟨0x0205, 13, 0b0000_0000_1010_0⟩, ⟨0x0301, 5, 0b0011_1⟩,
   ⟨0x0302, 8, 0b0010_0100⟩, ⟨0x0303, 12, 0b0000_0001_1100⟩, ⟨0x0304, 13, 0b0000_0000_1001_1⟩,
   ⟨0x0401, 5, 0b0011_0⟩] ++
  [⟨0x0402, 10, 0b0000_0011_11⟩, ⟨0x0403, 12, 0b0000_0001_0010⟩, ⟨0x0501, 6, 0b0001_11⟩,
   ⟨0x0502, 10, 0b0000_0010_01⟩, ⟨0x0503, 13, 0b0000_0000_1001_0⟩, ⟨0x0601, 6, 0b0001_01⟩,
   ⟨0x0602, 12, 0b0000_0001_1110⟩, ⟨0x0701, 6, 0b0001_00⟩, ⟨0x0702, 12, 0b0000_0001_0101⟩,
   ⟨0x0801, 7, 0b0000_111⟩, ⟨0x0802, 12, 0b0000_0001_0001⟩, ⟨0x0901, 7, 0b0000_101⟩,
   ⟨0x0902, 13, 0b0000_0000_1000_1⟩, ⟨0x0A01, 8, 0b0010_0111⟩, ⟨0x0A02, 13, 0b0000_0000_1000_0⟩,
   ⟨0x0B01, 8, 0b0010_0011⟩] ++
  [⟨0x0C01, 8, 0b0010_0010⟩, ⟨0x0D01, 8, 0b0010_0000⟩, ⟨0x0E01, 10, 0b0000_0011_10⟩,
   ⟨0x0F01, 10, 0b0000_0011_01⟩, ⟨0x1001, 10, 0b0000_0010_00⟩, ⟨0x1101, 12, 0b0000_0001_1111⟩,
   ⟨0x1201, 12, 0b0000_0001_1010⟩, ⟨0x1301, 12, 0b0000_0001_1001⟩, ⟨0x1401, 12, 0b0000_0001_0111⟩,
   ⟨0x1501, 12, 0b0000_0001_0110⟩, ⟨0x1601, 13, 0b0000_0000_1111_1⟩, ⟨0x1701, 13, 0b0000_0000_1111_0⟩,
   ⟨0x1801, 13, 0b0000_0000_1110_1⟩, ⟨0x1901, 13, 0b0000_0000_1110_0⟩, ⟨0x1A01, 13, 0b0000_0000_1101_1⟩]

/-- `TBL_T1`: end of block, run 0 level 1, and the shared entries (44_vlc_tables.md R194). -/
def tblT1 : VlcTable := [⟨0x0000, 2, 0b10⟩, ⟨0x0001, 2, 0b11⟩] ++ tcoeffCommon

/-- `TBL_T2`: no end of block, run 0 level 1 as `1`, and the shared entries (44_vlc_tables.md R195). -/
def tblT2 : VlcTable := [⟨0x0001, 1, 0b1⟩] ++ tcoeffCommon

/-- `ZIGZAG[lane]`, the scan position of a raster lane (43_entropy.md R160), row `r` down, column `c` across. -/
def zigzag : Vector Nat 64 :=
  #v[0, 1, 5, 6, 14, 15, 27, 28] ++
  #v[2, 4, 7, 13, 16, 26, 29, 42] ++
  #v[3, 8, 12, 17, 25, 30, 41, 43] ++
  #v[9, 11, 18, 24, 31, 40, 44, 53] ++
  #v[10, 19, 23, 32, 39, 45, 52, 54] ++
  #v[20, 22, 33, 38, 46, 51, 55, 60] ++
  #v[21, 34, 37, 47, 50, 56, 59, 61] ++
  #v[35, 36, 48, 49, 57, 58, 62, 63]

/-- `MTYPE_ATTR[0..10]` (46_framing.md R240): QUANT, MV, CBP, TCOEFF, INTRA, FIL. -/
def mtypeAttrRows : Vector MtypeAttr 11 :=
  #v[⟨false, false, false, true, true, false⟩,
    ⟨true, false, false, true, true, false⟩,
    ⟨false, false, true, true, false, false⟩,
    ⟨true, false, true, true, false, false⟩,
    ⟨false, true, false, false, false, false⟩,
    ⟨false, true, true, true, false, false⟩,
    ⟨true, true, true, true, false, false⟩,
    ⟨false, true, false, false, false, true⟩,
    ⟨false, true, true, true, false, true⟩,
    ⟨true, true, true, true, false, true⟩,
    ⟨false, false, false, false, false, false⟩]

/-- `PSC`, 20 bits (30_encoding.md R86). -/
def psc : BitVec 20 := 0x00010

/-- `GBSC`, 16 bits (30_encoding.md R86). -/
def gbsc : BitVec 16 := 0x0001

/-- The seven cosine constants (41_transform.md R120). -/
def cosines : Cos where
  c1d4 := 362
  c1d8 := 473
  c3d8 := 196
  c1d16 := 502
  c3d16 := 426
  c5d16 := 284
  c7d16 := 100

end Sys2Proof.Machine
end

