-- ==== Sys2Proof/Machine/Parameters.lean ====
section
/-!
DEFINITION. The check of the parameters (43_entropy.md R160, R165, 44_vlc_tables.md R196, 45_motion.md R201,
93_implementation_defined.md U41), and the reference configuration REFCFG of 00_scope.md R6 (log 11): the values of the
spec's own test vectors, which are "not a claim about the repository".
-/

namespace Sys2Proof.Machine

/-- The code word of `e` is a prefix of that of `f`, or equal to it. -/
def codePrefix (e f : VlcEntry) : Bool := decide (e.len ≤ f.len) && f.code / 2 ^ (f.len - e.len) == e.code

/-- Every code number fits its length, which is not 0. -/
def vlcSized (t : VlcTable) : Bool := t.all (fun e => decide (e.code < 2 ^ e.len ∧ 1 ≤ e.len))

/-- No value has two entries, and no code word is a prefix of another (44_vlc_tables.md R196(a)). -/
def vlcPrefixFree (t : VlcTable) : Bool :=
  decide (t.Pairwise (fun e f => e.value ≠ f.value ∧ codePrefix e f = false ∧ codePrefix f e = false))

/-- The values that have an entry are exactly those from `lo` to `hi`. -/
def vlcCovers (t : VlcTable) (lo hi : Nat) : Bool :=
  t.all (fun e => decide (lo ≤ e.value ∧ e.value ≤ hi)) &&
    (List.range (hi + 1)).all (fun x => decide (x < lo) || t.any (fun e => e.value == x))

/-- A table has an entry for `x`. -/
def vlcHas (t : VlcTable) (x : Nat) : Bool := t.any (fun e => e.value == x)

/-- The values of a coefficient table are end of block, the escape, and symbols with a level of 1 to 255 and a run of
0 to 63 (43_entropy.md R162, R165). -/
def vlcCoefs (t : VlcTable) : Bool :=
  t.all (fun e => e.value == eobSymbol || e.value == escapeSymbol ||
    decide (e.value % 2 ^ 8 ≠ 0 ∧ e.value / 2 ^ 8 < 64))

/-- A table that a trie can hold: the check "at load time" of 60_exceptions.md R329. -/
def vlcOk (t : VlcTable) : Bool := vlcSized t && vlcPrefixFree t

/-- `ZIGZAG` is a permutation of 0 to 63 (43_entropy.md R160). -/
def zigzagOk (z : Vector Nat 64) : Bool := decide (z.toList.Perm (List.range 64))

/-- `AE_PATTERN` is 64 distinct offsets inside the 16 by 16 region (45_motion.md R201). -/
def patternOk (l : List (Nat × Nat)) : Bool :=
  l.length == 64 && decide l.Nodup && l.all (fun o => o.1 < 16 && o.2 < 16)

end Sys2Proof.Machine

namespace Sys2Proof

open Machine

/-- What the spec demands of the parameters. "A model that takes the tables as parameters checks prefix-freedom when
it is built and refuses a table that fails" (93_implementation_defined.md U41); the values of the six tables are those
of 43_entropy.md R165. -/
def Params.wf (p : Params) : Bool :=
  zigzagOk p.zigzag && patternOk p.aePattern &&
  vlcOk p.tblMba && vlcCovers p.tblMba 1 mbaStartcode &&
  vlcOk p.tblMtype && vlcCovers p.tblMtype 0 9 &&
  vlcOk p.tblMvd && vlcCovers p.tblMvd 0 31 &&
  vlcOk p.tblCbp && vlcCovers p.tblCbp 1 63 &&
  vlcOk p.tblT1 && vlcCoefs p.tblT1 && vlcHas p.tblT1 eobSymbol && vlcHas p.tblT1 escapeSymbol &&
  vlcOk p.tblT2 && vlcCoefs p.tblT2 && !vlcHas p.tblT2 eobSymbol && vlcHas p.tblT2 escapeSymbol

end Sys2Proof

namespace Sys2Proof.Machine

/-- The even-even grid, the default `AE_PATTERN` (45_motion.md R201): `(2*a, 2*b)`, `b` outer, `a` inner. -/
def evenGrid : List (Nat × Nat) :=
  (List.range 8).flatMap (fun b => (List.range 8).map (fun a => (2 * a, 2 * b)))

/-- REFCFG (00_scope.md R6). -/
def refCfg : Params where
  cos := cosines
  chenNetwork := .default
  zigzag := zigzag
  tblMba := tblMba
  tblMtype := tblMtype
  tblMvd := tblMvd
  tblCbp := tblCbp
  tblT1 := tblT1
  tblT2 := tblT2
  mtypeAttr := mtypeAttrRows
  psc := psc
  gbsc := gbsc
  chunkBytes := Config.chunkBytes
  intraDcQuant := .default
  cbpThreshold := 0
  deqEvenOnly := true
  deqClip := none
  padBit := false
  aePattern := evenGrid
  aeTcoeffThreshold := 128
  aeInterThreshold := 2048
  refreshScore := .default
  refreshThreshold := 1000000
  zeroMvClose := .default
  searchImpl := Vector.replicate 4 .default
  mvdResetH261 := false

end Sys2Proof.Machine
end

