-- ==== Sys2Proof/Machine/State.lean ====
section
/-!
DEFINITION. The state of the engine (10_state.md R20 to R34), the memories of its host (20_memory.md R50), the
host interface as data, and the state after reset (10_state.md R37, R38).
-/

namespace Sys2Proof.Machine

/-- The causes of a fault (60_exceptions.md R321), `none` while `FAULT = 0`. -/
inductive Cause where
  | none
  | argumentError
  | boundsError
  | unexpectedEof
  | corruptHuffmanCode
  | headerFramingError
  /-- Never raised (60_exceptions.md R330). -/
  | memoryError
  | unencodableSymbol
  /-- Never raised at run time (60_exceptions.md R329). -/
  | huffmanTableError
  | sinkIoError
  | illegalCommand
deriving DecidableEq, Repr

/-- The fault state inside `STATUS` (10_state.md R20(h), R26). -/
structure Status where
  /-- `FAULT`, sticky until reset. -/
  fault : Bool
  /-- `CAUSE`. -/
  cause : Cause
  /-- `FOP`, the opcode of the command that raised the fault. -/
  fop : BitVec 8
deriving DecidableEq, Repr

/-- Reasons a step can stop with a fault: none. Every fault of the spec is a next state with `STATUS` written
(60_exceptions.md R320, log 4). -/
inductive Fault where
deriving DecidableEq, Repr

/-- Reasons a step can be refused. -/
inductive Refusal where
  /-- Raised by an arm of `exec` whose command has no meaning yet; safe. No arm of this model raises it. -/
  | notModelled (mnemonic : String)
deriving DecidableEq, Repr

/-- The state of the engine, its host's memories and the host interface. -/
structure State where
  /-- `BLK[0..7]` (10_state.md R24). -/
  blk : Vector Block 8
  /-- `RES[0..3]` (10_state.md R21). -/
  res : Vector Word 4
  /-- `STATUS`, CSR 0 (10_state.md R26). -/
  status : Status
  /-- `CFG`, CSR 1 (10_state.md R27). -/
  cfg : BitVec 16
  /-- `PLANE_W`, CSR 2 (10_state.md R28). -/
  planeW : BitVec 16
  /-- `PLANE_H`, CSR 3 (10_state.md R28). -/
  planeH : BitVec 16
  /-- `LASTMV`, CSR 4 (10_state.md R29). -/
  lastMv : Mv5
  /-- `MBADDR`, CSR 5 (10_state.md R30). -/
  mbaddr : BitVec 6
  /-- `SCSEEN`, CSR 6 (10_state.md R33). -/
  scseen : Bool
  /-- `SINK` (10_state.md R31). -/
  sink : List Byte
  /-- `WPEND`, oldest bit first (10_state.md R31). -/
  wpend : List Bool
  /-- `WPOS` (10_state.md R31). -/
  wpos : BitVec 64
  /-- `RPOS` (10_state.md R32). -/
  rpos : BitVec 64
  /-- `PREVMV[0..MAXMB-1]` (10_state.md R34). -/
  prevMv : Vector Mv 396
  /-- `STALE[0..MAXMB-1]` (10_state.md R34). -/
  stale : Vector (BitVec 16) 396
  /-- Plane `CUR`, the host's (20_memory.md R50(a)). -/
  cur : Memory
  /-- Plane `REF`, the host's (20_memory.md R50(b)). -/
  ref : Memory
  /-- `SRC`, the host's; its length is `SRCLEN` (20_memory.md R50(c), R64). -/
  src : List Byte
  /-- The command words the host has issued and the engine has not taken (30_encoding.md R70; log 1). -/
  queue : List Word
  /-- The index in the pc's role (10_state.md R22; log 3). -/
  pc : Nat
  /-- The data words of the last `BLKRD` that executed; one gated by `FAULT = 1` leaves them, which is the model's choice
  (47_system.md R286; log 16). -/
  resp : List Word
  /-- What the host's sink does at the next appended bytes, `true` for a failure; when used up it fails no more
  (20_memory.md R65; log 9). -/
  sinkScript : List Bool
  /-- The model's own counter of draws of free values (log 5). -/
  draws : Nat
  /-- The model parameters (00_scope.md R6; log 11). -/
  par : Params
deriving DecidableEq, Repr

/-- `FAULT = 0`, `CAUSE = 0`, `FOP = 0` (10_state.md R37). -/
def Status.clear : Status := ⟨false, .none, 0⟩

/-- Block registers that no command has written: the `d`-th draw of free values (10_state.md R38; log 5). -/
def unwrittenBlocks (d : Nat) : Vector Block 8 :=
  Vector.ofFn (fun b => Vector.ofFn (fun k => Config.unwrittenLane d b.val k.val))

/-- The machine right after hardware reset (10_state.md R37, 70_reset_and_hazards.md R350), with parameters `p`
and nothing supplied by the host yet. -/
def State.resetWith (p : Params) : State where
  blk := unwrittenBlocks 0
  res := Vector.replicate 4 0
  status := Status.clear
  cfg := 0
  planeW := 0
  planeH := 0
  lastMv := Mv5.zero
  mbaddr := 0
  scseen := false
  sink := []
  wpend := []
  wpos := 0
  rpos := 0
  prevMv := Vector.replicate 396 Mv.zero
  stale := Vector.replicate 396 0
  cur := []
  ref := []
  src := []
  queue := []
  pc := 0
  resp := []
  sinkScript := []
  draws := 1
  par := p

/-- The machine right after reset, in the spec's reference configuration (log 11). -/
def State.reset : State := State.resetWith refCfg

end Sys2Proof.Machine
end

