-- ==== Sys2Proof/Machine/Ops.lean ====
section
/-!
DEFINITION. The named operations over memory, registers and the two bit channels; taking a fault and leaving the
faulted state; how a command runs. Every command's pseudocode is written with these (00_scope.md R12).
-/

namespace Sys2Proof.Machine

/-! Building an engine -/

/-- An engine built with the parameters `p`, as it comes out of hardware reset; none where the check of the parameters
refuses them ("checks prefix-freedom when it is built and refuses a table that fails", 93_implementation_defined.md
U41; log 11). -/
def buildEngine (p : Params) : Option State := if p.wf then some (State.resetWith p) else none

/-! Memory: the planes of the host -/

/-- What an address that a plane does not list reads as (log 7). -/
def Memory.unlisted : Byte := 0

/-- The canonical form: addresses strictly rising, no entry equal to what an unlisted address reads as. -/
def Memory.wf : Memory → Bool
  | [] => true
  | [c] => c.2 != Memory.unlisted
  | c :: d :: m => c.2 != Memory.unlisted && decide (c.1 < d.1) && Memory.wf (d :: m)

/-- `MemRead(space, addr, 1)` of a plane (00_scope.md R12, 20_memory.md R57). -/
def Memory.read : Memory → Nat → Byte
  | [], _ => Memory.unlisted
  | c :: m, a => if c.1 = a then c.2 else Memory.read m a

/-- The host puts a byte into a plane (20_memory.md R60). No command does (45_motion.md R221). -/
def Memory.write : Memory → Nat → Byte → Memory
  | [], a, v => if v = Memory.unlisted then [] else [(a, v)]
  | c :: m, a, v =>
    if a < c.1 then (if v = Memory.unlisted then c :: m else (a, v) :: c :: m)
    else if a = c.1 then (if v = Memory.unlisted then m else (a, v) :: m)
    else c :: Memory.write m a v

/-! Pseudocode: a computation changes the state, and may raise a cause at some point of it -/

/-- One command's pseudocode, or a piece of it. A `raise` ends it and keeps the state changes made before it
(60_exceptions.md R320(a), (b)). -/
abbrev M (α : Type) := EStateM Cause State α

/-- Look at the state. -/
def M.look {α : Type} (f : State → α) : M α := fun s => .ok (f s) s

/-- Change the state. -/
def M.change (f : State → State) : M Unit := fun s => .ok () (f s)

/-- `raise <Cause>` (00_scope.md R12). -/
def M.raise {α : Type} (c : Cause) : M α := fun s => .error c s

/-- `if p: raise <Cause>`. -/
def M.raiseIf (p : Prop) [Decidable p] (c : Cause) : M Unit := if p then M.raise c else pure ()

/-! Registers -/

/-- Read block register `b` (10_state.md R24). -/
def State.block (s : State) (b : Fin 8) : Block := s.blk[b]

/-- Write block register `b` (10_state.md R24). -/
def State.setBlock (s : State) (b : Fin 8) (v : Block) : State := { s with blk := s.blk.set b v }

/-- `RES[j] <- v` with `v` already in 32 bits (00_scope.md R12). -/
def State.setRes (s : State) (j : Fin 4) (v : Word) : State := { s with res := s.res.set j v }

/-- `BLK[b] <- v`. -/
def writeBlock (b : Fin 8) (v : Block) : M Unit := M.change (fun s => s.setBlock b v)

/-- `RES[j] <- v` for a number, stored mod 2^32 (00_scope.md R12). -/
def writeRes (j : Fin 4) (v : Nat) : M Unit := M.change (fun s => s.setRes j (BitVec.ofNat 32 v))

/-- `RES[j] <- v` for a signed number, its 32-bit two's-complement pattern (45_motion.md R217). -/
def writeResInt (j : Fin 4) (v : Int) : M Unit := M.change (fun s => s.setRes j (BitVec.ofInt 32 v))

/-! The write channel -/

/-- The byte of eight bits, the first in bit 7 (40_bitchannel.md R105). -/
def byteOf (p : List Bool) : Byte := BitVec.ofNat 8 (ofBits p)

/-- Place one bit. The bit that completes a byte appends it to `SINK`; if the host's sink fails there, that bit is
not placed (40_bitchannel.md R105, 20_memory.md R65, 60_exceptions.md R326(c); log 9, log 10). -/
def putbit (b : Bool) : M Unit := fun s =>
  if (s.wpend ++ [b]).length = 8 then
    if s.sinkScript.headD false = true then .error .sinkIoError { s with sinkScript := s.sinkScript.tail }
    else .ok () { s with sink := s.sink ++ [byteOf (s.wpend ++ [b])], wpend := [], wpos := s.wpos + 1,
                         sinkScript := s.sinkScript.tail }
  else .ok () { s with wpend := s.wpend ++ [b], wpos := s.wpos + 1 }

/-- `putcode(s)` (40_bitchannel.md R105). -/
def putcode : List Bool → M Unit
  | [] => pure ()
  | b :: s => do
    putbit b
    putcode s

/-- `putbits(n, v)` (40_bitchannel.md R105). -/
def putbits (n v : Nat) : M Unit := putcode (bits n v)

/-! The read channel -/

/-- Bit `p` of the source: bit `7 - (p mod 8)` of byte `floor(p / 8)` (10_state.md R32). -/
def srcBit (src : List Byte) (p : Nat) : Bool := (src.getD (p / 8) 0).getLsbD (7 - p % 8)

/-- The number that the `n` source bits from `p` on hold, first bit most significant (40_bitchannel.md R106). -/
def srcBits (src : List Byte) (p n : Nat) : Nat :=
  ofBits ((List.range n).map (fun i => srcBit src (p + i)))

/-- `getbits(n)`: the end check comes before any bit is consumed (40_bitchannel.md R106). -/
def getbits (n : Nat) : M Nat := fun s =>
  if s.rpos.toNat + n > 8 * s.src.length then .error .unexpectedEof s
  else .ok (srcBits s.src s.rpos.toNat n) { s with rpos := s.rpos + BitVec.ofNat 64 n }

/-- `n <- 0; while getbits(1) = 1: getbits(8); n <- n + 1`, from the count `n` on (46_framing.md R249). Each round
consumes bits, so `fuel`, more than the source has bits, never runs out (log 19). -/
def getTail : Nat → Nat → M Nat
  | 0, _ => M.raise .unexpectedEof
  | fuel + 1, n => do
    let more ← getbits 1
    if more = 1 then do
      let _ ← getbits 8
      getTail fuel (n + 1)
    else pure n

/-- More rounds than the source has bits (log 19). -/
def State.readFuel (s : State) : Nat := 8 * s.src.length + 1

/-! Faults -/

/-- Take a fault: `FAULT`, `CAUSE` and `FOP` are written, nothing else, and only if none was taken before
(60_exceptions.md R320, R323). -/
def State.raiseFault (s : State) (c : Cause) (opc : BitVec 8) : State :=
  if s.status.fault then s else { s with status := ⟨true, c, opc⟩ }

/-- Every item of 10_state.md R37 takes its reset value; the block registers become unspecified again, a new draw
(R38). It is the only way out of the faulted state (47_system.md R282). What belongs to the host stays. -/
def State.resetEngine (s : State) : State :=
  { s with blk := unwrittenBlocks s.draws, res := Vector.replicate 4 0, status := Status.clear, cfg := 0, planeW := 0,
           planeH := 0, lastMv := Mv5.zero, mbaddr := 0, scseen := false, sink := [], wpend := [], wpos := 0,
           rpos := 0, prevMv := Vector.replicate 396 Mv.zero, stale := Vector.replicate 396 0,
           draws := s.draws + 1 }

/-! Running a command -/

/-- The state a command's pseudocode leaves: its own, or the one it raised in with the fault taken
(60_exceptions.md R320). -/
def finish (op : Opcode) : EStateM.Result Cause State Unit → State
  | .ok _ s => s
  | .error c s => s.raiseFault c op.code

/-- Run a command that executes in the faulted state too: `RESET` and `CSRR` (47_system.md R280). -/
def ungated (op : Opcode) (body : M Unit) (s : State) : Host.Outcome State Fault Refusal :=
  .next (finish op (body s))

/-- Run any other command: in the faulted state it completes at once with no effect on any state
(47_system.md R280). -/
def gated (op : Opcode) (body : M Unit) (s : State) : Host.Outcome State Fault Refusal :=
  .next (if s.status.fault then s else finish op (body s))

end Sys2Proof.Machine
end

