-- ==== Sys2Proof/Machine/Flags.lean ====
section
/-!
DEFINITION. The engine has no flags and no condition codes (10_state.md R23). What stands in their place: the word
of `STATUS` (R26), the numbers of the causes (60_exceptions.md R321), and the Boolean results returned in `RES0`
as 0 or 1 (R23).
-/

namespace Sys2Proof.Machine

/-- The number of a cause (60_exceptions.md R321). -/
def Cause.code : Cause → Nat
  | .none => 0
  | .argumentError => 1
  | .boundsError => 2
  | .unexpectedEof => 3
  | .corruptHuffmanCode => 4
  | .headerFramingError => 5
  | .memoryError => 6
  | .unencodableSymbol => 7
  | .huffmanTableError => 8
  | .sinkIoError => 9
  | .illegalCommand => 10

/-- The word of `STATUS`: `FAULT` in bit 0, `CAUSE` in bits 7:4, `FOP` in bits 15:8 (10_state.md R26). -/
def Status.word (st : Status) : Nat := st.fault.toNat ||| (st.cause.code <<< 4) ||| (st.fop.toNat <<< 8)

/-- A Boolean result as it stands in `RES0` (10_state.md R23). -/
def boolResult (b : Bool) : Nat := if b then 1 else 0

/-- The transmit flag of `quantize` (42_quantizer.md R144): 1 for intra, else whether the sum of the quantized
magnitudes exceeds the threshold. -/
def transmitFlag (p : Params) (i : Coding) (sum : Nat) : Bool :=
  match i with
  | .intra => true
  | .inter => decide ((sum : Int) > p.cbpThreshold)

/-- `at_end`: no unread bit remains (40_bitchannel.md R103). -/
def State.atEnd (s : State) : Bool := decide (s.rpos.toNat ≥ 8 * s.src.length)

end Sys2Proof.Machine
end

