-- ==== Sys2Proof/Machine/Operands.lean ====
section
/-!
DEFINITION. What the operands of the commands name: the control registers (10_state.md R25), the VLC tables
(30_encoding.md R73), the sides of the bit channel, the macroblocks of a plane (10_state.md R28).
-/

namespace Sys2Proof.Machine

/-- The word of `LASTMV`: horizontal in bits 4:0, vertical in bits 12:8 (10_state.md R29). -/
def lastMvWord (m : Mv5) : Nat := m.h.toNat ||| (m.v.toNat <<< 8)

/-- `CSR[n]` for `n <= 6` (10_state.md R25 to R33). -/
def State.csr? (s : State) (n : Nat) : Option Nat :=
  match n with
  | 0 => some s.status.word
  | 1 => some s.cfg.toNat
  | 2 => some s.planeW.toNat
  | 3 => some s.planeH.toNat
  | 4 => some (lastMvWord s.lastMv)
  | 5 => some s.mbaddr.toNat
  | 6 => some s.scseen.toNat
  | _ => none

/-- `PLANE_W` or `PLANE_H` may hold 0, or a multiple of 16 up to the maximum (10_state.md R28). -/
def planeSizeOk (max : Nat) (imm16 : BitVec 16) : Bool :=
  decide (imm16.toNat % 16 = 0) && decide (imm16.toNat ≤ max)

/-- `SEARCH_ALG`, bits 1:0 of `CFG` (10_state.md R27). -/
def State.searchAlg (s : State) : Fin 4 := Fin.ofNat 4 (s.cfg.toNat % 4)

/-- The contents of a table (30_encoding.md R73). -/
def tableOf (p : Params) : TableId → VlcTable
  | .mba => p.tblMba
  | .mtype => p.tblMtype
  | .mvd => p.tblMvd
  | .cbp => p.tblCbp
  | .t1 => p.tblT1
  | .t2 => p.tblT2

/-- `SCAN[k]`, the raster lane at scan position `k`: the inverse of `ZIGZAG` (43_entropy.md R160). -/
def scan (p : Params) (k : Nat) : Nat := p.zigzag.toList.findIdx (· == k)

/-- The attributes of a type; 11 to 15 have no row and are given none (46_framing.md R240: "values 11 to 15 of the
4-bit command field have no row"; no command looks one up). -/
def mtypeAttr (p : Params) (t : Nat) : MtypeAttr :=
  p.mtypeAttr[t]?.getD ⟨false, false, false, false, false, false⟩

/-- The bit position of a side (40_bitchannel.md R102). -/
def State.position (s : State) : Side → BitVec 64
  | .wr => s.wpos
  | .rd => s.rpos

/-- `PLANE_W / 16`, macroblocks across (10_state.md R28). -/
def State.mbCols (s : State) : Nat := s.planeW.toNat / 16

/-- `PLANE_H / 16`, macroblocks down (10_state.md R28). -/
def State.mbRows (s : State) : Nat := s.planeH.toNat / 16

/-- The index of a macroblock, `mby * (PLANE_W/16) + mbx` (10_state.md R28). -/
def State.mbIndex (s : State) (mbx mby : Nat) : Nat := mby * s.mbCols + mbx

/-- `PREVMV[mb]` (10_state.md R34); an index beyond 395 arises in no state a run reaches (log 21). -/
def State.prevMvAt (s : State) (mb : Nat) : Mv := s.prevMv[mb]?.getD Mv.zero

/-- `STALE[mb]` (10_state.md R34); as `prevMvAt` (log 21). -/
def State.staleAt (s : State) (mb : Nat) : Nat := (s.stale[mb]?.getD 0).toNat

end Sys2Proof.Machine
end

