-- ==== Sys2Proof/Machine/BitChannel.lean ====
section
/-!
DEFINITION. The bit channel commands WRBITS, RDBITS, BITPOS, ATEND, FLUSH (40_bitchannel.md R100 to R104).
-/

namespace Sys2Proof.Machine

/-- The pseudocode of `WRBITS n, value` (40_bitchannel.md R100). -/
def wrbitsBody (n : Nat) (value : Word) : M Unit := do
  M.raiseIf (n > 32) .argumentError
  putbits n value.toNat

/-- `WRBITS n, value` (40_bitchannel.md R100). -/
def execWrbits (n : Nat) (value : Word) (s : State) : Host.Outcome State Fault Refusal :=
  gated .wrbits (wrbitsBody n value) s

/-- The pseudocode of `RDBITS n` (40_bitchannel.md R101). -/
def rdbitsBody (n : Nat) : M Unit := do
  M.raiseIf (n > 32) .argumentError
  let v ← getbits n
  writeRes 0 v

/-- `RDBITS n` (40_bitchannel.md R101). -/
def execRdbits (n : Nat) (s : State) : Host.Outcome State Fault Refusal := gated .rdbits (rdbitsBody n) s

/-- The pseudocode of `BITPOS side` (40_bitchannel.md R102). -/
def bitposBody (side : Side) : M Unit := do
  let p ← M.look (fun s => s.position side)
  writeRes 0 (p.toNat % 2 ^ 32)
  writeRes 1 (p.toNat / 2 ^ 32)

/-- `BITPOS side` (40_bitchannel.md R102). -/
def execBitpos (side : Side) (s : State) : Host.Outcome State Fault Refusal := gated .bitpos (bitposBody side) s

/-- `ATEND` (40_bitchannel.md R103). -/
def execAtend (s : State) : Host.Outcome State Fault Refusal :=
  gated .atend (M.change (fun s => s.setRes 0 (BitVec.ofNat 32 (boolResult s.atEnd)))) s

/-- `while length(WPEND) != 0: putbits(1, PAD_BIT)` (40_bitchannel.md R104). At most 7 bits are placed, so the
count of rounds, 8, never runs out (log 19). -/
def flushLoop : Nat → M Unit
  | 0 => pure ()
  | fuel + 1 => do
    let pending ← M.look (fun s => s.wpend.length)
    if pending ≠ 0 then do
      let pad ← M.look (fun s => s.par.padBit)
      putbit pad
      flushLoop fuel
    else pure ()

/-- `FLUSH` (40_bitchannel.md R104). -/
def execFlush (s : State) : Host.Outcome State Fault Refusal := gated .flush (flushLoop 8) s

end Sys2Proof.Machine
end

