-- ==== Sys2Proof/Machine/Entropy.lean ====
section
/-!
DEFINITION. The entropy coder commands ENCBLK, DECBLK, VLCENC, VLCDEC (43_entropy.md R160 to R182).
-/

namespace Sys2Proof.Machine

/-! Table primitives -/

/-- The code word of `x` in a table, if it has an entry (43_entropy.md R170). -/
def vlcWord? (t : VlcTable) (x : Nat) : Option (List Bool) :=
  (t.find? (fun e => e.value == x)).map (fun e => bits e.len e.code)

/-- `vlc_enc(T, x)` for a caller without an escape fallback: `absent` is `UnencodableSymbol`
(43_entropy.md R170). -/
def vlcEnc (t : VlcTable) (x : Nat) : M Unit :=
  match vlcWord? t x with
  | some w => putcode w
  | none => M.raise .unencodableSymbol

/-- The entry whose code word is the `n` bits `v` (43_entropy.md R171). -/
def vlcMatch? (t : VlcTable) (n v : Nat) : Option VlcEntry := t.find? (fun e => e.len == n && e.code == v)

/-- The `n` bits `v` are a proper prefix of some code word (43_entropy.md R171). -/
def vlcIsPrefix (t : VlcTable) (n v : Nat) : Bool :=
  t.any (fun e => decide (n < e.len) && e.code / 2 ^ (e.len - n) == v)

/-- The loop of `vlc_dec` with the `n` bits `v` read so far (43_entropy.md R171). -/
def vlcDecLoop (t : VlcTable) : Nat → Nat → Nat → M Nat
  | 0, _, _ => M.raise .corruptHuffmanCode
  | fuel + 1, n, v => do
    let b ← getbits 1
    match vlcMatch? t (n + 1) (2 * v + b) with
    | some e => pure e.value
    | none => if vlcIsPrefix t (n + 1) (2 * v + b) then vlcDecLoop t fuel (n + 1) (2 * v + b)
              else M.raise .corruptHuffmanCode

/-- The bits of the longest code word of a table (44_vlc_tables.md R196(d)). -/
def maxCodeLen (t : VlcTable) : Nat := (t.map (·.len)).foldr max 0

/-- `vlc_dec(T)` (43_entropy.md R171). One round more than the longest code word has bits finds no code word and no
prefix of one, so the rounds never run out (log 19). -/
def vlcDec (t : VlcTable) : M Nat := vlcDecLoop t (maxCodeLen t + 1) 0 0

/-! Coefficients -/

/-- The level clamp (43_entropy.md R172). -/
def clampLevel (v : Int) : Int := clamp (-127) 127 v

/-- `dc_map(v)` (43_entropy.md R173). -/
def dcMap (v : Int) : Int := if clamp 1 254 v = 128 then 255 else clamp 1 254 v

/-- Undoing the DC map (43_entropy.md R175). -/
def dcUnmap (d : Nat) : Int := if d = 255 then 128 else d

/-- `code = abs(lvl) | (run << 8)` (43_entropy.md R162). -/
def coefSymbol (run : Nat) (lvl : Int) : Nat := absNat lvl ||| (run <<< 8)

/-- The escape: its code word, 6 bits of run, 8 bits of level in two's complement (43_entropy.md R180). -/
def escapeBits (t : VlcTable) (run : Nat) (lvl : Int) : List Bool :=
  (vlcWord? t escapeSymbol).getD [] ++ bits 6 run ++ bits 8 (BitVec.ofInt 8 lvl).toNat

/-- The bits of one coefficient, `emit_coef(T, run, v)` (43_entropy.md R180, R181). -/
def coefBits (t : VlcTable) (run : Nat) (v : Int) : List Bool :=
  let lvl := clampLevel v
  let code := coefSymbol run lvl
  if code = escapeSymbol then escapeBits t run lvl
  else
    match vlcWord? t code with
    | none => escapeBits t run lvl
    | some w => w ++ [decide (lvl < 0)]

/-- The bits of the lane values `vs` in scan order, `run` zeros before them; `first` for the first coefficient of an
inter block (43_entropy.md R163, R164, R176). -/
def coefsBits (p : Params) (first : Bool) (run : Nat) : List Int → List Bool
  | [] => []
  | v :: vs =>
    if v = 0 then coefsBits p first (run + 1) vs
    else coefBits (if first then p.tblT2 else p.tblT1) run v ++ coefsBits p false 0 vs

/-- The end of a block (43_entropy.md R182). -/
def eobBits (p : Params) : List Bool := (vlcWord? p.tblT1 eobSymbol).getD []

/-- The lane values of a block in scan order (43_entropy.md R161). -/
def scanLanes (p : Params) (b : Block) : List Int := (List.range 64).map (fun k => (b[scan p k]?.getD 0).toInt)

/-- All bits of a block (43_entropy.md R176): an intra block's DC apart, then the coefficients, then the end. -/
def blockBits (p : Params) (i : Coding) (b : Block) : List Bool :=
  match i with
  | .intra => bits 8 (dcMap (b[0].toInt)).toNat ++ coefsBits p false 0 ((scanLanes p b).drop 1) ++ eobBits p
  | .inter => coefsBits p true 0 (scanLanes p b) ++ eobBits p

/-- The pseudocode of `ENCBLK b, I` (43_entropy.md R176). -/
def encblkBody (b : Fin 8) (i : Coding) : M Unit := do
  let t ← M.look (fun s => s.block b)
  M.raiseIf (i = .inter ∧ t = Vector.replicate 64 0) .unencodableSymbol
  let p ← M.look State.par
  putcode (blockBits p i t)

/-- `ENCBLK b, I` (43_entropy.md R176). -/
def execEncblk (b : Fin 8) (i : Coding) (s : State) : Host.Outcome State Fault Refusal :=
  gated .encblk (encblkBody b i) s

/-- One coefficient after its symbol: run and level, from the escape's fields or from the symbol and a sign bit
(43_entropy.md R174, R177). -/
def readCoef (sym : Nat) : M (Nat × Int) :=
  if sym = escapeSymbol then do
    let run ← getbits 6
    let lvl ← getbits 8
    pure (run, sext8 lvl)
  else do
    let sign ← getbits 1
    pure (sym / 2 ^ 8 % 2 ^ 6, if sign = 1 then -((sym % 2 ^ 8 : Nat) : Int) else ((sym % 2 ^ 8 : Nat) : Int))

/-- The loop of `DECBLK` at scan position `k` (43_entropy.md R177). Each round but the last places a coefficient or
raises, so `fuel`, more than the scan positions, never runs out (log 19). -/
def decLoop (p : Params) : Nat → Bool → Nat → Block → M Block
  | 0, _, _, _ => M.raise .corruptHuffmanCode
  | fuel + 1, first, k, b => do
    let sym ← vlcDec (if first then p.tblT2 else p.tblT1)
    if sym = eobSymbol then pure b
    else do
      let c ← readCoef sym
      M.raiseIf (k + c.1 > 63) .corruptHuffmanCode
      decLoop p fuel false (k + c.1 + 1) (b.setIfInBounds (scan p (k + c.1)) (wrap16 c.2))

/-- The pseudocode of `DECBLK b, I` (43_entropy.md R177): the register is written last. -/
def decblkBody (b : Fin 8) (i : Coding) : M Unit := do
  let blank : Block := Vector.replicate 64 0
  let p ← M.look State.par
  let t ← match i with
    | .intra => do
      let d ← getbits 8
      decLoop p 65 false 1 (blank.set 0 (wrap16 (dcUnmap d)))
    | .inter => decLoop p 65 true 0 blank
  writeBlock b t

/-- `DECBLK b, I` (43_entropy.md R177). -/
def execDecblk (b : Fin 8) (i : Coding) (s : State) : Host.Outcome State Fault Refusal :=
  gated .decblk (decblkBody b i) s

/-- The pseudocode of `VLCENC tbl, val` (43_entropy.md R178). -/
def vlcencBody (tbl : TableId) (val : Nat) : M Unit := do
  let t ← M.look (fun s => tableOf s.par tbl)
  vlcEnc t val

/-- `VLCENC tbl, val` (43_entropy.md R178). -/
def execVlcenc (tbl : TableId) (val : Nat) (s : State) : Host.Outcome State Fault Refusal :=
  gated .vlcenc (vlcencBody tbl val) s

/-- The pseudocode of `VLCDEC tbl` (43_entropy.md R179). -/
def vlcdecBody (tbl : TableId) : M Unit := do
  let t ← M.look (fun s => tableOf s.par tbl)
  let v ← vlcDec t
  writeRes 0 v

/-- `VLCDEC tbl` (43_entropy.md R179). -/
def execVlcdec (tbl : TableId) (s : State) : Host.Outcome State Fault Refusal := gated .vlcdec (vlcdecBody tbl) s

end Sys2Proof.Machine
end

