-- ==== Sys2Proof/Machine/Framing.lean ====
section
/-!
DEFINITION. The header framing commands PUTPIC, PUTGOB, PUTMB, GETSC, GETPIC, GETGOB, GETMB
(46_framing.md R240 to R250).
-/

namespace Sys2Proof.Machine

/-! Session state of the framing layer -/

/-- The predictor of a macroblock `mba` after the last one, at address `addr` (46_framing.md R244; the extra resets
are `MVD_RESET_H261`, 90_conflicts.md C4). -/
def mvPredictor (p : Params) (last : Mv5) (mba addr : Nat) : Mv5 :=
  if p.mvdResetH261 && (decide (mba ≠ 1) || addr == 1 || addr == 12 || addr == 23) then Mv5.zero else last

/-- The symbol of a component: `(c - pred) & 31` (46_framing.md R244). -/
def mvdKey (c : Int) (pred : BitVec 5) : Nat := low5 (c - pred.toInt)

/-- The component a symbol stands for: `sext_5((pred + key) & 31)` (46_framing.md R244). -/
def mvdValue (pred : BitVec 5) (key : Nat) : Int := sext5 (low5 (pred.toInt + key))

/-- A vector as `LASTMV` holds it (10_state.md R29). -/
def mv5Of (h v : Int) : Mv5 := ⟨BitVec.ofInt 5 h, BitVec.ofInt 5 v⟩

/-- `LASTMV` and `MBADDR` after a macroblock header (46_framing.md R244, R250). -/
def State.afterHeader (s : State) (mv : Mv5) (addr : Nat) : State :=
  { s with lastMv := mv, mbaddr := BitVec.ofNat 6 addr }

/-- `LASTMV <- (0,0); MBADDR <- 0` (46_framing.md R242, R247). -/
def startGob : M Unit := M.change (fun s => s.afterHeader Mv5.zero 0)

/-- `tail(E, EXT)` (46_framing.md R249). -/
def putTail (e : Bool) (ext : Byte) : M Unit := do
  if e then do
    putbits 1 1
    putbits 8 ext.toNat
  else pure ()
  putbits 1 0

/-- A field that is there exactly when the type carries it; `absent` where it is not (46_framing.md R240: "all
encode/decode logic consults it"). -/
def whenCarried {α : Type} (carried : Bool) (absent : α) (x : M α) : M α := if carried then x else pure absent

/-! Encode commands -/

/-- The pseudocode of `PUTPIC` (46_framing.md R241). -/
def putpicBody (tr : Nat) (ptype : BitVec 6) (e : Bool) (ext : Byte) : M Unit := do
  let code ← M.look (fun s => s.par.psc)
  putbits 20 code.toNat
  putbits 5 tr
  putbits 6 ptype.toNat
  putTail e ext

/-- `PUTPIC` (46_framing.md R241). -/
def execPutpic (tr : Nat) (ptype : BitVec 6) (e : Bool) (ext : Byte) (s : State) : Host.Outcome State Fault Refusal :=
  gated .putpic (putpicBody tr ptype e ext) s

/-- The pseudocode of `PUTGOB` (46_framing.md R242). -/
def putgobBody (gn gquant : Nat) (e : Bool) (ext : Byte) : M Unit := do
  M.raiseIf (gn < 1 ∨ gn > 12) .boundsError
  M.raiseIf (gquant = 0) .argumentError
  let code ← M.look (fun s => s.par.gbsc)
  putbits 16 code.toNat
  putbits 4 gn
  putbits 5 gquant
  putTail e ext
  startGob

/-- `PUTGOB` (46_framing.md R242). -/
def execPutgob (gn gquant : Nat) (e : Bool) (ext : Byte) (s : State) : Host.Outcome State Fault Refusal :=
  gated .putgob (putgobBody gn gquant e ext) s

/-- A nonzero field that the type does not carry (46_framing.md R243). -/
abbrev strayField (a : MtypeAttr) (mquant : Nat) (mvh mvv : Int) (cbp : Nat) : Prop :=
  (a.quant = false ∧ mquant ≠ 0) ∨ (a.mv = false ∧ (mvh ≠ 0 ∨ mvv ≠ 0)) ∨ (a.cbp = false ∧ cbp ≠ 0)

/-- The checks of `PUTMB`, all before the first bit (46_framing.md R243). -/
def putmbCheck (mba mtype mquant : Nat) (mvh mvv : Int) (cbp : Nat) : M Unit := do
  let a ← M.look (fun s => mtypeAttr s.par mtype)
  let addr ← M.look (fun s => s.mbaddr.toNat)
  M.raiseIf (mtype > 9) .headerFramingError
  M.raiseIf (mba < 1 ∨ mba > 33 ∨ addr + mba > 33) .boundsError
  M.raiseIf (strayField a mquant mvh mvv cbp) .headerFramingError
  M.raiseIf (a.quant = true ∧ mquant = 0) .argumentError
  M.raiseIf (a.cbp = true ∧ cbp = 0) .unencodableSymbol

/-- The fields of a macroblock header, `kh` and `kv` the symbols of its vector (46_framing.md R243). -/
def putHeader (p : Params) (kh kv mba mtype mquant cbp : Nat) : M Unit := do
  let a := mtypeAttr p mtype
  vlcEnc p.tblMba mba
  vlcEnc p.tblMtype mtype
  whenCarried a.quant () (putbits 5 mquant)
  whenCarried a.mv () (do
    vlcEnc p.tblMvd kh
    vlcEnc p.tblMvd kv)
  whenCarried a.cbp () (vlcEnc p.tblCbp cbp)

/-- The pseudocode of `PUTMB` (46_framing.md R243). -/
def putmbBody (mba mtype mquant : Nat) (mvh mvv : Int) (cbp : Nat) : M Unit := do
  putmbCheck mba mtype mquant mvh mvv cbp
  let p ← M.look State.par
  let addr ← M.look (fun s => s.mbaddr.toNat + mba)
  let pred ← M.look (fun s => mvPredictor p s.lastMv mba addr)
  putHeader p (mvdKey mvh pred.h) (mvdKey mvv pred.v) mba mtype mquant cbp
  M.change (fun s => s.afterHeader (if (mtypeAttr p mtype).mv then mv5Of mvh mvv else Mv5.zero) addr)

/-- `PUTMB` (46_framing.md R243). -/
def execPutmb (mba mtype mquant : Nat) (mvh mvv : Int) (cbp : Nat) (s : State) : Host.Outcome State Fault Refusal :=
  gated .putmb (putmbBody mba mtype mquant mvh mvv cbp) s

/-! Decode commands -/

/-- The pseudocode of `GETSC` (46_framing.md R245). -/
def getscBody : M Unit := do
  let seen ← M.look (fun s => s.scseen)
  if seen then pure ()
  else do
    let code ← M.look (fun s => s.par.gbsc)
    let c ← getbits 16
    M.raiseIf (c ≠ code.toNat) .headerFramingError
  M.change (fun s => { s with scseen := false })
  let g ← getbits 4
  M.raiseIf (g > 12) .boundsError
  writeRes 0 g

/-- `GETSC` (46_framing.md R245). -/
def execGetsc (s : State) : Host.Outcome State Fault Refusal := gated .getsc getscBody s

/-- The pseudocode of `GETPIC` (46_framing.md R246). -/
def getpicBody : M Unit := do
  let tr ← getbits 5
  let pt ← getbits 6
  let fuel ← M.look State.readFuel
  let n ← getTail fuel 0
  writeRes 0 tr
  writeRes 1 pt
  writeRes 2 n

/-- `GETPIC` (46_framing.md R246). -/
def execGetpic (s : State) : Host.Outcome State Fault Refusal := gated .getpic getpicBody s

/-- The pseudocode of `GETGOB` (46_framing.md R247). -/
def getgobBody : M Unit := do
  let gq ← getbits 5
  let fuel ← M.look State.readFuel
  let n ← getTail fuel 0
  startGob
  writeRes 0 gq
  writeRes 1 n

/-- `GETGOB` (46_framing.md R247). -/
def execGetgob (s : State) : Host.Outcome State Fault Refusal := gated .getgob getgobBody s

/-- `repeat: a <- vlc_dec(TBL_MBA) until a != MBA_STUFFING` (46_framing.md R248). Each round consumes bits, so
`fuel`, more than the source has bits, never runs out (log 19). -/
def skipStuffing (p : Params) : Nat → M Nat
  | 0 => M.raise .unexpectedEof
  | fuel + 1 => do
    let a ← vlcDec p.tblMba
    if a = mbaStuffing then skipStuffing p fuel else pure a

/-- A vector against the predictor `pred` (46_framing.md R244). -/
def readVector (p : Params) (pred : Mv5) : M Mv := do
  let kh ← vlcDec p.tblMvd
  let kv ← vlcDec p.tblMvd
  pure ⟨mvdValue pred.h kh, mvdValue pred.v kv⟩

/-- The fields of a macroblock header after its address: type, MQUANT, vector, CBP, each read exactly when the type
carries it (46_framing.md R248, R252). -/
def readHeader (p : Params) (pred : Mv5) : M (Nat × Nat × Mv × Nat) := do
  let t ← vlcDec p.tblMtype
  let a := mtypeAttr p t
  let mq ← whenCarried a.quant 0 (getbits 5)
  let mv ← whenCarried a.mv Mv.zero (readVector p pred)
  let cbp ← whenCarried a.cbp 0 (vlcDec p.tblCbp)
  pure (t, mq, mv, cbp)

/-- The results of `GETMB` when it meets a start code (46_framing.md R248). -/
def getmbStart : M Unit := do
  M.change (fun s => { s with scseen := true })
  writeRes 0 0
  writeRes 1 0
  writeRes 2 0
  writeRes 3 0

/-- The pseudocode of `GETMB` (46_framing.md R248). -/
def getmbBody : M Unit := do
  let p ← M.look State.par
  let fuel ← M.look State.readFuel
  let a ← skipStuffing p fuel
  if a = mbaStartcode then getmbStart
  else do
    let addr ← M.look (fun s => s.mbaddr.toNat + a)
    M.raiseIf (addr > 33) .boundsError
    let pred ← M.look (fun s => mvPredictor p s.lastMv a addr)
    let f ← readHeader p pred
    let mv := f.2.2.1
    M.change (fun s => s.afterHeader (if (mtypeAttr p f.1).mv then mv5Of mv.h mv.v else Mv5.zero) addr)
    writeRes 0 a
    writeRes 1 (f.1 ||| (f.2.1 <<< 8) ||| (f.2.2.2 <<< 16))
    writeResInt 2 mv.h
    writeResInt 3 mv.v

/-- `GETMB` (46_framing.md R248). -/
def execGetmb (s : State) : Host.Outcome State Fault Refusal := gated .getmb getmbBody s

end Sys2Proof.Machine
end

