-- ==== Sys2Proof/Machine/Motion.lean ====
section
/-!
DEFINITION. The motion estimator commands MEAE, MESEARCH, MEMTYPE, MECLR (45_motion.md R200 to R219).
-/

namespace Sys2Proof.Machine

/-! Matching cost -/

/-- `Plane(P, x, y)`, the byte at `y * PLANE_W + x` (20_memory.md R51). -/
def sampleAt (m : Memory) (w : Nat) (x y : Int) : Int := (Memory.read m (y * w + x).toNat).toNat

/-- One term of the AE at offset `(i, j)` (45_motion.md R201). -/
def aeTerm (s : State) (mbx mby : Nat) (d : Mv) (o : Nat × Nat) : Nat :=
  absNat (sampleAt s.cur s.planeW.toNat (16 * mbx + o.1) (16 * mby + o.2) -
    sampleAt s.ref s.planeW.toNat (16 * mbx + d.h + o.1) (16 * mby + d.v + o.2))

/-- `AE(mbx, mby, dx, dy)` (45_motion.md R201). -/
def ae (s : State) (mbx mby : Nat) (d : Mv) : Nat := (s.par.aePattern.map (aeTerm s mbx mby d)).sum

/-- A component is within the displacement bound and keeps the window inside a plane of `size` samples
(45_motion.md R202). -/
def validComp (size mb : Nat) (c : Int) : Bool :=
  decide (-searchRange ≤ c ∧ c ≤ searchRange ∧ 0 ≤ 16 * (mb : Int) + c ∧ 16 * (mb : Int) + c ≤ (size : Int) - 16)

/-- A valid candidate (45_motion.md R202). -/
def validMv (s : State) (mbx mby : Nat) (d : Mv) : Bool :=
  validComp s.planeW.toNat mbx d.h && validComp s.planeH.toNat mby d.v

/-- One component of `clampwin` (45_motion.md R202). -/
def clampComp (size mb : Nat) (c : Int) : Int :=
  clamp (max (-searchRange) (-16 * (mb : Int))) (min searchRange ((size : Int) - 16 - 16 * (mb : Int))) c

/-- `clampwin(mbx, mby, (h, v))` (45_motion.md R202). -/
def clampWin (s : State) (mbx mby : Nat) (d : Mv) : Mv :=
  ⟨clampComp s.planeW.toNat mbx d.h, clampComp s.planeH.toNat mby d.v⟩

/-! Searches -/

/-- A candidate and its complete AE. -/
structure Scored where
  ae : Nat
  mv : Mv
deriving DecidableEq, Repr

/-- Score a displacement. -/
def scored (s : State) (mbx mby : Nat) (d : Mv) : Scored := ⟨ae s mbx mby d, d⟩

/-- A valid candidate replaces the best only if its AE is strictly less (45_motion.md R203). -/
def improve (s : State) (mbx mby : Nat) (best : Scored) (d : Mv) : Scored :=
  if validMv s mbx mby d && decide (ae s mbx mby d < best.ae) then scored s mbx mby d else best

/-- -15 to 15, ascending. -/
def windowRange : List Int := (List.range 31).map (fun i => (i : Int) - 15)

/-- The candidates of the full search in its order, `dy` outer, `(0,0)` left out (45_motion.md R205). -/
def fullCandidates : List Mv :=
  (windowRange.flatMap (fun dy => windowRange.map (fun dx => (⟨dx, dy⟩ : Mv)))).filter (· ≠ Mv.zero)

/-- Full search (45_motion.md R205). -/
def fullSearch (s : State) (mbx mby : Nat) : Scored :=
  fullCandidates.foldl (improve s mbx mby) (scored s mbx mby Mv.zero)

/-- Checkerboard-decimated full search: `(dx + dy)` even (45_motion.md R208). -/
def checkerSearch (s : State) (mbx mby : Nat) : Scored :=
  (fullCandidates.filter (fun d => (d.h + d.v) % 2 = 0)).foldl (improve s mbx mby) (scored s mbx mby Mv.zero)

/-- The eight neighbours of `c` at distance `step`, `sy` outer (45_motion.md R206). -/
def neighbours (c : Mv) (step : Int) : List Mv :=
  [⟨c.h - step, c.v - step⟩, ⟨c.h, c.v - step⟩, ⟨c.h + step, c.v - step⟩,
   ⟨c.h - step, c.v⟩, ⟨c.h + step, c.v⟩,
   ⟨c.h - step, c.v + step⟩, ⟨c.h, c.v + step⟩, ⟨c.h + step, c.v + step⟩]

/-- `steps(centre)`: the centre moves only between step sizes (45_motion.md R206). -/
def stepSearch (s : State) (mbx mby : Nat) (centre : Mv) : Scored :=
  [8, 4, 2, 1].foldl (fun best step => (neighbours best.mv step).foldl (improve s mbx mby) best)
    (scored s mbx mby centre)

/-- The default of each variant (45_motion.md R205 to R208). -/
def defaultSearch (s : State) (alg : Fin 4) (mbx mby : Nat) (seed : Mv) : Scored :=
  match alg with
  | 0 => fullSearch s mbx mby
  | 1 => stepSearch s mbx mby Mv.zero
  | 2 => stepSearch s mbx mby (clampWin s mbx mby seed)
  | 3 => checkerSearch s mbx mby

/-- `SEARCH_IMPL[alg]`: the default, or any function within the contract of 45_motion.md R204: a valid displacement
and its AE, from the planes, the seed and the configuration (log 12). -/
def search (s : State) (alg : Fin 4) (mbx mby : Nat) (seed : Mv) : Scored :=
  match s.par.searchImpl[alg] with
  | .default => defaultSearch s alg mbx mby seed
  | .other k =>
    scored s mbx mby (clampWin s mbx mby
      (Config.searchVector k alg.val s.cur s.ref s.planeW.toNat s.planeH.toNat mbx mby seed))

/-! The macroblock type decision -/

/-- `REFRESH_SCORE`, a parameter of the model (45_motion.md R212; log 12). -/
def refreshScore (p : Params) (stale ae : Nat) : Int :=
  match p.refreshScore with
  | .default => (stale * ae : Nat)
  | .other k => Config.refreshScore k stale ae

/-- `ZERO_MV_CLOSE`, a parameter of the model, always true of equal scores (45_motion.md R213; log 12, log 13). -/
def zeroMvClose (p : Params) (ae0 best : Nat) : Bool :=
  match p.zeroMvClose with
  | .default => decide (8 * ((ae0 : Int) - best) ≤ best)
  | .other k => ae0 == best || Config.zeroMvClose k ae0 best

/-- What `obtain_mtype` returns (45_motion.md R214). -/
structure MtypeDecision where
  mtype : Nat
  mv : Mv
  ae : Nat
deriving DecidableEq, Repr

/-- Step 2: the predictor is adopted if it is valid and scores at least as well (45_motion.md R210). -/
def withPredictor (s : State) (mbx mby : Nat) (p : Mv) (zero : Scored) : Scored :=
  if validMv s mbx mby p && decide (ae s mbx mby p ≤ zero.ae) then scored s mbx mby p else zero

/-- Step 3: search if the best so far exceeds the skip threshold, adopt a strict improvement (45_motion.md R211). -/
def withSearch (s : State) (mbx mby : Nat) (p : Mv) (best : Scored) : Scored :=
  if (best.ae : Int) > s.par.aeTcoeffThreshold then
    let found := search s s.searchAlg mbx mby p
    if found.ae < best.ae then found else best
  else best

/-- Step 5 (45_motion.md R213). -/
def classify (p : Params) (ae0 : Nat) (best : Scored) : MtypeDecision :=
  if (best.ae : Int) < p.aeTcoeffThreshold then ⟨4, best.mv, best.ae⟩
  else if (best.ae : Int) < p.aeInterThreshold then
    if zeroMvClose p ae0 best.ae then ⟨2, Mv.zero, best.ae⟩ else ⟨5, best.mv, best.ae⟩
  else ⟨0, Mv.zero, best.ae⟩

/-- The best candidate after steps 2 and 3 (45_motion.md R210, R211). -/
def bestCandidate (s : State) (mbx mby : Nat) : Scored :=
  let p := s.prevMvAt (s.mbIndex mbx mby)
  withSearch s mbx mby p (withPredictor s mbx mby p (scored s mbx mby Mv.zero))

/-- `obtain_mtype` (45_motion.md R209 to R213). -/
def obtainMtype (s : State) (mbx mby : Nat) : MtypeDecision :=
  let ae0 := ae s mbx mby Mv.zero
  if (ae0 : Int) < s.par.aeTcoeffThreshold then ⟨10, Mv.zero, ae0⟩
  else
    let best := bestCandidate s mbx mby
    if refreshScore s.par (s.staleAt (s.mbIndex mbx mby)) best.ae > s.par.refreshThreshold then
      ⟨0, Mv.zero, best.ae⟩
    else classify s.par ae0 best

/-- The new staleness counter (45_motion.md R215). -/
def newStale (mtype stale : Nat) : Nat := if mtype = 0 then 0 else min (stale + 1) 65535

/-- The state update after the decision (45_motion.md R215). -/
def State.recordDecision (s : State) (mb : Nat) (d : MtypeDecision) : State :=
  { s with prevMv := s.prevMv.setIfInBounds mb d.mv,
           stale := s.stale.setIfInBounds mb (BitVec.ofNat 16 (newStale d.mtype (s.staleAt mb))) }

/-! Commands -/

/-- The checks that MEAE, MESEARCH and MEMTYPE share (45_motion.md R216 to R218). -/
def checkMacroblock (mbx mby : Nat) : M Unit := do
  let s ← M.look id
  M.raiseIf (s.planeW = 0 ∨ s.planeH = 0) .argumentError
  M.raiseIf (mbx ≥ s.mbCols ∨ mby ≥ s.mbRows) .boundsError

/-- The pseudocode of `MEAE mbx, mby, dx, dy` (45_motion.md R216). -/
def meaeBody (mbx mby : Nat) (dx dy : Int) : M Unit := do
  checkMacroblock mbx mby
  let s ← M.look id
  M.raiseIf (validMv s mbx mby ⟨dx, dy⟩ = false) .boundsError
  writeRes 0 (ae s mbx mby ⟨dx, dy⟩)

/-- `MEAE mbx, mby, dx, dy` (45_motion.md R216). -/
def execMeae (mbx mby : Nat) (dx dy : Int) (s : State) : Host.Outcome State Fault Refusal :=
  gated .meae (meaeBody mbx mby dx dy) s

/-- The pseudocode of `MESEARCH mbx, mby` (45_motion.md R217). -/
def mesearchBody (mbx mby : Nat) : M Unit := do
  checkMacroblock mbx mby
  let found ← M.look (fun s => search s s.searchAlg mbx mby (s.prevMvAt (s.mbIndex mbx mby)))
  writeRes 0 found.ae
  writeResInt 1 found.mv.h
  writeResInt 2 found.mv.v

/-- `MESEARCH mbx, mby` (45_motion.md R217). -/
def execMesearch (mbx mby : Nat) (s : State) : Host.Outcome State Fault Refusal :=
  gated .mesearch (mesearchBody mbx mby) s

/-- The pseudocode of `MEMTYPE mbx, mby` (45_motion.md R218). -/
def memtypeBody (mbx mby : Nat) : M Unit := do
  checkMacroblock mbx mby
  let d ← M.look (fun s => obtainMtype s mbx mby)
  M.change (fun s => s.recordDecision (s.mbIndex mbx mby) d)
  writeRes 0 d.mtype
  writeResInt 1 d.mv.h
  writeResInt 2 d.mv.v
  writeRes 3 d.ae

/-- `MEMTYPE mbx, mby` (45_motion.md R218). -/
def execMemtype (mbx mby : Nat) (s : State) : Host.Outcome State Fault Refusal :=
  gated .memtype (memtypeBody mbx mby) s

/-- Every `PREVMV` and `STALE` entry cleared (45_motion.md R219). -/
def State.clearMotion (s : State) : State :=
  { s with prevMv := Vector.replicate 396 Mv.zero, stale := Vector.replicate 396 0 }

/-- `MECLR` (45_motion.md R219). -/
def execMeclr (s : State) : Host.Outcome State Fault Refusal := gated .meclr (M.change State.clearMotion) s

end Sys2Proof.Machine
end

