-- ==== Sys2Proof/Machine/Quantizer.lean ====
section
/-!
DEFINITION. The quantizer commands QUANT and DEQUANT (42_quantizer.md R141 to R148).
-/

namespace Sys2Proof.Machine

/-- `q_pm1(v, q)`: away from zero by 1, then divided by the step `2*q` (42_quantizer.md R142, R145). -/
def quantOffset (v q : Int) : Int :=
  if v > 0 then tdiv (v + 1) (2 * q) else if v < 0 then tdiv (v - 1) (2 * q) else 0

/-- The default `INTRA_DC_QUANT` (42_quantizer.md R141). -/
def intraDcQuantDefault (v : Int) : Int := if v ≥ 0 then tdiv (v + 4) 8 else tdiv (v - 3) 8

/-- `INTRA_DC_QUANT`, a parameter of the model (42_quantizer.md R141; log 12). -/
def intraDcQuant (p : Params) (v : Int) : Int :=
  match p.intraDcQuant with
  | .default => intraDcQuantDefault v
  | .other k => Config.intraDcQuant k v

/-- The exact quantized value of lane `k` with value `v` (42_quantizer.md R141 to R143, R145). -/
def quantLane (p : Params) (i : Coding) (q : Nat) (k : Nat) (v : Int) : Int :=
  match i with
  | .intra => if k = 0 then intraDcQuant p v else quantOffset v q
  | .inter => if q % 2 = 1 then tdiv v (2 * q) else quantOffset v q

/-- The exact quantized values of a block. -/
def quantLanes (p : Params) (i : Coding) (q : Nat) (b : Block) : Vector Int 64 :=
  Vector.ofFn (fun k => quantLane p i q k.val (b[k]).toInt)

/-- `S`, the sum of the quantized magnitudes (42_quantizer.md R144, R145). -/
def quantSum (w : Vector Int 64) : Nat := (w.toList.map absNat).sum

/-- The pseudocode of `QUANT b, I, q` (42_quantizer.md R145). -/
def quantBody (b : Fin 8) (i : Coding) (q : Nat) : M Unit := do
  M.raiseIf (q = 0) .argumentError
  let t ← M.look (fun s => s.block b)
  let p ← M.look (fun s => s.par)
  let w := quantLanes p i q t
  writeBlock b (w.map wrap16)
  writeRes 0 (boolResult (transmitFlag p i (quantSum w)))

/-- `QUANT b, I, q` (42_quantizer.md R145). -/
def execQuant (b : Fin 8) (i : Coding) (q : Nat) (s : State) : Host.Outcome State Fault Refusal :=
  gated .quant (quantBody b i q) s

/-- `adj` of the reconstruction formula: 1 for even `q`, and with `DEQ_EVEN_ONLY` false for odd `q` too
(42_quantizer.md R146, 90_conflicts.md C2). -/
def deqAdjust (p : Params) (q : Nat) : Int := if p.deqEvenOnly && q % 2 == 1 then 0 else 1

/-- `deq(v, q)` (42_quantizer.md R146). -/
def deq (p : Params) (v : Int) (q : Nat) : Int :=
  if v > 0 then (2 * v + 1) * q - deqAdjust p q
  else if v < 0 then (2 * v - 1) * q + deqAdjust p q
  else 0

/-- `DEQ_CLIP`, by default no clip (42_quantizer.md R148; log 14). -/
def deqClip (p : Params) (w : Int) : Int :=
  match p.deqClip with
  | none => w
  | some r => clamp r.1 r.2 w

/-- The exact reconstructed value of lane `k` with level `v` (42_quantizer.md R146 to R148). -/
def deqLane (p : Params) (i : Coding) (q : Nat) (k : Nat) (v : Int) : Int :=
  deqClip p (if i = .intra ∧ k = 0 then 8 * v else deq p v q)

/-- The pseudocode of `DEQUANT b, I, q` (42_quantizer.md R148). -/
def dequantBody (b : Fin 8) (i : Coding) (q : Nat) : M Unit := do
  M.raiseIf (q = 0) .argumentError
  let t ← M.look (fun s => s.block b)
  let p ← M.look (fun s => s.par)
  writeBlock b (Vector.ofFn (fun k => wrap16 (deqLane p i q k.val (t[k]).toInt)))

/-- `DEQUANT b, I, q` (42_quantizer.md R148). -/
def execDequant (b : Fin 8) (i : Coding) (q : Nat) (s : State) : Host.Outcome State Fault Refusal :=
  gated .dequant (dequantBody b i q) s

end Sys2Proof.Machine
end

