-- ==== Sys2Proof/Machine/System.lean ====
section
/-!
DEFINITION. The system commands NOP, RESET, CSRR, CSRW, BLKWR, BLKRD (47_system.md R281 to R286).
-/

namespace Sys2Proof.Machine

/-- `NOP` (47_system.md R281). -/
def execNop (s : State) : Host.Outcome State Fault Refusal := gated .nop (pure ()) s

/-- `RESET` (47_system.md R282). -/
def execReset (s : State) : Host.Outcome State Fault Refusal := ungated .reset (M.change State.resetEngine) s

/-- The pseudocode of `CSRR csr` (47_system.md R283). -/
def csrrBody (csr : Nat) : M Unit := do
  match ← M.look (fun s => s.csr? csr) with
  | none => M.raise .argumentError
  | some v => writeRes 0 v

/-- `CSRR csr` (47_system.md R283). -/
def execCsrr (csr : Nat) (s : State) : Host.Outcome State Fault Refusal := ungated .csrr (csrrBody csr) s

/-- The pseudocode of `CSRW csr, imm16` (47_system.md R284). -/
def csrwBody (csr : Nat) (imm16 : BitVec 16) : M Unit :=
  match csr with
  | 1 => do
    M.raiseIf (imm16.toNat ≥ 4) .argumentError
    M.change (fun s => { s with cfg := imm16 })
  | 2 => do
    M.raiseIf (planeSizeOk maxW imm16 = false) .argumentError
    M.change (fun s => { s with planeW := imm16 })
  | 3 => do
    M.raiseIf (planeSizeOk maxH imm16 = false) .argumentError
    M.change (fun s => { s with planeH := imm16 })
  | _ => M.raise .argumentError

/-- `CSRW csr, imm16` (47_system.md R284). -/
def execCsrw (csr : Nat) (imm16 : BitVec 16) (s : State) : Host.Outcome State Fault Refusal :=
  gated .csrw (csrwBody csr imm16) s

/-- `BLKWR b, lanes` (47_system.md R285); the packing of the lanes is the decoder's. -/
def execBlkwr (b : Fin 8) (lanes : Block) (s : State) : Host.Outcome State Fault Refusal :=
  gated .blkwr (writeBlock b lanes) s

/-- `BLKRD b` (47_system.md R286): nothing written in the engine, 32 data words to the host, kept in `resp` (log 16).
DESIGN CHOICE (log 16): what data words a `BLKRD` gated by `FAULT = 1` answers is left open (R280 speaks of state only,
30_encoding.md R78 of a `BLKRD` that completes); here it answers none, and `resp` keeps those of the last `BLKRD` that
executed. -/
def execBlkrd (b : Fin 8) (s : State) : Host.Outcome State Fault Refusal :=
  gated .blkrd (M.change (fun s => { s with resp := wordsOfBlock (s.block b) })) s

end Sys2Proof.Machine
end

