-- ==== Sys2Proof/Machine/Transform.lean ====
section
/-!
DEFINITION. The transform commands FDCT and IDCT (41_transform.md R120 to R127): Chen's networks in fixed point,
the two passes, the final rounding. The networks are "from general knowledge" in the spec (log 18).
-/

namespace Sys2Proof.Machine

/-- `M(x) = asr(x, 9)` (41_transform.md R120). -/
def rescale (x : Int) : Int := asr x 9

/-- `pre` of the forward network: `x << 2`, then `asr(x, 1)` (41_transform.md R122). -/
def fwdPre : Pass → Int → Int
  | .first, x => x * 4
  | .second, x => asr x 1

/-- `pre` of the inverse network: `x << 2`, then `x` (41_transform.md R123). -/
def invPre : Pass → Int → Int
  | .first, x => x * 4
  | .second, x => x

/-- The forward 1-D network `fwd1d(u, pass)` (41_transform.md R122). -/
def fwd1d (k : Cos) (pass : Pass) (u : Vector Int 8) : Vector Int 8 :=
  let pre := fwdPre pass
  let a0 := pre (u[0] + u[7])
  let a1 := pre (u[1] + u[6])
  let a2 := pre (u[2] + u[5])
  let a3 := pre (u[3] + u[4])
  let c0 := pre (u[3] - u[4])
  let c1 := pre (u[2] - u[5])
  let c2 := pre (u[1] - u[6])
  let c3 := pre (u[0] - u[7])
  let b0 := a0 + a3
  let b1 := a1 + a2
  let b2 := a1 - a2
  let b3 := a0 - a3
  let e0 := rescale (k.c1d4 * (c2 - c1))
  let e1 := rescale (k.c1d4 * (c2 + c1))
  let f0 := c0 + e0
  let f1 := c0 - e0
  let f2 := c3 - e1
  let f3 := c3 + e1
  #v[rescale (k.c1d4 * (b0 + b1)),
     rescale (k.c7d16 * f0 + k.c1d16 * f3),
     rescale (k.c3d8 * b2 + k.c1d8 * b3),
     rescale (k.c3d16 * f2 - k.c5d16 * f1),
     rescale (k.c1d4 * (b0 - b1)),
     rescale (k.c3d16 * f1 + k.c5d16 * f2),
     rescale (k.c3d8 * b3 - k.c1d8 * b2),
     rescale (k.c7d16 * f3 - k.c1d16 * f0)]

/-- The inverse 1-D network `inv1d(u, pass)` (41_transform.md R123). -/
def inv1d (k : Cos) (pass : Pass) (u : Vector Int 8) : Vector Int 8 :=
  let pre := invPre pass
  let b0 := pre u[0]
  let a0 := pre u[1]
  let b2 := pre u[2]
  let a1 := pre u[3]
  let b1 := pre u[4]
  let a2 := pre u[5]
  let b3 := pre u[6]
  let a3 := pre u[7]
  let c0 := rescale (k.c7d16 * a0 - k.c1d16 * a3)
  let c1 := rescale (k.c3d16 * a2 - k.c5d16 * a1)
  let c2 := rescale (k.c3d16 * a1 + k.c5d16 * a2)
  let c3 := rescale (k.c1d16 * a0 + k.c7d16 * a3)
  let d0 := rescale (k.c1d4 * (b0 + b1))
  let d1 := rescale (k.c1d4 * (b0 - b1))
  let d2 := rescale (k.c3d8 * b2 - k.c1d8 * b3)
  let d3 := rescale (k.c1d8 * b2 + k.c3d8 * b3)
  let g0 := d0 + d3
  let g1 := d1 + d2
  let g2 := d1 - d2
  let g3 := d0 - d3
  let h0 := c0 + c1
  let h1 := c0 - c1
  let h2 := c3 - c2
  let h3 := c3 + c2
  let k0 := h0
  let k1 := rescale (k.c1d4 * (h2 - h1))
  let k2 := rescale (k.c1d4 * (h2 + h1))
  let k3 := h3
  #v[g0 + k3, g1 + k2, g2 + k1, g3 + k0, g3 - k0, g2 - k1, g1 - k2, g0 - k3]

/-- A 1-D network with its pre-scalings, `CHEN_NETWORK` as one record (41_transform.md R130). -/
structure ChenNetwork where
  fwd : Pass → Vector Int 8 → Vector Int 8
  inv : Pass → Vector Int 8 → Vector Int 8

/-- The network of this engine (41_transform.md R130): the default of R122 and R123 with the constants `COS`, or
another (log 12). -/
def chenNetwork (p : Params) : ChenNetwork :=
  match p.chenNetwork with
  | .default => ⟨fwd1d p.cos, inv1d p.cos⟩
  | .other n => ⟨Config.chenForward n, Config.chenInverse n⟩

/-- The eight lanes of row `r` as integers. -/
def rowOf (t : Block) (r : Fin 8) : Vector Int 8 := Vector.ofFn (fun c => (t[8 * r.val + c.val]'(by omega)).toInt)

/-- The eight lanes of column `c` as integers. -/
def colOf (t : Block) (c : Fin 8) : Vector Int 8 := Vector.ofFn (fun r => (t[8 * r.val + c.val]'(by omega)).toInt)

/-- A row pass: row `r` becomes `f` of it, each lane stored with `wrap16` (41_transform.md R124). -/
def rowPass (f : Vector Int 8 → Vector Int 8) (t : Block) : Block :=
  let rows : Vector (Vector Int 8) 8 := Vector.ofFn (fun r => f (rowOf t r))
  Vector.ofFn (fun k => wrap16 ((rows[k.val / 8]'(by omega))[k.val % 8]'(by omega)))

/-- A column pass, likewise (41_transform.md R124). -/
def colPass (f : Vector Int 8 → Vector Int 8) (t : Block) : Block :=
  let cols : Vector (Vector Int 8) 8 := Vector.ofFn (fun c => f (colOf t c))
  Vector.ofFn (fun k => wrap16 ((cols[k.val % 8]'(by omega))[k.val / 8]'(by omega)))

/-- The final rounding: every lane `x` becomes `wrap16(rhaz(x, d))` (41_transform.md R125). -/
def roundLanes (d : Int) (t : Block) : Block := t.map (fun x => wrap16 (rhaz x.toInt d))

/-- `forward_dct` (41_transform.md R126): row pass, then column pass, then division by 8. -/
def forwardDct (net : ChenNetwork) (b : Block) : Block :=
  roundLanes 8 (colPass (net.fwd .second) (rowPass (net.fwd .first) b))

/-- `inverse_dct` (41_transform.md R127): column pass, then row pass, then division by 16. -/
def inverseDct (net : ChenNetwork) (b : Block) : Block :=
  roundLanes 16 (rowPass (net.inv .second) (colPass (net.inv .first) b))

/-- The pseudocode of `FDCT bd, bs`: the source is read whole before the destination is written
(41_transform.md R126). -/
def fdctBody (bd bs : Fin 8) : M Unit := do
  let t ← M.look (fun s => s.block bs)
  let net ← M.look (fun s => chenNetwork s.par)
  writeBlock bd (forwardDct net t)

/-- `FDCT bd, bs` (41_transform.md R126). -/
def execFdct (bd bs : Fin 8) (s : State) : Host.Outcome State Fault Refusal := gated .fdct (fdctBody bd bs) s

/-- The pseudocode of `IDCT bd, bs` (41_transform.md R127). -/
def idctBody (bd bs : Fin 8) : M Unit := do
  let t ← M.look (fun s => s.block bs)
  let net ← M.look (fun s => chenNetwork s.par)
  writeBlock bd (inverseDct net t)

/-- `IDCT bd, bs` (41_transform.md R127). -/
def execIdct (bd bs : Fin 8) (s : State) : Host.Outcome State Fault Refusal := gated .idct (idctBody bd bs) s

end Sys2Proof.Machine
end

