-- ==== Sys2Proof/Machine/Dispatch.lean ====
section
/-!
DEFINITION. One arm per command, each one call of its meaning.
-/

namespace Sys2Proof.Machine

def exec (i : Instr) (s : State) : Host.Outcome State Fault Refusal :=
  match i with
  -- 47_system.md
  | .nop => Sys2Proof.Machine.execNop s
  | .reset => Sys2Proof.Machine.execReset s
  | .csrr csr => Sys2Proof.Machine.execCsrr csr s
  | .csrw csr imm16 => Sys2Proof.Machine.execCsrw csr imm16 s
  | .blkwr b lanes => Sys2Proof.Machine.execBlkwr b lanes s
  | .blkrd b => Sys2Proof.Machine.execBlkrd b s
  -- 40_bitchannel.md
  | .wrbits n value => Sys2Proof.Machine.execWrbits n value s
  | .rdbits n => Sys2Proof.Machine.execRdbits n s
  | .bitpos side => Sys2Proof.Machine.execBitpos side s
  | .atend => Sys2Proof.Machine.execAtend s
  | .flush => Sys2Proof.Machine.execFlush s
  -- 41_transform.md
  | .fdct bd bs => Sys2Proof.Machine.execFdct bd bs s
  | .idct bd bs => Sys2Proof.Machine.execIdct bd bs s
  -- 42_quantizer.md
  | .quant b c q => Sys2Proof.Machine.execQuant b c q s
  | .dequant b c q => Sys2Proof.Machine.execDequant b c q s
  -- 43_entropy.md
  | .encblk b c => Sys2Proof.Machine.execEncblk b c s
  | .decblk b c => Sys2Proof.Machine.execDecblk b c s
  | .vlcenc tbl val => Sys2Proof.Machine.execVlcenc tbl val s
  | .vlcdec tbl => Sys2Proof.Machine.execVlcdec tbl s
  -- 45_motion.md
  | .meae mbx mby dx dy => Sys2Proof.Machine.execMeae mbx mby dx dy s
  | .mesearch mbx mby => Sys2Proof.Machine.execMesearch mbx mby s
  | .memtype mbx mby => Sys2Proof.Machine.execMemtype mbx mby s
  | .meclr => Sys2Proof.Machine.execMeclr s
  -- 46_framing.md
  | .putpic tr ptype e ext => Sys2Proof.Machine.execPutpic tr ptype e ext s
  | .putgob gn gquant e ext => Sys2Proof.Machine.execPutgob gn gquant e ext s
  | .putmb mba mtype mquant mvh mvv cbp => Sys2Proof.Machine.execPutmb mba mtype mquant mvh mvv cbp s
  | .getsc => Sys2Proof.Machine.execGetsc s
  | .getpic => Sys2Proof.Machine.execGetpic s
  | .getgob => Sys2Proof.Machine.execGetgob s
  | .getmb => Sys2Proof.Machine.execGetmb s

end Sys2Proof.Machine
end

