-- ==== Sys2Proof/Machine/Step.lean ====
section
/-!
DEFINITION. One step: the engine takes the next command of the host's list and runs it (00_scope.md R5,
40_bitchannel.md R109).
-/

namespace Sys2Proof.Machine

/-- The engine has taken a command: these words are left. -/
def State.withQueue (s : State) (rest : List Word) : State := { s with queue := rest }

/-- The index in the pc's role: a command that leaves the engine without a fault advances it by one, a fault stops
it (10_state.md R22, 60_exceptions.md R320(e); log 3). -/
def State.advance (s : State) : State := if s.status.fault then s else { s with pc := s.pc + 1 }

/-- The commands that execute in the faulted state (47_system.md R280). -/
def runsFaulted : Instr → Bool
  | .reset | .csrr _ => true
  | .nop | .csrw _ _ | .blkwr _ _ | .blkrd _ | .wrbits _ _ | .rdbits _ | .bitpos _ | .atend | .flush => false
  | .fdct _ _ | .idct _ _ | .quant _ _ _ | .dequant _ _ _ | .encblk _ _ | .decblk _ _ => false
  | .vlcenc _ _ | .vlcdec _ | .meae _ _ _ _ | .mesearch _ _ | .memtype _ _ | .meclr => false
  | .putpic _ _ _ _ | .putgob _ _ _ _ | .putmb _ _ _ _ _ _ | .getsc | .getpic | .getgob | .getmb => false

/-- One step. A legal command runs (its gating by `FAULT` is the meaning's own); an illegal one raises
`IllegalCommand` and changes nothing else (30_encoding.md R76); with no whole command issued the engine is idle
(60_exceptions.md R332; log 1). -/
def step (s : State) : Host.Outcome State Fault Refusal :=
  match decode s.queue with
  | .incomplete => .next s
  | .illegal _ opc rest => .next ((s.withQueue rest).raiseFault .illegalCommand opc)
  | .instr i rest =>
    match exec i (s.withQueue rest) with
    | .next s' => .next s'.advance
    | .fault r => .fault r
    | .refused r => .refused r

/-- The host issues the one command whose bits are `w`, numbered as spec/opcode_table.json numbers them, ahead of
what it has issued (log 2). -/
def State.withFetchWord (s : State) (nbits w : Nat) : State := s.withQueue (commandWords nbits w ++ s.queue)

end Sys2Proof.Machine
end

