-- ==== Sys2Proof/Safety.lean ====
section
/-!
DEFINITION. The terms that claims use: the invariants of a good state, the bits a stream holds, what it means that
bits were appended, and the header of a macroblock as a bit string.
-/

namespace Sys2Proof.Machine

/-! Invariants -/

/-- 10_state.md R31: at most 7 bits pending, and `WPOS` counts the bits of `SINK` and `WPEND`. -/
abbrev State.WriteInv (s : State) : Prop :=
  s.wpend.length < 8 ∧ s.wpos = BitVec.ofNat 64 (8 * s.sink.length + s.wpend.length)

/-- 10_state.md R32: `RPOS` is inside the source; the source is short enough for a `u64` position (log 15). -/
abbrev State.ReadInv (s : State) : Prop := 8 * s.src.length < 2 ^ 64 ∧ s.rpos.toNat ≤ 8 * s.src.length

/-- 10_state.md R26: `CAUSE` and `FOP` are 0 while `FAULT = 0`; a fault has a cause that can be raised
(60_exceptions.md R329, R330). -/
abbrev State.StatusInv (s : State) : Prop :=
  (s.status.fault = false → s.status = Status.clear) ∧
  (s.status.fault = true → s.status.cause ≠ .none) ∧
  s.status.cause ≠ .memoryError ∧ s.status.cause ≠ .huffmanTableError

/-- 10_state.md R27, R28: `CFG`, `PLANE_W` and `PLANE_H` hold legal values. -/
abbrev State.ConfigInv (s : State) : Prop :=
  s.cfg.toNat < 4 ∧ planeSizeOk maxW s.planeW = true ∧ planeSizeOk maxH s.planeH = true

/-- 10_state.md R30: `MBADDR` is 0 to 33. -/
abbrev State.FramingInv (s : State) : Prop := s.mbaddr.toNat ≤ 33

/-- 10_state.md R34: every stored vector is in -15..15. -/
abbrev State.MotionInv (s : State) : Prop :=
  ∀ m ∈ s.prevMv.toList, -15 ≤ m.h ∧ m.h ≤ 15 ∧ -15 ≤ m.v ∧ m.v ≤ 15

/-- The planes are in canonical form (log 7). -/
abbrev State.MemoryInv (s : State) : Prop := Memory.wf s.cur = true ∧ Memory.wf s.ref = true

/-- A good state: every invariant together, and parameters the spec allows (45_motion.md R201). -/
structure State.Inv (s : State) : Prop where
  write : s.WriteInv
  read : s.ReadInv
  status : s.StatusInv
  config : s.ConfigInv
  framing : s.FramingInv
  motion : s.MotionInv
  memory : s.MemoryInv
  params : s.par.wf = true

/-! Streams -/

/-- Every bit written and not discarded: those of `SINK`, eight a byte, then `WPEND` (40_bitchannel.md R107). -/
def State.written (s : State) : List Bool := s.sink.flatMap (fun b => bits 8 b.toNat) ++ s.wpend

/-- The named premise "the sink never fails" (20_memory.md R65; log 9). -/
abbrev State.SinkAccepts (s : State) : Prop := true ∉ s.sinkScript

/-- The source holds the bits `bs` from the read position on, and its length fits a `u64` position (log 15). -/
abbrev State.SourceHolds (s : State) (bs : List Bool) : Prop :=
  8 * s.src.length < 2 ^ 64 ∧ s.rpos.toNat + bs.length ≤ 8 * s.src.length ∧
  (List.range bs.length).map (fun i => srcBit s.src (s.rpos.toNat + i)) = bs

/-- The source holds exactly the bits `bs` from the read position to its end. -/
abbrev State.SourceEnds (s : State) (bs : List Bool) : Prop :=
  s.SourceHolds bs ∧ s.rpos.toNat + bs.length = 8 * s.src.length

/-- The source ends inside the bits `bs`: what it holds from the read position to its end is a proper prefix of
them. -/
abbrev State.SourceEndsInside (s : State) (bs : List Bool) : Prop :=
  ∃ pre, pre <+: bs ∧ pre.length < bs.length ∧ s.SourceEnds pre

/-- `t` is `s` with the bits `bs` appended to the write channel and nothing else changed: whole bytes are in
`SINK`, which only grew at its end, and the rest in `WPEND` (40_bitchannel.md R105, R107). -/
structure Appended (s : State) (bs : List Bool) (t : State) : Prop where
  written : t.written = s.written ++ bs
  pending : t.wpend.length < 8
  position : t.wpos = s.wpos + BitVec.ofNat 64 bs.length
  grows : s.sink <+: t.sink
  script : t.sinkScript = s.sinkScript.drop (t.sink.length - s.sink.length)
  frame : t = { s with sink := t.sink, wpend := t.wpend, wpos := t.wpos, sinkScript := t.sinkScript }

/-- A command of opcode `op` that writes the bits `bs` and then makes the change `done`. On a sink that does not fail
it does exactly that. On any sink it does that, or the sink refuses a byte: then the bits before the one that
completes that byte are placed and the command ends in `SinkIoError` (20_memory.md R65, 60_exceptions.md R326(c);
log 10). -/
def WritesBits (s : State) (op : Opcode) (bs : List Bool) (done : State → State)
    (r : Host.Outcome State Fault Refusal) : Prop :=
  (s.SinkAccepts → ∃ t, Appended s bs t ∧ r = .next (done t)) ∧
  ((∃ t, Appended s bs t ∧ r = .next (done t)) ∨
    ∃ k t, k < bs.length ∧ Appended s (bs.take k) t ∧ t.wpend.length = 7 ∧ t.sinkScript.head? = some true ∧
      r = .next { t with sinkScript := t.sinkScript.tail, status := ⟨true, .sinkIoError, op.code⟩ })

/-- `s` with the read position `n` bits further. -/
def State.consumed (s : State) (n : Nat) : State := { s with rpos := s.rpos + BitVec.ofNat 64 n }

/-- `s` with the fault `c` of the opcode `op` in `STATUS` and nothing else changed (60_exceptions.md R320). -/
def State.faulted (s : State) (c : Cause) (op : Opcode) : State := { s with status := ⟨true, c, op.code⟩ }

/-- `s` with the four result registers at these values. -/
def State.withRes (s : State) (r0 r1 r2 r3 : Word) : State := { s with res := #v[r0, r1, r2, r3] }

/-! What the rules say a command may touch -/

/-- The result registers that a command's rule names (10_state.md R21). -/
def resultsOf : Instr → List (Fin 4)
  | .csrr _ | .rdbits _ | .atend | .quant _ _ _ | .vlcdec _ | .meae _ _ _ _ | .getsc => [0]
  | .bitpos _ | .getgob => [0, 1]
  | .mesearch _ _ | .getpic => [0, 1, 2]
  | .memtype _ _ | .getmb | .reset => [0, 1, 2, 3]
  | .nop | .csrw _ _ | .blkwr _ _ | .blkrd _ | .wrbits _ _ | .flush | .fdct _ _ | .idct _ _ => []
  | .dequant _ _ _ | .encblk _ _ | .decblk _ _ | .vlcenc _ _ | .meclr => []
  | .putpic _ _ _ _ | .putgob _ _ _ _ | .putmb _ _ _ _ _ _ => []

/-- The block register that a command writes; RESET makes all of them unspecified (10_state.md R24, R38). -/
def blockOf : Instr → Option (Fin 8)
  | .blkwr b _ | .quant b _ _ | .dequant b _ _ | .decblk b _ => some b
  | .fdct bd _ | .idct bd _ => some bd
  | .nop | .reset | .csrr _ | .csrw _ _ | .blkrd _ | .wrbits _ _ | .rdbits _ | .bitpos _ | .atend | .flush => none
  | .encblk _ _ | .vlcenc _ _ | .vlcdec _ | .meae _ _ _ _ | .mesearch _ _ | .memtype _ _ | .meclr => none
  | .putpic _ _ _ _ | .putgob _ _ _ _ | .putmb _ _ _ _ _ _ | .getsc | .getpic | .getgob | .getmb => none

/-- The commands that write bits (20_memory.md R50(d)). -/
def writesStream : Instr → Bool
  | .wrbits _ _ | .flush | .encblk _ _ | .vlcenc _ _ | .putpic _ _ _ _ | .putgob _ _ _ _ | .putmb _ _ _ _ _ _ => true
  | .nop | .reset | .csrr _ | .csrw _ _ | .blkwr _ _ | .blkrd _ | .rdbits _ | .bitpos _ | .atend => false
  | .fdct _ _ | .idct _ _ | .quant _ _ _ | .dequant _ _ _ | .decblk _ _ | .vlcdec _ => false
  | .meae _ _ _ _ | .mesearch _ _ | .memtype _ _ | .meclr | .getsc | .getpic | .getgob | .getmb => false

/-- The commands that read bits of `SRC` (20_memory.md R50(c)). -/
def readsStream : Instr → Bool
  | .rdbits _ | .decblk _ _ | .vlcdec _ | .getsc | .getpic | .getgob | .getmb => true
  | .nop | .reset | .csrr _ | .csrw _ _ | .blkwr _ _ | .blkrd _ | .wrbits _ _ | .bitpos _ | .atend | .flush => false
  | .fdct _ _ | .idct _ _ | .quant _ _ _ | .dequant _ _ _ | .encblk _ _ | .vlcenc _ _ => false
  | .meae _ _ _ _ | .mesearch _ _ | .memtype _ _ | .meclr | .putpic _ _ _ _ | .putgob _ _ _ _ => false
  | .putmb _ _ _ _ _ _ => false

/-- The causes a command can raise, `IllegalCommand` of the decoder apart (60_exceptions.md R322). -/
def causesOf : Instr → List Cause
  | .nop | .reset | .blkwr _ _ | .blkrd _ | .bitpos _ | .atend | .meclr | .fdct _ _ | .idct _ _ => []
  | .csrr _ | .csrw _ _ | .quant _ _ _ | .dequant _ _ _ => [.argumentError]
  | .wrbits _ _ => [.argumentError, .sinkIoError]
  | .rdbits _ => [.argumentError, .unexpectedEof]
  | .flush | .putpic _ _ _ _ => [.sinkIoError]
  | .encblk _ _ | .vlcenc _ _ => [.unencodableSymbol, .sinkIoError]
  | .decblk _ _ | .vlcdec _ => [.unexpectedEof, .corruptHuffmanCode]
  | .meae _ _ _ _ | .mesearch _ _ | .memtype _ _ => [.argumentError, .boundsError]
  | .putgob _ _ _ _ => [.boundsError, .argumentError, .sinkIoError]
  | .putmb _ _ _ _ _ _ => [.headerFramingError, .boundsError, .argumentError, .unencodableSymbol, .sinkIoError]
  | .getsc => [.headerFramingError, .boundsError, .unexpectedEof]
  | .getpic | .getgob => [.unexpectedEof]
  | .getmb => [.unexpectedEof, .corruptHuffmanCode, .boundsError]

/-- The commands whose checks all precede their first state change, `SinkIoError` apart (60_exceptions.md R326(a)). -/
def checksFirst : Instr → Bool
  | .csrr _ | .csrw _ _ | .wrbits _ _ | .rdbits _ | .quant _ _ _ | .dequant _ _ _ | .meae _ _ _ _ => true
  | .mesearch _ _ | .memtype _ _ | .putgob _ _ _ _ | .putmb _ _ _ _ _ _ | .encblk _ _ | .vlcenc _ _ => true
  | .nop | .reset | .blkwr _ _ | .blkrd _ | .bitpos _ | .atend | .flush | .fdct _ _ | .idct _ _ => false
  | .decblk _ _ | .vlcdec _ | .meclr | .putpic _ _ _ _ | .getsc | .getpic | .getgob | .getmb => false

/-- The read-side commands that can fault in mid-structure (60_exceptions.md R326(b)). -/
def readsStructure : Instr → Bool
  | .decblk _ _ | .vlcdec _ | .getsc | .getpic | .getgob | .getmb => true
  | .nop | .reset | .csrr _ | .csrw _ _ | .blkwr _ _ | .blkrd _ | .wrbits _ _ | .rdbits _ | .bitpos _ => false
  | .atend | .flush | .fdct _ _ | .idct _ _ | .quant _ _ _ | .dequant _ _ _ | .encblk _ _ | .vlcenc _ _ => false
  | .meae _ _ _ _ | .mesearch _ _ | .memtype _ _ | .meclr | .putpic _ _ _ _ | .putgob _ _ _ _ => false
  | .putmb _ _ _ _ _ _ => false

/-- The engine state at its reset values, the block lanes apart, which are unspecified (10_state.md R37). -/
structure State.ResetValues (s : State) : Prop where
  status : s.status = ⟨false, .none, 0⟩
  cfg : s.cfg = 0
  planeW : s.planeW = 0
  planeH : s.planeH = 0
  lastMv : s.lastMv = ⟨0, 0⟩
  mbaddr : s.mbaddr = 0
  scseen : s.scseen = false
  sink : s.sink = []
  wpend : s.wpend = []
  wpos : s.wpos = 0
  rpos : s.rpos = 0
  prevMv : ∀ k : Fin 396, s.prevMv[k] = ⟨0, 0⟩
  stale : ∀ k : Fin 396, s.stale[k] = 0
  res : ∀ j : Fin 4, s.res[j] = 0

/-- The word of a control register (10_state.md R26 to R30, R33). -/
def State.csrLayout (s : State) : Nat → Nat
  | 0 => s.status.fault.toNat + 16 * s.status.cause.code + 256 * s.status.fop.toNat
  | 1 => s.cfg.toNat
  | 2 => s.planeW.toNat
  | 3 => s.planeH.toNat
  | 4 => s.lastMv.h.toNat + 256 * s.lastMv.v.toNat
  | 5 => s.mbaddr.toNat
  | _ => s.scseen.toNat

/-! The opcode table -/

/-- A row of spec/opcode_table.json: `match`, `mask`, and the mask of the extension word bits that must be zero. -/
structure TableRow where
  op : Opcode
  pattern : Word
  mask : Word
  extZero : Word
deriving DecidableEq, Repr

/-- The rows of spec/opcode_table.json, in its order. -/
def opcodeTable : List TableRow :=
  [⟨.nop, 0x00000000, 0xFFFFFFFF, 0⟩, ⟨.reset, 0x01000000, 0xFFFFFFFF, 0⟩, ⟨.csrr, 0x02000000, 0xFF00FFFF, 0⟩,
   ⟨.csrw, 0x03000000, 0xFF000000, 0⟩, ⟨.blkwr, 0x08000000, 0xFF1FFFFF, 0⟩, ⟨.blkrd, 0x09000000, 0xFF1FFFFF, 0⟩,
   ⟨.wrbits, 0x10000000, 0xFFFFFFC0, 0⟩, ⟨.rdbits, 0x11000000, 0xFFFFFFC0, 0⟩, ⟨.bitpos, 0x12000000, 0xFFFFFFFE, 0⟩,
   ⟨.atend, 0x13000000, 0xFFFFFFFF, 0⟩, ⟨.flush, 0x14000000, 0xFFFFFFFF, 0⟩, ⟨.fdct, 0x20000000, 0xFF03FFFF, 0⟩,
   ⟨.idct, 0x21000000, 0xFF03FFFF, 0⟩, ⟨.quant, 0x28000000, 0xFF1DFFE0, 0⟩, ⟨.dequant, 0x29000000, 0xFF1DFFE0, 0⟩] ++
  [⟨.encblk, 0x30000000, 0xFF1DFFFF, 0⟩, ⟨.decblk, 0x31000000, 0xFF1DFFFF, 0⟩, ⟨.vlcenc, 0x32000000, 0xFF1F0000, 0⟩,
   ⟨.vlcdec, 0x33000000, 0xFF1FFFFF, 0⟩, ⟨.meae, 0x40000000, 0xFFF00000, 0⟩, ⟨.mesearch, 0x41000000, 0xFFFFFC00, 0⟩,
   ⟨.memtype, 0x42000000, 0xFFFFFC00, 0⟩, ⟨.meclr, 0x43000000, 0xFFFFFFFF, 0⟩, ⟨.putpic, 0x50000000, 0xFFF00000, 0⟩,
   ⟨.putgob, 0x51000000, 0xFFFC0000, 0⟩, ⟨.putmb, 0x52000000, 0xFFFFFC00, 0xFFE00000⟩,
   ⟨.getsc, 0x58000000, 0xFFFFFFFF, 0⟩, ⟨.getpic, 0x59000000, 0xFFFFFFFF, 0⟩, ⟨.getgob, 0x5A000000, 0xFFFFFFFF, 0⟩,
   ⟨.getmb, 0x5B000000, 0xFFFFFFFF, 0⟩]

/-- A head word and the first extension word are a row's: match and mask, then the row's extra keys: `illegal_if`
`tbl >= 6` of VLCENC and VLCDEC, `ext_mask_zero` of PUTMB (30_encoding.md R77). -/
def TableRow.accepts (row : TableRow) (h x0 : Word) : Prop :=
  h &&& row.mask = row.pattern ∧ x0 &&& row.extZero = 0 ∧
  (row.op = .vlcenc ∨ row.op = .vlcdec → (h >>> 21).toNat % 8 < 6)

/-! Quantities of the rules, written as the rules write them -/

/-- `q_pm1(v, q)` (42_quantizer.md R145). -/
def qPm1 (v q : Int) : Int :=
  if v > 0 then Int.tdiv (v + 1) (2 * q) else if v < 0 then Int.tdiv (v - 1) (2 * q) else 0

/-- Sample `(x, y)` of a plane of width `w`: byte `y * w + x`, 0 to 255 (20_memory.md R51). -/
def planeByte (m : Memory) (w : Nat) (x y : Int) : Int := ((Memory.read m (y * w + x).toNat).toNat : Int)

/-- The AE of a displacement: the sum over the pattern (45_motion.md R201). -/
def aeSum (s : State) (mbx mby : Nat) (d : Mv) : Nat :=
  (s.par.aePattern.map (fun o => (planeByte s.cur s.planeW.toNat (16 * mbx + o.1) (16 * mby + o.2) -
    planeByte s.ref s.planeW.toNat (16 * mbx + d.h + o.1) (16 * mby + d.v + o.2)).natAbs)).sum

/-- A valid candidate (45_motion.md R202). -/
abbrev inWindow (s : State) (mbx mby : Nat) (d : Mv) : Prop :=
  |d.h| ≤ 15 ∧ |d.v| ≤ 15 ∧ 0 ≤ 16 * (mbx : Int) + d.h ∧ 16 * (mbx : Int) + d.h ≤ (s.planeW.toNat : Int) - 16 ∧
  0 ≤ 16 * (mby : Int) + d.v ∧ 16 * (mby : Int) + d.v ≤ (s.planeH.toNat : Int) - 16

/-- The macroblock lies in configured planes (45_motion.md R216 to R218). -/
abbrev inPlane (s : State) (mbx mby : Nat) : Prop :=
  s.planeW ≠ 0 ∧ s.planeH ≠ 0 ∧ mbx < s.planeW.toNat / 16 ∧ mby < s.planeH.toNat / 16

/-- What a pass over candidates in the order of rows, then columns, returns from the start `c`: of `c` and the valid
candidates that meet `P`, one of least AE; `c` wins every tie, and among the others the first (45_motion.md R203,
R205). -/
structure BestFrom (s : State) (mbx mby : Nat) (P : Mv → Prop) (c m : Mv) : Prop where
  member : m = c ∨ (P m ∧ inWindow s mbx mby m)
  least : ∀ d, P d → inWindow s mbx mby d → aeSum s mbx mby m ≤ aeSum s mbx mby d
  start : aeSum s mbx mby m ≤ aeSum s mbx mby c
  startWins : aeSum s mbx mby m = aeSum s mbx mby c → m = c
  firstWins : m ≠ c → ∀ d, P d → inWindow s mbx mby d → aeSum s mbx mby d = aeSum s mbx mby m →
    m.v < d.v ∨ (m.v = d.v ∧ m.h ≤ d.h)

/-- `d` is `c` or one of its eight neighbours at distance `step` (45_motion.md R206). -/
abbrev nearby (c : Mv) (step : Int) (d : Mv) : Prop :=
  (d.h = c.h - step ∨ d.h = c.h ∨ d.h = c.h + step) ∧ (d.v = c.v - step ∨ d.v = c.v ∨ d.v = c.v + step)

/-- `steps(c)` can return `m`: the best of the neighbours at distance 8, from there at 4, at 2 and at 1
(45_motion.md R206). -/
def StepsFrom (s : State) (mbx mby : Nat) (c m : Mv) : Prop :=
  ∃ m8 m4 m2 : Mv, BestFrom s mbx mby (nearby c 8) c m8 ∧ BestFrom s mbx mby (nearby m8 4) m8 m4 ∧
    BestFrom s mbx mby (nearby m4 2) m4 m2 ∧ BestFrom s mbx mby (nearby m2 1) m2 m

/-! Blocks as bit strings -/

/-- A code word of a table (43_entropy.md R170). -/
def codeWord (t : VlcTable) (x : Nat) : List Bool := (vlcWord? t x).getD []

/-- The (run, value) pairs of the nonzero values of a list, `run` zeros before it (43_entropy.md R163). -/
def runLevels (run : Nat) : List Int → List (Nat × Int)
  | [] => []
  | v :: vs => if v = 0 then runLevels (run + 1) vs else (run, v) :: runLevels 0 vs

/-- A coefficient of a stream: a run, a level, and whether it is sent by escape (43_entropy.md R174, R180). -/
structure Coef where
  run : Nat
  level : Int
  escaped : Bool
deriving DecidableEq, Repr

/-- The symbol value of a run and a level (43_entropy.md R162). -/
def symbolOf (run : Nat) (level : Int) : Nat := level.natAbs + 256 * run

/-- The bits of a coefficient in table `t`: the escape code word, 6 bits of run and 8 bits of level, or the code word
and a sign bit (43_entropy.md R180, R181). -/
def Coef.bits (t : VlcTable) (c : Coef) : List Bool :=
  if c.escaped then codeWord t escapeSymbol ++ Machine.bits 6 c.run ++ Machine.bits 8 (BitVec.ofInt 8 c.level).toNat
  else codeWord t (symbolOf c.run c.level) ++ [decide (c.level < 0)]

/-- A coefficient that a stream can carry with table `t` (43_entropy.md R174, R177). -/
def Coef.ok (t : VlcTable) (c : Coef) : Prop :=
  c.run < 64 ∧
  if c.escaped then -128 ≤ c.level ∧ c.level ≤ 127
  else c.level ≠ 0 ∧ c.level.natAbs < 256 ∧ symbolOf c.run c.level ≠ escapeSymbol ∧
    (vlcWord? t (symbolOf c.run c.level)).isSome = true

/-- How the encoder sends the value `v` after `run` zeros: clamped to -127..127, by escape if its symbol is the
escape's or has no code word (43_entropy.md R172, R180). -/
def sentCoef (t : VlcTable) (c : Nat × Int) : Coef :=
  let level := max (-127) (min 127 c.2)
  ⟨c.1, level, symbolOf c.1 level == escapeSymbol || (vlcWord? t (symbolOf c.1 level)).isNone⟩

/-- The bits of a list of coefficients: the first with table `t`, the others with `TBL_T1` (43_entropy.md R164). -/
def coefStream (p : Params) (t : VlcTable) : List Coef → List Bool
  | [] => []
  | c :: cs => c.bits t ++ cs.flatMap (Coef.bits p.tblT1)

/-- The coefficients the encoder sends, the first with table `t`. -/
def sentCoefs (p : Params) (t : VlcTable) : List (Nat × Int) → List Coef
  | [] => []
  | c :: cs => sentCoef t c :: cs.map (sentCoef p.tblT1)

/-- The table of the first coefficient (43_entropy.md R164). -/
def firstTable (p : Params) : Coding → VlcTable
  | .intra => p.tblT1
  | .inter => p.tblT2

/-- The scan position of the first coefficient (43_entropy.md R176, R177). -/
def firstPosition : Coding → Nat
  | .intra => 1
  | .inter => 0

/-- The DC field of an intra block: the value clamped to 1..254, 128 sent as 255 (43_entropy.md R173). -/
def dcField (v : Int) : Nat := if max 1 (min 254 v) = 128 then 255 else (max 1 (min 254 v)).toNat

/-- The bits of a stream that carries a block: the 8-bit field `d` of an intra block, the coefficients, the
end-of-block code word (30_encoding.md R89). -/
def blockStream (p : Params) (i : Coding) (d : Nat) (cs : List Coef) : List Bool :=
  (match i with
    | .intra => Machine.bits 8 d
    | .inter => []) ++ coefStream p (firstTable p i) cs ++ codeWord p.tblT1 0

/-- The coefficients of a block as the encoder sends them, in scan order (43_entropy.md R161, R176). -/
def blockCoefs (p : Params) (i : Coding) (b : Block) : List Coef :=
  sentCoefs p (firstTable p i) (runLevels 0
    (((List.range 64).map (fun k => ((b[scan p k]?.getD 0 : Lane)).toInt)).drop (firstPosition i)))

/-- The scan position after a list of coefficients that starts at `k` (43_entropy.md R177). -/
def positionAfter (k : Nat) (cs : List Coef) : Nat := k + (cs.map (fun c => c.run + 1)).sum

/-- The block with the coefficients placed from scan position `k` on (43_entropy.md R177). -/
def placeCoefs (p : Params) (k : Nat) : List Coef → Block → Block
  | [], b => b
  | c :: cs, b => placeCoefs p (k + c.run + 1) cs (b.setIfInBounds (scan p (k + c.run)) (wrap16 c.level))

/-- The block before its coefficients: zero, and for an intra block the DC field in lane 0, 255 standing for 128
(43_entropy.md R175, R177). -/
def blockStart : Coding → Nat → Block
  | .intra, d => (Vector.replicate 64 0).set 0 (BitVec.ofNat 16 (if d = 255 then 128 else d))
  | .inter, _ => Vector.replicate 64 0

/-- A block as the far end gets it: coefficients clamped to -127..127, an intra DC to 1..254
(43_entropy.md R172, R173, R183). -/
def sentBlock (i : Coding) (b : Block) : Block :=
  Vector.ofFn (fun k => BitVec.ofInt 16
    (if i = .intra ∧ k.val = 0 then max 1 (min 254 (b[k]).toInt) else max (-127) (min 127 (b[k]).toInt)))

/-! Headers as bit strings -/

/-- The extension tail with the bytes `l` (46_framing.md R249). -/
def tailBits (l : List Byte) : List Bool := l.flatMap (fun e => true :: bits 8 e.toNat) ++ [false]

/-- The header of a macroblock with the symbols `kh` and `kv` of its vector: each field exactly when the type carries
it (30_encoding.md R88, 46_framing.md R240, R243). -/
def headerBits (p : Params) (kh kv mba mtype mquant cbp : Nat) : List Bool :=
  codeWord p.tblMba mba ++ codeWord p.tblMtype mtype ++
  (if (mtypeAttr p mtype).quant then bits 5 mquant else []) ++
  (if (mtypeAttr p mtype).mv then codeWord p.tblMvd kh ++ codeWord p.tblMvd kv else []) ++
  (if (mtypeAttr p mtype).cbp then codeWord p.tblCbp cbp else [])

/-- The operands of a `PUTMB` that raises nothing, its address sum apart (46_framing.md R243). -/
abbrev headerOk (p : Params) (mba mtype mquant : Nat) (mvh mvv : Int) (cbp : Nat) : Prop :=
  1 ≤ mba ∧ mba ≤ 33 ∧ mtype ≤ 9 ∧ mquant < 32 ∧ cbp < 64 ∧ fitsS5 mvh ∧ fitsS5 mvv ∧
  ¬ strayField (mtypeAttr p mtype) mquant mvh mvv cbp ∧
  ((mtypeAttr p mtype).quant = true → mquant ≠ 0) ∧ ((mtypeAttr p mtype).cbp = true → cbp ≠ 0)

end Sys2Proof.Machine
end

