-- ==== Sys2Proof/Certificates/Slice0/Obligations.lean ====
section
/-!
DEFINITION. The statements for the provers, in the order of the spec's files: encoding, the step, reset and faults,
then the families of commands, then what each command leaves alone.

Model's choices inside them: `SourceHolds` carries the premise of log 15 (the source's length in bits fits a `u64`);
`WritesBits` says what a failing sink leaves (log 9, log 10). The tables, the scan, the networks and the start codes are
those of the parameters `s.par`, whatever they are; `s.par.wf` is the check that the spec asks for (43_entropy.md R160,
93_implementation_defined.md U41; log 11). Any other is named at its statement.
-/

open Sys2Proof Sys2Proof.Machine

/-! ## Encoding (30_encoding.md) -/

/-- R72, R74, R75: command words written out from the formats, one of each family at least, decode to the commands
they stand for. Two clauses are the model's choice: that the illegal PUTMB takes its extension word with it (log 23),
and that a head word without its extension words is no whole command yet (log 1). -/
def Obligations.SampleWordsDecode : Prop :=
  decode [0x00000000] = .instr .nop [] ∧
  decode [0x030200B0] = .instr (.csrw 2 176) [] ∧
  decode [0x10000014, 0x00000010] = .instr (.wrbits 20 0x00010) [] ∧
  decode [0x12000001] = .instr (.bitpos .rd) [] ∧
  decode [0x20200000] = .instr (.fdct 1 0) [] ∧
  decode [0x28220008] = .instr (.quant 1 .intra 8) [] ∧
  decode [0x31600000] = .instr (.decblk 3 .inter) [] ∧
  decode [0x32801B01] = .instr (.vlcenc .t1 0x1B01) [] ∧
  decode [0x400F0C21] = .instr (.meae 1 1 3 (-2)) [] ∧
  decode [0x500A587F] = .instr (.putpic 31 3 true 0xA5) [] ∧
  decode [0x5103FFFC] = .instr (.putgob 12 31 true 0xFF) [] ∧
  decode [0x52000141, 0x001E0BA0] = .instr (.putmb 1 5 0 (-3) 2 60) [] ∧
  decode [0x5B000000, 0x00000000] = .instr .getmb [0x00000000] ∧
  decode [0x04000000, 0x01000000] = .illegal .unknownOpcode 0x04 [0x01000000] ∧
  decode [0x32C00001] = .illegal .reservedTable 0x32 [] ∧
  decode [0x52000041, 0x00200000] = .illegal .mustBeZero 0x52 [] ∧
  decode [0x08000000, 0x00000000] = .incomplete

/-- R70, R72, R74: decoding the words of any well-formed command gives that command back, and the words after it are
left. -/
def Obligations.DecodeInvertsEncode : Prop :=
  ∀ (i : Instr) (rest : List Word), i.WellFormed → decode (encode i ++ rest) = .instr i rest

/-- R77: a word list has at most one reading. What decodes to a command is the words of that command, which is well
formed, and what follows them. -/
def Obligations.EncodeInvertsDecode : Prop :=
  ∀ (ws : List Word) (i : Instr) (rest : List Word), decode ws = .instr i rest →
    i.WellFormed ∧ encode i ++ rest = ws

/-- R76, R77: the decoder accepts a head word and its extension words exactly when a row of the opcode table does
(match and mask, then the row's extra keys), the command has that row's opcode, and no head word matches two rows. -/
def Obligations.DecoderFollowsOpcodeTable : Prop :=
  (∀ (h : Word) (x : List Word),
    ((∃ i, decodeHead h.toNat x = .ok i) ↔ ∃ row ∈ opcodeTable, row.accepts h (x.getD 0 0)) ∧
    ∀ i, decodeHead h.toNat x = .ok i → ∃ row ∈ opcodeTable, row.accepts h (x.getD 0 0) ∧ row.op = i.opcode) ∧
  ∀ (h : Word), ∀ r ∈ opcodeTable, ∀ r' ∈ opcodeTable,
    h &&& r.mask = r.pattern → h &&& r'.mask = r'.pattern → r = r'

/-- R76, R70: an illegal command in front of the list takes the fault `IllegalCommand` with its opcode and changes
nothing else; with an unknown opcode one word is consumed, else the words its opcode fixes (model's reading, log 23;
that the index stays is log 3). -/
def Obligations.IllegalCommandTakesFault : Prop :=
  ∀ (s : State) (h : Word) (tail rest : List Word) (why : Illegal) (opc : BitVec 8),
    s.status.fault = false → s.queue = h :: tail → decode s.queue = .illegal why opc rest →
    opc.toNat = h.toNat / 2 ^ 24 ∧
    rest = tail.drop (extWordsOf h) ∧
    (why = .unknownOpcode ↔ ∀ op : Opcode, op.code ≠ opc) ∧
    (why = .unknownOpcode → rest = tail) ∧
    step s = .next { s with queue := rest, status := ⟨true, .illegalCommand, opc⟩ }

/-! ## The step -/

/-- 10_state.md R22, 40_bitchannel.md R109: when the words issued begin with a command, a step is that command run on
the state without its words, and the index advances by one exactly when the engine is not faulted afterwards. With no
whole command issued the engine is idle (model's choice, log 1; the index, log 3). -/
def Obligations.StepRunsDecodedCommand : Prop :=
  ∀ (s : State),
    (∀ (i : Instr) (rest : List Word), decode s.queue = .instr i rest →
      ∃ t, exec i { s with queue := rest } = .next t ∧
        step s = .next { t with pc := if t.status.fault then t.pc else t.pc + 1 }) ∧
    (decode s.queue = .incomplete → step s = .next s)

/-- 30_encoding.md R78: every step ends in a next state, never in a stop, and takes from the list nothing or exactly
the words of its first command, at least one when a whole command is there (the list is the model's, log 1; a fault as
a next state, log 4). -/
def Obligations.StepTakesOneCommand : Prop :=
  ∀ (s : State), ∃ t, step s = .next t ∧
    (t.queue = s.queue ∨ ∃ h tail, s.queue = h :: tail ∧ extWordsOf h ≤ tail.length ∧
      t.queue = tail.drop (extWordsOf h)) ∧
    (s.queue ≠ [] → (∀ h tail, s.queue = h :: tail → extWordsOf h ≤ tail.length) → t.queue.length < s.queue.length)

/-- 47_system.md R280: in the faulted state every command but RESET and CSRR, legal or not, completes with no effect;
its words are consumed, and the index stays (10_state.md R22; log 3). So the fault stays, with its cause and opcode, until
RESET (R282, 10_state.md R26): CSRR leaves `STATUS` as it is. That a gated BLKRD leaves the response words `resp` too is
the model's choice (log 16). -/
def Obligations.FaultedEngineGates : Prop :=
  ∀ (s : State), s.status.fault = true →
    (∀ (i : Instr), i ≠ .reset → (∀ csr, i ≠ .csrr csr) → exec i s = .next s) ∧
    (∀ (i : Instr) (rest : List Word), decode s.queue = .instr i rest → i ≠ .reset → (∀ csr, i ≠ .csrr csr) →
      step s = .next { s with queue := rest }) ∧
    (∀ (why : Illegal) (opc : BitVec 8) (rest : List Word), decode s.queue = .illegal why opc rest →
      step s = .next { s with queue := rest }) ∧
    (∀ (csr : Nat) (t : State), exec (.csrr csr) s = .next t → t.status = s.status) ∧
    (∃ t, exec .reset s = .next t ∧ t.status.fault = false)

/-- The state after reset meets the invariant (10_state.md R37), in the reference configuration and with any other
parameters an engine can be built with (R35; the model holds them in State, log 11); building one refuses parameters
that fail the check: a `ZIGZAG` that is no permutation (43_entropy.md R160), a table that is not prefix-free
(44_vlc_tables.md R196, 93_implementation_defined.md U41). -/
def Obligations.InvariantHoldsAtReset : Prop :=
  State.reset.Inv ∧ buildEngine refCfg = some State.reset ∧
  (∀ (p : Params) (s : State), buildEngine p = some s → s.par = p ∧ s.ResetValues ∧ s.Inv) ∧
  (∀ p : Params, ¬ p.zigzag.toList.Perm (List.range 64) → buildEngine p = none) ∧
  ∀ (p : Params) (tbl : TableId), ∀ e ∈ tableOf p tbl, ∀ f ∈ tableOf p tbl, e ≠ f →
    bits e.len e.code <+: bits f.len f.code → buildEngine p = none

/-- Every step keeps the invariant, from every state that meets it: the write channel's law and length (10_state.md
R31), the read position inside the source (R32), `STATUS` (R26), legal `CFG` and plane sizes (R27, R28), `MBADDR` 0 to
33 (R30), stored vectors in -15..15 (R34); by the model's own choices canonical planes (log 7), a source whose length
fits (log 15) and legal parameters (log 11). -/
def Obligations.StepKeepsInvariant : Prop :=
  ∀ (s t : State), s.Inv → step s = .next t → t.Inv

/-! ## Reset and faults (10_state.md, 60_exceptions.md) -/

/-- 10_state.md R37: after hardware reset and after RESET every item has its reset value, and the memories of the host
are unchanged. The block lanes are unspecified, so nothing is said of them. -/
def Obligations.ResetLeavesStatedValues : Prop :=
  State.reset.ResetValues ∧
  ∀ s : State, ∃ t, exec .reset s = .next t ∧ t.ResetValues ∧ t.cur = s.cur ∧ t.ref = s.ref ∧ t.src = s.src

/-- 60_exceptions.md R322, R320(c): a command that faults records its own opcode and one of the causes listed for it. -/
def Obligations.FaultCauseIsListed : Prop :=
  ∀ (i : Instr) (s t : State), s.status.fault = false → exec i s = .next t → t.status.fault = true →
    t.status.cause ∈ causesOf i ∧ t.status.fop = i.opcode.code

/-- 60_exceptions.md R326(a), (b), R323: a command whose checks all precede its first state change leaves, on a fault
other than `SinkIoError`, everything but `STATUS` unchanged; a read-side command that faults in mid-structure leaves
everything but `STATUS` and `RPOS` unchanged, except that GETSC may have cleared `SCSEEN`, and `RPOS` has moved forward
inside the source. -/
def Obligations.ChecksComeFirst : Prop :=
  (∀ (i : Instr) (s t : State), i.WellFormed → s.par.wf = true → checksFirst i = true → s.status.fault = false →
    exec i s = .next t → t.status.fault = true → t.status.cause ≠ .sinkIoError → t = { s with status := t.status }) ∧
  (∀ (i : Instr) (s t : State), readsStructure i = true → s.status.fault = false → exec i s = .next t →
    t.status.fault = true →
    (i ≠ .getsc → t = { s with rpos := t.rpos, status := t.status }) ∧
    (i = .getsc → t = { s with rpos := t.rpos, status := t.status, scseen := t.scseen } ∧
      (t.scseen = true → s.scseen = true)) ∧
    (s.ReadInv → s.rpos.toNat ≤ t.rpos.toNat ∧ t.rpos.toNat ≤ 8 * s.src.length))

/-! ## System commands (47_system.md) -/

/-- R281: NOP does nothing, in any state, and the all-zero head word is NOP. -/
def Obligations.NopDoesNothing : Prop :=
  (∀ s : State, exec .nop s = .next s) ∧ ∀ rest : List Word, decode (0x00000000 :: rest) = .instr .nop rest

/-- R283: CSRR returns the register's layout in `RES0` and changes nothing else, in the faulted state too; a reserved
number raises `ArgumentError`, dropped in the faulted state; a nonzero `imm16` is an illegal command. -/
def Obligations.CsrrReadsRegister : Prop :=
  (∀ (s : State) (csr : Nat), csr ≤ 6 →
    exec (.csrr csr) s = .next { s with res := s.res.set 0 (BitVec.ofNat 32 (s.csrLayout csr)) }) ∧
  (∀ (s : State) (csr : Nat), csr > 6 → s.status.fault = false →
    exec (.csrr csr) s = .next (s.faulted .argumentError .csrr)) ∧
  (∀ (s : State) (csr : Nat), csr > 6 → s.status.fault = true → exec (.csrr csr) s = .next s) ∧
  (∀ (h : Word) (rest : List Word), h.toNat / 2 ^ 24 = 0x02 → h.toNat % 2 ^ 16 ≠ 0 →
    decode (h :: rest) = .illegal .mustBeZero 0x02 rest)

/-- R284: CSRW writes `CFG`, `PLANE_W` or `PLANE_H` if the value is legal and changes nothing else; an illegal value,
a read-only or a reserved number raises `ArgumentError`. -/
def Obligations.CsrwWritesRegister : Prop :=
  ∀ (s : State) (csr : Nat) (v : BitVec 16), s.status.fault = false →
    exec (.csrw csr v) s = .next (
      if csr = 1 then
        if v.toNat / 4 ≠ 0 then s.faulted .argumentError .csrw else { s with cfg := v }
      else if csr = 2 then
        if v.toNat ≠ 0 ∧ (v.toNat % 16 ≠ 0 ∨ v.toNat > 352) then s.faulted .argumentError .csrw
        else { s with planeW := v }
      else if csr = 3 then
        if v.toNat ≠ 0 ∧ (v.toNat % 16 ≠ 0 ∨ v.toNat > 288) then s.faulted .argumentError .csrw
        else { s with planeH := v }
      else s.faulted .argumentError .csrw)

/-- R285, 20_memory.md R53: 32 extension words load a block register, word `j` carrying lane `2*j` in its low half and
lane `2*j + 1` in its high half; nothing else changes. -/
def Obligations.BlkwrLoadsLanes : Prop :=
  ∀ (s : State) (b : Fin 8) (h : Word) (xs rest : List Word), s.status.fault = false → xs.length = 32 →
    h.toNat = 0x08 * 2 ^ 24 + b.val * 2 ^ 21 →
    ∃ lanes : Block, decode (h :: xs ++ rest) = .instr (.blkwr b lanes) rest ∧
      (∀ j (hj : j < 32), ∃ x : Word, xs[j]? = some x ∧ lanes[2 * j] = x.setWidth 16 ∧
        lanes[2 * j + 1] = (x >>> 16).setWidth 16) ∧
      exec (.blkwr b lanes) s = .next { s with blk := s.blk.set b lanes }

/-- R286: BLKRD answers the 32 words of a block and writes nothing in the engine; after BLKWR they are the words
written. Without a fault before; one gated by `FAULT = 1` is in `FaultedEngineGates` (log 16). -/
def Obligations.BlkrdReturnsWords : Prop :=
  (∀ (s : State) (b : Fin 8), s.status.fault = false → ∃ ds : List Word, ds.length = 32 ∧
    (∀ j (hj : j < 32), ∃ d : Word, ds[j]? = some d ∧
      d.toNat = (s.blk[b][2 * j]).toNat + 2 ^ 16 * (s.blk[b][2 * j + 1]).toNat) ∧
    exec (.blkrd b) s = .next { s with resp := ds }) ∧
  (∀ (s t : State) (b : Fin 8) (h : Word) (xs rest : List Word) (i : Instr), s.status.fault = false →
    xs.length = 32 → h.toNat = 0x08 * 2 ^ 24 + b.val * 2 ^ 21 → decode (h :: xs ++ rest) = .instr i rest →
    exec i s = .next t → exec (.blkrd b) t = .next { t with resp := xs })

/-! ## Bit channel (40_bitchannel.md) -/

/-- R100, R105: WRBITS appends the low `n` bits of the value, most significant first, and changes nothing else;
`n = 0` changes nothing at all; `n > 32` raises `ArgumentError`. -/
def Obligations.WrbitsAppendsLowBits : Prop :=
  ∀ (s : State) (n : Nat) (v : Word), s.status.fault = false →
    (n ≤ 32 → s.wpend.length < 8 →
      WritesBits s .wrbits ((List.range n).map (fun j => v.getLsbD (n - 1 - j))) id (exec (.wrbits n v) s)) ∧
    (n = 0 → exec (.wrbits n v) s = .next s) ∧
    (n > 32 → exec (.wrbits n v) s = .next (s.faulted .argumentError .wrbits))

/-- R101, R106: RDBITS consumes the next `n` bits and returns them in `RES0`, the first the most significant; too few
bits raise `UnexpectedEof` and `n > 32` raises `ArgumentError`, both with `RPOS` and `RES0` unchanged. -/
def Obligations.RdbitsReturnsNextBits : Prop :=
  ∀ (s : State) (n : Nat), s.status.fault = false →
    (∀ bs : List Bool, bs.length = n → n ≤ 32 → s.SourceHolds bs →
      exec (.rdbits n) s = .next { s with
        rpos := s.rpos + BitVec.ofNat 64 n,
        res := s.res.set 0 (BitVec.ofNat 32 (bs.foldl (fun r b => 2 * r + b.toNat) 0)) }) ∧
    (n ≤ 32 → s.rpos.toNat + n > 8 * s.src.length →
      exec (.rdbits n) s = .next (s.faulted .unexpectedEof .rdbits)) ∧
    (n > 32 → exec (.rdbits n) s = .next (s.faulted .argumentError .rdbits))

/-- R102: BITPOS returns the write or the read position, low half in `RES0`, high half in `RES1`. -/
def Obligations.BitposReturnsPosition : Prop :=
  ∀ s : State, s.status.fault = false →
    exec (.bitpos .wr) s = .next { s with
      res := #v[s.wpos.setWidth 32, (s.wpos >>> 32).setWidth 32, s.res[2], s.res[3]] } ∧
    exec (.bitpos .rd) s = .next { s with
      res := #v[s.rpos.setWidth 32, (s.rpos >>> 32).setWidth 32, s.res[2], s.res[3]] }

/-- R103: ATEND returns 1 when no unread bit remains, else 0. -/
def Obligations.AtendTestsForUnreadBits : Prop :=
  ∀ s : State, s.status.fault = false →
    exec .atend s = .next { s with res := s.res.set 0 (if s.rpos.toNat ≥ 8 * s.src.length then 1 else 0) }

/-- R104: FLUSH completes the last byte with pad bits, or does nothing with no bit pending; afterwards none is
pending. -/
def Obligations.FlushCompletesByte : Prop :=
  ∀ s : State, s.status.fault = false → s.wpend.length < 8 →
    WritesBits s .flush (List.replicate ((8 - s.wpend.length) % 8) s.par.padBit) id (exec .flush s) ∧
    (s.wpend = [] → exec .flush s = .next s) ∧
    (∀ t, exec .flush s = .next t → t.status.fault = false → t.wpend = [])

/-- R107, 20_memory.md R52: `SINK` holds the first `8 * floor(length / 8)` bits written, eight a byte, the earlier
bit in the higher position, `WPEND` the rest; and a source that equals that `SINK` holds those bits. -/
def Obligations.SourceHoldsWhatSinkGot : Prop :=
  ∀ s : State, s.wpend.length < 8 →
    s.written.drop (8 * (s.written.length / 8)) = s.wpend ∧ s.sink.length = s.written.length / 8 ∧
    (∀ j, j < 8 * s.sink.length → s.written[j]? = some ((s.sink.getD (j / 8) 0).getLsbD (7 - j % 8))) ∧
    ∀ r : State, r.src = s.sink → r.rpos = 0 → 8 * r.src.length < 2 ^ 64 →
      r.SourceHolds (s.written.take (8 * (s.written.length / 8)))

/-! ## Transform (41_transform.md) -/

/-- R124, R125, R126: FDCT is a row pass with the forward network of pass 1, a column pass with that of pass 2, each
lane stored in 16 bits, and the division by 8 that rounds half away from zero. Only `BLK[bd]` changes. The network is
the parameter `CHEN_NETWORK`, by default that of R122 with the constants `COS` (R130; log 12). -/
def Obligations.FdctRunsRowsThenColumns : Prop :=
  (∀ p : Params, p.chenNetwork = .default → (chenNetwork p).fwd = fwd1d p.cos) ∧
  ∀ (s : State) (bd bs : Fin 8), s.status.fault = false → ∃ t1 t2 out : Block,
    (∀ r c : Fin 8, t1[8 * r.val + c.val]'(by omega) = wrap16
      (((chenNetwork s.par).fwd .first (Vector.ofFn (fun k : Fin 8 => (s.blk[bs][8 * r.val + k.val]'(by omega)).toInt)))[c])) ∧
    (∀ r c : Fin 8, t2[8 * r.val + c.val]'(by omega) = wrap16
      (((chenNetwork s.par).fwd .second (Vector.ofFn (fun k : Fin 8 => (t1[8 * k.val + c.val]'(by omega)).toInt)))[r])) ∧
    (∀ k : Fin 64, out[k] = wrap16 (if (t2[k]).toInt < 0 then Int.tdiv ((t2[k]).toInt - 4) 8
      else Int.tdiv ((t2[k]).toInt + 4) 8)) ∧
    exec (.fdct bd bs) s = .next { s with blk := s.blk.set bd out }

/-- R124, R125, R127: IDCT is a column pass with the inverse network of pass 1, a row pass with that of pass 2, and
the division by 16 that rounds half away from zero. Only `BLK[bd]` changes. The network is the parameter
`CHEN_NETWORK`, by default that of R123 with the constants `COS` (R130; log 12). -/
def Obligations.IdctRunsColumnsThenRows : Prop :=
  (∀ p : Params, p.chenNetwork = .default → (chenNetwork p).inv = inv1d p.cos) ∧
  ∀ (s : State) (bd bs : Fin 8), s.status.fault = false → ∃ t1 t2 out : Block,
    (∀ r c : Fin 8, t1[8 * r.val + c.val]'(by omega) = wrap16
      (((chenNetwork s.par).inv .first (Vector.ofFn (fun k : Fin 8 => (s.blk[bs][8 * k.val + c.val]'(by omega)).toInt)))[r])) ∧
    (∀ r c : Fin 8, t2[8 * r.val + c.val]'(by omega) = wrap16
      (((chenNetwork s.par).inv .second (Vector.ofFn (fun k : Fin 8 => (t1[8 * r.val + k.val]'(by omega)).toInt)))[c])) ∧
    (∀ k : Fin 64, out[k] = wrap16 (if (t2[k]).toInt < 0 then Int.tdiv ((t2[k]).toInt - 8) 16
      else Int.tdiv ((t2[k]).toInt + 8) 16)) ∧
    exec (.idct bd bs) s = .next { s with blk := s.blk.set bd out }

/-- R126: on pixels and pixel differences, lanes in -256..255, FDCT with the default network and the constants of R120
is the exact transform: no lane leaves 16 bits, the values between the passes stay below 5800 in magnitude and those
before the final division below 16400. -/
def Obligations.FdctPixelsStayInRange : Prop :=
  ∀ (s : State) (bd bs : Fin 8), s.status.fault = false →
    s.par.chenNetwork = .default → s.par.cos = ⟨362, 473, 196, 502, 426, 284, 100⟩ →
    (∀ k : Fin 64, -256 ≤ (s.blk[bs][k]).toInt ∧ (s.blk[bs][k]).toInt ≤ 255) →
    ∃ (t1 t2 : Fin 8 → Fin 8 → Int) (out : Block),
      (∀ r c : Fin 8, t1 r c =
          (fwd1d s.par.cos .first (Vector.ofFn (fun k : Fin 8 => (s.blk[bs][8 * r.val + k.val]'(by omega)).toInt)))[c] ∧
        |t1 r c| < 5800) ∧
      (∀ r c : Fin 8, t2 r c = (fwd1d s.par.cos .second (Vector.ofFn (fun k : Fin 8 => t1 k c)))[r] ∧ |t2 r c| < 16400) ∧
      (∀ r c : Fin 8, (out[8 * r.val + c.val]'(by omega)).toInt = rhaz (t2 r c) 8) ∧
      exec (.fdct bd bs) s = .next { s with blk := s.blk.set bd out }

/-! ## Quantizer (42_quantizer.md) -/

/-- R141 to R145: QUANT replaces every lane by its quantized value and returns the transmit flag: 1 for intra, for
inter whether the sum of the quantized magnitudes exceeds the threshold; `q = 0` raises `ArgumentError`. The default
intra DC rule is tdiv(v+4, 8) or tdiv(v-3, 8). -/
def Obligations.QuantLanesAndFlag : Prop :=
  (∀ (s : State) (b : Fin 8) (i : Coding) (q : Nat), s.status.fault = false → q ≠ 0 →
    ∃ (w : Fin 64 → Int) (out : Block),
      (∀ k : Fin 64, w k =
        if i = .intra ∧ k.val = 0 then intraDcQuant s.par (s.blk[b][k]).toInt
        else if i = .intra then qPm1 (s.blk[b][k]).toInt q
        else if q % 2 = 1 then Int.tdiv (s.blk[b][k]).toInt (2 * q)
        else qPm1 (s.blk[b][k]).toInt q) ∧
      (∀ k : Fin 64, out[k] = wrap16 (w k)) ∧
      exec (.quant b i q) s = .next { s with
        blk := s.blk.set b out,
        res := s.res.set 0 (if i = .intra ∨ (∑ k : Fin 64, |w k|) > s.par.cbpThreshold then 1 else 0) }) ∧
  (∀ (s : State) (b : Fin 8) (i : Coding), s.status.fault = false →
    exec (.quant b i 0) s = .next (s.faulted .argumentError .quant)) ∧
  (∀ (p : Params) (v : Int), p.intraDcQuant = .default →
    intraDcQuant p v = if v ≥ 0 then Int.tdiv (v + 4) 8 else Int.tdiv (v - 3) 8)

/-- R145: quantizing never makes a value larger, so storing the result in 16 bits never changes it (with the default
intra DC rule). -/
def Obligations.QuantNeverGrows : Prop :=
  ∀ (p : Params) (i : Coding) (q k : Nat) (v : Lane), p.intraDcQuant = .default → q ≠ 0 →
    |quantLane p i q k v.toInt| ≤ |v.toInt| ∧ (wrap16 (quantLane p i q k v.toInt)).toInt = quantLane p i q k v.toInt

/-- R146, R147, R148: DEQUANT reconstructs every lane, the intra DC as `8 * v` and every other by the formula with its
parity switch, stored in 16 bits with no clip; no result register changes; `q = 0` raises `ArgumentError`. -/
def Obligations.DequantReconstructs : Prop :=
  (∀ (s : State) (b : Fin 8) (i : Coding) (q : Nat), s.status.fault = false → q ≠ 0 → s.par.deqClip = none →
    ∃ out : Block,
      (∀ k : Fin 64, out[k] = wrap16 (
        if i = .intra ∧ k.val = 0 then 8 * (s.blk[b][k]).toInt
        else if (s.blk[b][k]).toInt > 0 then
          (2 * (s.blk[b][k]).toInt + 1) * q - (if q % 2 = 0 ∨ s.par.deqEvenOnly = false then 1 else 0)
        else if (s.blk[b][k]).toInt < 0 then
          (2 * (s.blk[b][k]).toInt - 1) * q + (if q % 2 = 0 ∨ s.par.deqEvenOnly = false then 1 else 0)
        else 0)) ∧
      exec (.dequant b i q) s = .next { s with blk := s.blk.set b out }) ∧
  (∀ (s : State) (b : Fin 8) (i : Coding), s.status.fault = false →
    exec (.dequant b i 0) s = .next (s.faulted .argumentError .dequant))

/-- The model's choice for `DEQ_CLIP` (log 14; 42_quantizer.md R148 names the parameter only): with a clipping range
each lane is what it would be without one, clamped to the range before it is stored. -/
def Obligations.DequantClipsToRange : Prop :=
  ∀ (s : State) (b : Fin 8) (i : Coding) (q : Nat) (lo hi : Int), s.status.fault = false → q ≠ 0 →
    s.par.deqClip = some (lo, hi) → ∃ w : Fin 64 → Int, ∃ out : Block,
      (∀ k : Fin 64, w k = if i = .intra ∧ k.val = 0 then 8 * (s.blk[b][k]).toInt
        else deq s.par (s.blk[b][k]).toInt q) ∧
      (∀ k : Fin 64, out[k] = wrap16 (if w k < lo then lo else if w k > hi then hi else w k)) ∧
      exec (.dequant b i q) s = .next { s with blk := s.blk.set b out }

/-- R151: a nonzero level of an inter lane or of an intra AC lane reconstructs to a value of the lane's sign within
`2*q` of it; a level 0 reconstructs to 0. -/
def Obligations.ReconstructionIsClose : Prop :=
  ∀ (p : Params) (i : Coding) (q k : Nat) (v : Int), 1 ≤ q → q ≤ 31 → p.deqEvenOnly = true → (i = .intra → k ≠ 0) →
    (quantLane p i q k v ≠ 0 → Int.sign (deq p (quantLane p i q k v) q) = Int.sign v ∧
      |deq p (quantLane p i q k v) q - v| ≤ 2 * q) ∧
    (quantLane p i q k v = 0 → deq p (quantLane p i q k v) q = 0)

/-! ## Entropy coder (43_entropy.md, 44_vlc_tables.md) -/

/-- R170, R178: VLCENC writes the code word of a value that has an entry; for any other it raises
`UnencodableSymbol` and writes nothing. -/
def Obligations.VlcencWritesCodeWord : Prop :=
  ∀ (s : State) (tbl : TableId), s.status.fault = false → s.par.wf = true →
    (∀ e ∈ tableOf s.par tbl, s.wpend.length < 8 →
      WritesBits s .vlcenc (bits e.len e.code) id (exec (.vlcenc tbl e.value) s)) ∧
    (∀ val, (∀ e ∈ tableOf s.par tbl, e.value ≠ val) →
      exec (.vlcenc tbl val) s = .next (s.faulted .unencodableSymbol .vlcenc))

/-- R171, R179: VLCDEC of a code word that stands at the read position returns its value and consumes exactly its
bits. -/
def Obligations.VlcdecReturnsValue : Prop :=
  ∀ (s : State) (tbl : TableId), s.status.fault = false → s.par.wf = true → ∀ e ∈ tableOf s.par tbl,
    s.SourceHolds (bits e.len e.code) →
    exec (.vlcdec tbl) s = .next { s with
      rpos := s.rpos + BitVec.ofNat 64 e.len, res := s.res.set 0 (BitVec.ofNat 32 e.value) }

/-- R171, R325, R326(b): for any source, VLCDEC either returns a value of the table, having consumed its code word,
or raises `CorruptHuffmanCode` having consumed a string that is no prefix of any code word but whose proper prefixes
all are, or raises `UnexpectedEof` where the source ends inside a code word. -/
def Obligations.VlcdecOutcomes : Prop :=
  ∀ (s : State) (tbl : TableId), s.status.fault = false → s.par.wf = true → s.ReadInv →
    (∃ e ∈ tableOf s.par tbl, s.SourceHolds (bits e.len e.code) ∧
      exec (.vlcdec tbl) s = .next ((s.consumed e.len).setRes 0 (BitVec.ofNat 32 e.value))) ∨
    (∃ bs, s.SourceHolds bs ∧ bs ≠ [] ∧ (∀ e ∈ tableOf s.par tbl, ¬ bs <+: bits e.len e.code) ∧
      (∃ e ∈ tableOf s.par tbl, bs.dropLast <+: bits e.len e.code) ∧
      exec (.vlcdec tbl) s = .next ((s.consumed bs.length).faulted .corruptHuffmanCode .vlcdec)) ∨
    (∃ bs, s.SourceHolds bs ∧ s.rpos.toNat + bs.length = 8 * s.src.length ∧
      (∃ e ∈ tableOf s.par tbl, bs <+: bits e.len e.code ∧ bs.length < e.len) ∧
      exec (.vlcdec tbl) s = .next ((s.consumed bs.length).faulted .unexpectedEof .vlcdec))

/-- R184, R173, R175: undoing the DC map after the map gives the value back, for every value 1 to 254; the map sends
128 as 255 and never sends 0 or 128. -/
def Obligations.DcMapRoundTrip : Prop :=
  (∀ v : Int, 1 ≤ v → v ≤ 254 → dcUnmap (dcMap v).toNat = v) ∧
  ∀ v : Int, 1 ≤ dcMap v ∧ dcMap v ≤ 255 ∧ dcMap v ≠ 128 ∧ dcMap v = dcField v

/-- R161 to R164, R172, R173, R176, R180 to R182: ENCBLK writes the DC field of an intra block, the coefficients in
scan order, each by its code word and sign or by escape, and the end of block; the register keeps its lanes. An inter
block of zeros raises `UnencodableSymbol` before any bit. `SCAN` is the inverse of `ZIGZAG` (R160). -/
def Obligations.EncblkWritesBlock : Prop :=
  (∀ p : Params, p.wf = true → ∀ l : Fin 64, p.zigzag[l] < 64 ∧ scan p p.zigzag[l] = l.val) ∧
  ∀ (s : State) (b : Fin 8) (i : Coding), s.status.fault = false →
    (¬ (i = .inter ∧ ∀ k : Fin 64, s.blk[b][k] = 0) → s.wpend.length < 8 →
      WritesBits s .encblk (blockStream s.par i (dcField (s.blk[b][0]).toInt) (blockCoefs s.par i s.blk[b])) id
        (exec (.encblk b i) s)) ∧
    (i = .inter → (∀ k : Fin 64, s.blk[b][k] = 0) →
      exec (.encblk b i) s = .next (s.faulted .unencodableSymbol .encblk))

/-- R174, R175, R177: DECBLK of any stream of coefficients that stays within the 64 scan positions places them in
order into a block of zeros and consumes exactly the stream; a coefficient beyond position 63 raises
`CorruptHuffmanCode`, and a source that ends inside the stream `UnexpectedEof`, with the register unchanged
(60_exceptions.md R326(b)). -/
def Obligations.DecblkReadsBlock : Prop :=
  ∀ (s : State) (b : Fin 8) (i : Coding) (d : Nat) (cs : List Coef), s.status.fault = false → s.par.wf = true →
    d < 256 → (∀ c, cs.head? = some c → c.ok (firstTable s.par i)) → (∀ c ∈ cs.tail, c.ok s.par.tblT1) →
    (i = .inter → cs ≠ []) →
    (positionAfter (firstPosition i) cs ≤ 64 → s.SourceHolds (blockStream s.par i d cs) →
      exec (.decblk b i) s = .next { s with
        rpos := s.rpos + BitVec.ofNat 64 (blockStream s.par i d cs).length,
        blk := s.blk.set b (placeCoefs s.par (firstPosition i) cs (blockStart i d)) }) ∧
    (positionAfter (firstPosition i) cs ≤ 64 → s.SourceEndsInside (blockStream s.par i d cs) →
      ∃ n, s.rpos.toNat + n ≤ 8 * s.src.length ∧
        exec (.decblk b i) s = .next ((s.consumed n).faulted .unexpectedEof .decblk)) ∧
    (∀ bs, bs = (match i with | .intra => bits 8 d | .inter => []) ++ coefStream s.par (firstTable s.par i) cs →
      cs ≠ [] → positionAfter (firstPosition i) cs.dropLast ≤ 64 → positionAfter (firstPosition i) cs > 64 →
      s.SourceHolds bs →
      exec (.decblk b i) s = .next ((s.consumed bs.length).faulted .corruptHuffmanCode .decblk))

/-- R183: what ENCBLK writes, DECBLK reads back as the block with the clamps applied: coefficients to -127..127, an
intra DC to 1..254; so a block inside those ranges comes back equal. The reader has the writer's parameters; scan
position 0 is lane 0 (R160). -/
def Obligations.EntropyRoundTrip : Prop :=
  (∀ (s : State) (b : Fin 8) (i : Coding), s.status.fault = false → s.par.wf = true → s.par.zigzag[0] = 0 →
    s.wpend.length < 8 → s.SinkAccepts → ¬ (i = .inter ∧ ∀ k : Fin 64, s.blk[b][k] = 0) →
    ∃ (bs : List Bool) (t : State), exec (.encblk b i) s = .next t ∧ Appended s bs t ∧
      ∀ (r : State) (b' : Fin 8), r.status.fault = false → r.par = s.par → r.SourceHolds bs →
        exec (.decblk b' i) r = .next { r with
          rpos := r.rpos + BitVec.ofNat 64 bs.length, blk := r.blk.set b' (sentBlock i s.blk[b]) }) ∧
  ∀ (i : Coding) (b : Block),
    (∀ k : Fin 64, if i = .intra ∧ k.val = 0 then 1 ≤ (b[k]).toInt ∧ (b[k]).toInt ≤ 254
      else -127 ≤ (b[k]).toInt ∧ (b[k]).toInt ≤ 127) → sentBlock i b = b

/-! ## Motion estimator (45_motion.md) -/

/-- R201, R202, R216: MEAE returns the sum of absolute differences over the pattern for a valid candidate of a
macroblock of configured planes; no planes raise `ArgumentError`, a macroblock or a candidate outside raises
`BoundsError`. -/
def Obligations.MeaeScoresCandidate : Prop :=
  ∀ (s : State) (mbx mby : Nat) (dx dy : Int), s.status.fault = false →
    (inPlane s mbx mby → inWindow s mbx mby ⟨dx, dy⟩ →
      exec (.meae mbx mby dx dy) s = .next { s with
        res := s.res.set 0 (BitVec.ofNat 32 (aeSum s mbx mby ⟨dx, dy⟩)) }) ∧
    (s.planeW = 0 ∨ s.planeH = 0 → exec (.meae mbx mby dx dy) s = .next (s.faulted .argumentError .meae)) ∧
    (s.planeW ≠ 0 → s.planeH ≠ 0 → ¬ (inPlane s mbx mby ∧ inWindow s mbx mby ⟨dx, dy⟩) →
      exec (.meae mbx mby dx dy) s = .next (s.faulted .boundsError .meae))

/-- R201: an AE is at most 64 * 255 = 16320, is 0 for identical regions, and in the reference configuration is the sum
over the even-even grid. -/
def Obligations.AeIsBounded : Prop :=
  (∀ (s : State) (mbx mby : Nat) (d : Mv), s.par.wf = true → aeSum s mbx mby d ≤ 16320) ∧
  (∀ (s : State) (mbx mby : Nat) (d : Mv),
    (∀ i j : Nat, i < 16 → j < 16 → planeByte s.cur s.planeW.toNat (16 * mbx + i) (16 * mby + j) =
      planeByte s.ref s.planeW.toNat (16 * mbx + d.h + i) (16 * mby + d.v + j)) →
    s.par.wf = true → aeSum s mbx mby d = 0) ∧
  ∀ (s : State) (mbx mby : Nat) (d : Mv), s.par = refCfg → (aeSum s mbx mby d : Int) =
    ∑ b : Fin 8, ∑ a : Fin 8,
      |planeByte s.cur s.planeW.toNat (16 * mbx + (2 * a.val : Nat)) (16 * mby + (2 * b.val : Nat)) -
        planeByte s.ref s.planeW.toNat (16 * mbx + d.h + (2 * a.val : Nat)) (16 * mby + d.v + (2 * b.val : Nat))|

/-- R204, R217, R220: MESEARCH returns a valid displacement and its own AE, whichever variant runs and however it is
implemented within the contract (how the model holds an implementation is log 12), and changes nothing but `RES0` to
`RES2`; the faults are those of the checks. -/
def Obligations.MesearchKeepsContract : Prop :=
  ∀ (s : State) (mbx mby : Nat), s.status.fault = false →
    (inPlane s mbx mby → ∃ m : Mv, inWindow s mbx mby m ∧
      exec (.mesearch mbx mby) s = .next { s with res := #v[BitVec.ofNat 32 (aeSum s mbx mby m),
        BitVec.ofInt 32 m.h, BitVec.ofInt 32 m.v, s.res[3]] }) ∧
    (s.planeW = 0 ∨ s.planeH = 0 → exec (.mesearch mbx mby) s = .next (s.faulted .argumentError .mesearch)) ∧
    (s.planeW ≠ 0 → s.planeH ≠ 0 → ¬ inPlane s mbx mby →
      exec (.mesearch mbx mby) s = .next (s.faulted .boundsError .mesearch))

/-- R205 to R208, R202, R203: what MESEARCH returns with the default implementation of each variant. The full search: a
candidate of least AE; zero displacement wins every tie, and among the others the first in the order of rows, then
columns. The checkerboard search: the same among the candidates with an even coordinate sum. The three-step search: the
best of the neighbours at distance 8, 4, 2, 1, from zero; the new three-step search: the same from the predictor clamped
to the window. -/
def Obligations.FullSearchFindsBest : Prop :=
  ∀ (s : State) (mbx mby : Nat), s.status.fault = false → inPlane s mbx mby →
    ∃ m : Mv, inWindow s mbx mby m ∧
      exec (.mesearch mbx mby) s = .next { s with res := #v[BitVec.ofNat 32 (aeSum s mbx mby m),
        BitVec.ofInt 32 m.h, BitVec.ofInt 32 m.v, s.res[3]] } ∧
      (s.cfg.toNat % 4 = 0 → s.par.searchImpl[0] = .default → BestFrom s mbx mby (fun _ => True) ⟨0, 0⟩ m) ∧
      (s.cfg.toNat % 4 = 3 → s.par.searchImpl[3] = .default →
        (m.h + m.v) % 2 = 0 ∧ BestFrom s mbx mby (fun d => (d.h + d.v) % 2 = 0) ⟨0, 0⟩ m) ∧
      (s.cfg.toNat % 4 = 1 → s.par.searchImpl[1] = .default → StepsFrom s mbx mby ⟨0, 0⟩ m) ∧
      (s.cfg.toNat % 4 = 2 → s.par.searchImpl[2] = .default →
        ∀ p : Mv, s.prevMv[mby * (s.planeW.toNat / 16) + mbx]? = some p →
          StepsFrom s mbx mby
            ⟨max (max (-15) (-16 * (mbx : Int))) (min (min 15 ((s.planeW.toNat : Int) - 16 - 16 * mbx)) p.h),
              max (max (-15) (-16 * (mby : Int))) (min (min 15 ((s.planeH.toNat : Int) - 16 - 16 * mby)) p.v)⟩ m)

/-- R209, R214, R215, R218: MEMTYPE returns one of MTYPE 0, 2, 4, 5, 10, 10 exactly when the zero-displacement AE is
below the skip threshold, with the vector (0,0) for 0, 2 and 10 and a valid nonzero one for 4 and 5; it records the
vector and the staleness of its macroblock and changes no other entry. The faults change neither. That a nonzero vector
comes with 5 uses the model's bound on `ZERO_MV_CLOSE` (log 13). -/
def Obligations.MemtypeResultSet : Prop :=
  ∀ (s : State) (mbx mby : Nat), s.status.fault = false →
    (inPlane s mbx mby → ∃ (mtype ae : Nat) (mv : Mv) (pm : Vector Mv 396) (st : Vector (BitVec 16) 396),
      mtype ∈ [0, 2, 4, 5, 10] ∧
      (mtype = 10 ↔ (aeSum s mbx mby ⟨0, 0⟩ : Int) < s.par.aeTcoeffThreshold) ∧
      (mtype = 10 → ae = aeSum s mbx mby ⟨0, 0⟩) ∧
      (mtype ∈ [0, 2, 10] → mv = ⟨0, 0⟩) ∧
      (mtype ∈ [4, 5] → inWindow s mbx mby mv ∧ mv ≠ ⟨0, 0⟩ ∧ ae = aeSum s mbx mby mv) ∧
      (∀ k : Fin 396, pm[k] = if k.val = mby * (s.planeW.toNat / 16) + mbx then mv else s.prevMv[k]) ∧
      (∀ k : Fin 396, (st[k]).toNat = if k.val = mby * (s.planeW.toNat / 16) + mbx then
        (if mtype = 0 then 0 else min ((s.stale[k]).toNat + 1) 65535) else (s.stale[k]).toNat) ∧
      exec (.memtype mbx mby) s = .next { s with
        prevMv := pm,
        stale := st,
        res := #v[BitVec.ofNat 32 mtype, BitVec.ofInt 32 mv.h, BitVec.ofInt 32 mv.v, BitVec.ofNat 32 ae] }) ∧
    (s.planeW = 0 ∨ s.planeH = 0 → exec (.memtype mbx mby) s = .next (s.faulted .argumentError .memtype)) ∧
    (s.planeW ≠ 0 → s.planeH ≠ 0 → ¬ inPlane s mbx mby →
      exec (.memtype mbx mby) s = .next (s.faulted .boundsError .memtype))

/-- R210 to R213: past the skip test, the predictor is adopted when valid and at least as good as zero, the search
runs when the best exceeds the skip threshold and is adopted when strictly better, a refresh score above its threshold
gives intra, and else the best AE classifies the macroblock. -/
def Obligations.MemtypeFollowsSteps : Prop :=
  ∀ (s : State) (mbx mby mb : Nat) (p : Mv), s.status.fault = false → inPlane s mbx mby →
    mb = mby * (s.planeW.toNat / 16) + mbx → s.prevMv[mb]? = some p →
    (aeSum s mbx mby ⟨0, 0⟩ : Int) ≥ s.par.aeTcoeffThreshold →
    ∃ (b1 b2 : Nat × Mv) (stale : BitVec 16) (t : State), s.stale[mb]? = some stale ∧
      b1 = (if inWindow s mbx mby p ∧ aeSum s mbx mby p ≤ aeSum s mbx mby ⟨0, 0⟩ then (aeSum s mbx mby p, p)
        else (aeSum s mbx mby ⟨0, 0⟩, ⟨0, 0⟩)) ∧
      b2 = (if (b1.1 : Int) > s.par.aeTcoeffThreshold ∧
          (search s (Fin.ofNat 4 s.cfg.toNat) mbx mby p).ae < b1.1 then
          ((search s (Fin.ofNat 4 s.cfg.toNat) mbx mby p).ae, (search s (Fin.ofNat 4 s.cfg.toNat) mbx mby p).mv)
        else b1) ∧
      exec (.memtype mbx mby) s = .next t ∧
      t.res[3] = BitVec.ofNat 32 b2.1 ∧
      (t.res[0], t.res[1], t.res[2]) =
        (if refreshScore s.par stale.toNat b2.1 > s.par.refreshThreshold then (0, 0, 0)
        else if (b2.1 : Int) < s.par.aeTcoeffThreshold then (4, BitVec.ofInt 32 b2.2.h, BitVec.ofInt 32 b2.2.v)
        else if (b2.1 : Int) < s.par.aeInterThreshold then
          (if zeroMvClose s.par (aeSum s mbx mby ⟨0, 0⟩) b2.1 = true then (2, 0, 0)
          else (5, BitVec.ofInt 32 b2.2.h, BitVec.ofInt 32 b2.2.v))
        else (0, 0, 0))

/-- R219: MECLR clears every `PREVMV` and `STALE` entry and nothing else. -/
def Obligations.MeclrClearsMemory : Prop :=
  ∀ s : State, s.status.fault = false → ∃ (pm : Vector Mv 396) (st : Vector (BitVec 16) 396),
    (∀ k : Fin 396, pm[k] = ⟨0, 0⟩ ∧ st[k] = 0) ∧ exec .meclr s = .next { s with prevMv := pm, stale := st }

/-! ## Header framing (46_framing.md) -/

/-- R241, R249: PUTPIC writes the 20-bit start code, `TR`, `PTYPE` and the extension tail, 32 bits or 41, and changes
nothing else. The start codes are those of 30_encoding.md R86 unless the parameters say otherwise (log 18). -/
def Obligations.PutpicWritesHeader : Prop :=
  refCfg.psc = 0x00010 ∧ refCfg.gbsc = 0x0001 ∧
  ∀ (s : State) (tr : Nat) (ptype : BitVec 6) (e : Bool) (ext : Byte), s.status.fault = false → s.wpend.length < 8 →
    WritesBits s .putpic
      (bits 20 s.par.psc.toNat ++ bits 5 tr ++ bits 6 ptype.toNat ++ (if e then true :: bits 8 ext.toNat else []) ++ [false])
      id (exec (.putpic tr ptype e ext) s)

/-- R242, R249: PUTGOB writes the 16-bit start code, `GN`, `GQUANT` and the tail, then clears `LASTMV` and `MBADDR`; a
group number outside 1 to 12 raises `BoundsError`, then a `GQUANT` of 0 raises `ArgumentError`, before any bit. -/
def Obligations.PutgobWritesHeader : Prop :=
  ∀ (s : State) (gn gquant : Nat) (e : Bool) (ext : Byte), s.status.fault = false →
    (1 ≤ gn → gn ≤ 12 → gquant ≠ 0 → s.wpend.length < 8 →
      WritesBits s .putgob
        (bits 16 s.par.gbsc.toNat ++ bits 4 gn ++ bits 5 gquant ++ (if e then true :: bits 8 ext.toNat else []) ++ [false])
        (fun t => { t with lastMv := ⟨0, 0⟩, mbaddr := 0 }) (exec (.putgob gn gquant e ext) s)) ∧
    (gn < 1 ∨ gn > 12 → exec (.putgob gn gquant e ext) s = .next (s.faulted .boundsError .putgob)) ∧
    (1 ≤ gn → gn ≤ 12 → gquant = 0 → exec (.putgob gn gquant e ext) s = .next (s.faulted .argumentError .putgob))

/-- R240, R243, R244, R250: PUTMB writes the fields that the type carries, then sets `LASTMV` and adds the address
difference to `MBADDR`. The symbols of a vector are its differences from the predictor mod 32, horizontal first; the
predictor is `LASTMV`, and with `MVD_RESET_H261` (0,0) if the address difference is not 1 or the new address is 1, 12
or 23. -/
def Obligations.PutmbWritesHeader : Prop :=
  ∀ (s : State) (mba mtype mquant : Nat) (mvh mvv : Int) (cbp : Nat), s.status.fault = false → s.wpend.length < 8 →
    s.par.wf = true → headerOk s.par mba mtype mquant mvh mvv cbp → s.mbaddr.toNat + mba ≤ 33 →
    ∀ ph pv : Int,
    (ph, pv) = (if s.par.mvdResetH261 = true ∧ (mba ≠ 1 ∨ s.mbaddr.toNat + mba ∈ [1, 12, 23]) then (0, 0)
      else (s.lastMv.h.toInt, s.lastMv.v.toInt)) →
    WritesBits s .putmb
      (headerBits s.par ((mvh - ph) % 32).toNat ((mvv - pv) % 32).toNat mba mtype mquant cbp)
      (fun t => { t with
        lastMv := if (mtypeAttr s.par mtype).mv then ⟨BitVec.ofInt 5 mvh, BitVec.ofInt 5 mvv⟩ else ⟨0, 0⟩,
        mbaddr := BitVec.ofNat 6 (s.mbaddr.toNat + mba) })
      (exec (.putmb mba mtype mquant mvh mvv cbp) s)

/-- R243, R325: the checks of PUTMB in their order, each leaving everything but `STATUS` unchanged. -/
def Obligations.PutmbChecksInOrder : Prop :=
  ∀ (s : State) (mba mtype mquant : Nat) (mvh mvv : Int) (cbp : Nat), s.status.fault = false →
    (mtype > 9 → exec (.putmb mba mtype mquant mvh mvv cbp) s = .next (s.faulted .headerFramingError .putmb)) ∧
    (mtype ≤ 9 → (mba < 1 ∨ mba > 33 ∨ s.mbaddr.toNat + mba > 33) →
      exec (.putmb mba mtype mquant mvh mvv cbp) s = .next (s.faulted .boundsError .putmb)) ∧
    (mtype ≤ 9 → 1 ≤ mba → s.mbaddr.toNat + mba ≤ 33 → strayField (mtypeAttr s.par mtype) mquant mvh mvv cbp →
      exec (.putmb mba mtype mquant mvh mvv cbp) s = .next (s.faulted .headerFramingError .putmb)) ∧
    (mtype ≤ 9 → 1 ≤ mba → s.mbaddr.toNat + mba ≤ 33 → ¬ strayField (mtypeAttr s.par mtype) mquant mvh mvv cbp →
      (mtypeAttr s.par mtype).quant = true → mquant = 0 →
      exec (.putmb mba mtype mquant mvh mvv cbp) s = .next (s.faulted .argumentError .putmb)) ∧
    (mtype ≤ 9 → 1 ≤ mba → s.mbaddr.toNat + mba ≤ 33 → ¬ strayField (mtypeAttr s.par mtype) mquant mvh mvv cbp →
      ¬ ((mtypeAttr s.par mtype).quant = true ∧ mquant = 0) → (mtypeAttr s.par mtype).cbp = true → cbp = 0 →
      exec (.putmb mba mtype mquant mvh mvv cbp) s = .next (s.faulted .unencodableSymbol .putmb))

/-- R245: GETSC reads the 16-bit code unless it was already seen, clears `SCSEEN`, and returns the 4 bits after it;
another code raises `HeaderFramingError`, a group number above 12 `BoundsError`, and a source that ends first
`UnexpectedEof`, with `SCSEEN` cleared once the code is passed. -/
def Obligations.GetscReadsStartCode : Prop :=
  ∀ (s : State), s.status.fault = false →
    (∀ g ≤ 12, s.SourceHolds ((if s.scseen then [] else bits 16 s.par.gbsc.toNat) ++ bits 4 g) →
      exec .getsc s = .next { s with
        scseen := false,
        rpos := s.rpos + (if s.scseen then 4 else 20),
        res := s.res.set 0 (BitVec.ofNat 32 g) }) ∧
    (∀ g, 13 ≤ g → g ≤ 15 → s.SourceHolds ((if s.scseen then [] else bits 16 s.par.gbsc.toNat) ++ bits 4 g) →
      exec .getsc s = .next { s with
        scseen := false,
        rpos := s.rpos + (if s.scseen then 4 else 20),
        status := ⟨true, .boundsError, 0x58⟩ }) ∧
    (∀ c < 2 ^ 16, c ≠ s.par.gbsc.toNat → s.scseen = false → s.SourceHolds (bits 16 c) →
      exec .getsc s = .next { s with rpos := s.rpos + 16, status := ⟨true, .headerFramingError, 0x58⟩ }) ∧
    (s.scseen = false → s.rpos.toNat + 16 > 8 * s.src.length →
      exec .getsc s = .next { s with status := ⟨true, .unexpectedEof, 0x58⟩ }) ∧
    (s.scseen = false → s.SourceHolds (bits 16 s.par.gbsc.toNat) → s.rpos.toNat + 20 > 8 * s.src.length →
      exec .getsc s = .next { s with scseen := false, rpos := s.rpos + 16, status := ⟨true, .unexpectedEof, 0x58⟩ }) ∧
    (s.scseen = true → s.rpos.toNat + 4 > 8 * s.src.length →
      exec .getsc s = .next { s with scseen := false, status := ⟨true, .unexpectedEof, 0x58⟩ })

/-- R246, R249: GETPIC returns `TR`, `PTYPE` and the number of extension bytes, any number of them, and consumes the
header. A source that ends inside the header raises `UnexpectedEof`, and nothing but `STATUS` and `RPOS` changes: `RPOS`
goes past the fields that were whole and, in the tail, past a bit that announces a byte (60_exceptions.md R326(b)). -/
def Obligations.GetpicReadsHeader : Prop :=
  ∀ (s : State) (tr pt : Nat) (ext : List Byte), s.status.fault = false → tr < 32 → pt < 64 →
    (s.SourceHolds (bits 5 tr ++ bits 6 pt ++ tailBits ext) →
      exec .getpic s = .next { s with
        rpos := s.rpos + BitVec.ofNat 64 (12 + 9 * ext.length),
        res := #v[BitVec.ofNat 32 tr, BitVec.ofNat 32 pt, BitVec.ofNat 32 ext.length, s.res[3]] }) ∧
    (∀ pre, pre <+: bits 5 tr ++ bits 6 pt ++ tailBits ext → pre.length < 12 + 9 * ext.length → s.SourceEnds pre →
      exec .getpic s = .next ((s.consumed (if pre.length < 5 then 0 else if pre.length < 11 then 5
        else 11 + 9 * ((pre.length - 11) / 9) + min 1 ((pre.length - 11) % 9))).faulted .unexpectedEof .getpic))

/-- R247, R249: GETGOB returns `GQUANT` and the number of extension bytes, consumes the header, and clears `LASTMV`
and `MBADDR`. A source that ends inside the header raises `UnexpectedEof`, and nothing but `STATUS` and `RPOS` changes,
`LASTMV` and `MBADDR` included (60_exceptions.md R326(b)). -/
def Obligations.GetgobReadsHeader : Prop :=
  ∀ (s : State) (gq : Nat) (ext : List Byte), s.status.fault = false → gq < 32 →
    (s.SourceHolds (bits 5 gq ++ tailBits ext) →
      exec .getgob s = .next { s with
        rpos := s.rpos + BitVec.ofNat 64 (6 + 9 * ext.length),
        lastMv := ⟨0, 0⟩,
        mbaddr := 0,
        res := #v[BitVec.ofNat 32 gq, BitVec.ofNat 32 ext.length, s.res[2], s.res[3]] }) ∧
    (∀ pre, pre <+: bits 5 gq ++ tailBits ext → pre.length < 6 + 9 * ext.length → s.SourceEnds pre →
      exec .getgob s = .next ((s.consumed (if pre.length < 5 then 0
        else 5 + 9 * ((pre.length - 5) / 9) + min 1 ((pre.length - 5) % 9))).faulted .unexpectedEof .getgob))

/-- R244, R248, R250, R252: GETMB skips any stuffing and reads the fields the type carries, and no other, against the
predictor, which is `LASTMV`, and with `MVD_RESET_H261` (0,0) if the address difference is not 1 or the new address is
1, 12 or 23; it returns them and updates `LASTMV` and `MBADDR`. The start code sets `SCSEEN` and returns zeros. An
address above 33 raises `BoundsError`, and a source that ends inside the header or the start code `UnexpectedEof`, both
with nothing but `STATUS` and `RPOS` changed (60_exceptions.md R326(b)). -/
def Obligations.GetmbReadsHeader : Prop :=
  ∀ (s : State) (n : Nat), s.status.fault = false → s.par.wf = true →
    (∀ (mba mtype mquant : Nat) (mvh mvv : Int) (cbp : Nat), 1 ≤ mba → s.mbaddr.toNat + mba ≤ 33 → mtype ≤ 9 →
      mquant < 32 → cbp < 64 → fitsS5 mvh → fitsS5 mvv → ¬ strayField (mtypeAttr s.par mtype) mquant mvh mvv cbp →
      ((mtypeAttr s.par mtype).cbp = true → cbp ≠ 0) →
      ∀ ph pv : Int,
      (ph, pv) = (if s.par.mvdResetH261 = true ∧ (mba ≠ 1 ∨ s.mbaddr.toNat + mba ∈ [1, 12, 23]) then (0, 0)
        else (s.lastMv.h.toInt, s.lastMv.v.toInt)) →
      ∀ bs, bs = (List.replicate n (codeWord s.par.tblMba 34)).flatten ++
        headerBits s.par ((mvh - ph) % 32).toNat ((mvv - pv) % 32).toNat mba mtype mquant cbp →
      (s.SourceHolds bs →
        exec .getmb s = .next { s with
          rpos := s.rpos + BitVec.ofNat 64 bs.length,
          lastMv := if (mtypeAttr s.par mtype).mv then ⟨BitVec.ofInt 5 mvh, BitVec.ofInt 5 mvv⟩ else ⟨0, 0⟩,
          mbaddr := BitVec.ofNat 6 (s.mbaddr.toNat + mba),
          res := #v[BitVec.ofNat 32 mba, BitVec.ofNat 32 (mtype + 256 * mquant + 65536 * cbp),
            BitVec.ofInt 32 mvh, BitVec.ofInt 32 mvv] }) ∧
      (s.SourceEndsInside bs → ∃ k, s.rpos.toNat + k ≤ 8 * s.src.length ∧
        exec .getmb s = .next ((s.consumed k).faulted .unexpectedEof .getmb))) ∧
    (∀ bs, bs = (List.replicate n (codeWord s.par.tblMba 34)).flatten ++ codeWord s.par.tblMba 35 →
      (s.SourceHolds bs →
        exec .getmb s = .next { s with
          rpos := s.rpos + BitVec.ofNat 64 bs.length,
          scseen := true,
          res := #v[0, 0, 0, 0] }) ∧
      (s.SourceEndsInside bs → ∃ k, s.rpos.toNat + k ≤ 8 * s.src.length ∧
        exec .getmb s = .next ((s.consumed k).faulted .unexpectedEof .getmb))) ∧
    (∀ (a : Nat) (bs : List Bool), 1 ≤ a → a ≤ 33 → s.mbaddr.toNat + a > 33 →
      bs = (List.replicate n (codeWord s.par.tblMba 34)).flatten ++ codeWord s.par.tblMba a → s.SourceHolds bs →
      exec .getmb s = .next ((s.consumed bs.length).faulted .boundsError .getmb))

/-- R244, R253: a macroblock header that PUTMB writes is read back by GETMB with the same address difference, type and
fields, from a decoder whose parameters, predictor and address equal the encoder's; afterwards they are equal again. -/
def Obligations.MacroblockHeaderRoundTrip : Prop :=
  ∀ (s : State) (mba mtype mquant : Nat) (mvh mvv : Int) (cbp : Nat), s.status.fault = false → s.wpend.length < 8 →
    s.SinkAccepts → s.par.wf = true → headerOk s.par mba mtype mquant mvh mvv cbp → s.mbaddr.toNat + mba ≤ 33 →
    ∃ (bs : List Bool) (t : State), exec (.putmb mba mtype mquant mvh mvv cbp) s = .next t ∧
      t.written = s.written ++ bs ∧
      ∀ r : State, r.status.fault = false → r.par = s.par → r.lastMv = s.lastMv → r.mbaddr = s.mbaddr →
        r.SourceHolds bs → ∃ u, exec .getmb r = .next u ∧ u.status.fault = false ∧
          u.rpos = r.rpos + BitVec.ofNat 64 bs.length ∧ u.lastMv = t.lastMv ∧ u.mbaddr = t.mbaddr ∧
          u.res = #v[BitVec.ofNat 32 mba, BitVec.ofNat 32 (mtype + 256 * mquant + 65536 * cbp),
            BitVec.ofInt 32 mvh, BitVec.ofInt 32 mvv]

/-! ## What a command leaves alone -/

/-- 10_state.md R21: no command changes a result register that its rule does not name. -/
def Obligations.OtherResultsUnchanged : Prop :=
  ∀ (i : Instr) (s t : State) (j : Fin 4), exec i s = .next t → j ∉ resultsOf i → t.res[j] = s.res[j]

/-- 10_state.md R24, R38, 43_entropy.md R176: no command but RESET changes a block register other than its
destination; a command with no destination changes none. -/
def Obligations.OtherBlocksUnchanged : Prop :=
  ∀ (i : Instr) (s t : State) (b : Fin 8), i ≠ .reset → exec i s = .next t → blockOf i ≠ some b → t.blk[b] = s.blk[b]

/-- 40_bitchannel.md R108: no command but the writing ones and RESET changes `SINK`, `WPEND` or `WPOS`, and none but
the reading ones and RESET changes `RPOS`; no command changes both. `SINK` only grows, at its end, unless RESET
empties it (10_state.md R31). -/
def Obligations.ChannelSidesAreIndependent : Prop :=
  ∀ (i : Instr) (s t : State), i ≠ .reset → exec i s = .next t →
    (writesStream i = false → t.sink = s.sink ∧ t.wpend = s.wpend ∧ t.wpos = s.wpos) ∧
    (readsStream i = false → t.rpos = s.rpos) ∧ (writesStream i && readsStream i) = false ∧ s.sink <+: t.sink

/-- 10_state.md R27 to R30, R33, R34: `CFG`, `PLANE_W` and `PLANE_H` are changed by CSRW and RESET only, `LASTMV` and
`MBADDR` by PUTGOB, GETGOB, PUTMB, GETMB and RESET only, `SCSEEN` by GETSC, GETMB and RESET only, `PREVMV` and `STALE`
by MEMTYPE, MECLR and RESET only. -/
def Obligations.ControlStateUnchanged : Prop :=
  ∀ (i : Instr) (s t : State), i ≠ .reset → exec i s = .next t →
    (i.opcode ≠ .csrw → t.cfg = s.cfg ∧ t.planeW = s.planeW ∧ t.planeH = s.planeH) ∧
    (i.opcode ∉ [Opcode.putgob, .getgob, .putmb, .getmb] → t.lastMv = s.lastMv ∧ t.mbaddr = s.mbaddr) ∧
    (i.opcode ∉ [Opcode.getsc, .getmb] → t.scseen = s.scseen) ∧
    (i.opcode ∉ [Opcode.memtype, .meclr] → t.prevMv = s.prevMv ∧ t.stale = s.stale)

/-- 20_memory.md R50, R57, 45_motion.md R221: no command changes a byte of `CUR` or `REF`, or `SRC`. The rest is the
model's choice: none, RESET included, changes the words not yet taken or the index (log 24, log 3) or the parameters
(log 11), only BLKRD the response words (log 16), only RESET draws new free values (log 5, log 6). -/
def Obligations.HostMemoriesUnchanged : Prop :=
  ∀ (i : Instr) (s t : State), exec i s = .next t →
    (∀ a, Memory.read t.cur a = Memory.read s.cur a ∧ Memory.read t.ref a = Memory.read s.ref a) ∧
    t.cur = s.cur ∧ t.ref = s.ref ∧ t.src = s.src ∧ t.par = s.par ∧ t.queue = s.queue ∧ t.pc = s.pc ∧
    (i.opcode ≠ .blkrd → t.resp = s.resp) ∧ (i ≠ .reset → t.draws = s.draws)
end

