-- ==== Sys2Proof/Laws/Arith.lean ====
section
/-!
SUPPORT. Laws of the bit-string notation (00_scope.md R10) and of the narrowing helpers.
-/

namespace Sys2Proof.Machine

@[simp] theorem bits_zero (v : Nat) : bits 0 v = [] := rfl
theorem bits_succ (n v : Nat) : bits (n + 1) v = v.testBit n :: bits n v := rfl

@[simp] theorem bits_length (n v : Nat) : (bits n v).length = n := by
  induction n with
  | zero => rfl
  | succ n ih => simp [bits_succ, ih]

theorem ofBits_foldl (s : List Bool) (r : Nat) :
    s.foldl (fun r b => 2 * r + b.toNat) r = r * 2 ^ s.length + ofBits s := by
  induction s generalizing r with
  | nil => simp [ofBits]
  | cons b s ih =>
    have h1 := ih (2 * r + b.toNat)
    have h2 := ih b.toNat
    simp only [ofBits, List.foldl_cons, List.length_cons, Nat.mul_zero, Nat.zero_add] at *
    rw [h1, h2]
    ring

theorem ofBits_append (s t : List Bool) : ofBits (s ++ t) = ofBits s * 2 ^ t.length + ofBits t := by
  rw [ofBits, List.foldl_append, ofBits_foldl]
  rfl

@[simp] theorem ofBits_nil : ofBits [] = 0 := rfl

theorem ofBits_cons (b : Bool) (s : List Bool) : ofBits (b :: s) = b.toNat * 2 ^ s.length + ofBits s := by
  have h := ofBits_append [b] s
  simpa [ofBits] using h

theorem ofBits_lt (s : List Bool) : ofBits s < 2 ^ s.length := by
  induction s with
  | nil => simp
  | cons b s ih =>
    rw [ofBits_cons, List.length_cons, pow_succ]
    cases b <;> simp <;> omega

/-- The number that the low bits of `v` hold is `v mod 2^n` (00_scope.md R10). -/
theorem ofBits_bits (n v : Nat) : ofBits (bits n v) = v % 2 ^ n := by
  induction n with
  | zero => simp [Nat.mod_one]
  | succ n ih => rw [bits_succ, ofBits_cons, bits_length, ih, Nat.mod_pow_succ, Nat.toNat_testBit]; ring

theorem bits_mod (n v : Nat) : bits n (v % 2 ^ n) = bits n v := by
  suffices h : ∀ m, n ≤ m → bits n (v % 2 ^ m) = bits n v from h n le_rfl
  induction n with
  | zero => intros; rfl
  | succ n ih =>
    intro m hm
    rw [bits_succ, bits_succ, ih m (by omega), Nat.testBit_mod_two_pow]
    simp [show n < m by omega]

theorem testBit_ofBits_cons (b : Bool) (s : List Bool) : (ofBits (b :: s)).testBit s.length = b := by
  have hs := ofBits_lt s
  rw [ofBits_cons, Nat.testBit, Nat.shiftRight_eq_div_pow, Nat.mul_comm, Nat.mul_add_div (by positivity),
    Nat.div_eq_of_lt hs]
  cases b <;> simp

/-- A bit string is the bits of its number. -/
theorem bits_ofBits (s : List Bool) : bits s.length (ofBits s) = s := by
  induction s with
  | nil => rfl
  | cons b s ih =>
    rw [List.length_cons, bits_succ, testBit_ofBits_cons]
    congr 1
    rw [← bits_mod, ofBits_cons, Nat.mul_comm, Nat.mul_add_mod, bits_mod]
    exact ih

theorem bits_of_code {s : List Bool} {n c : Nat} (hn : s.length = n) (hc : ofBits s = c) : bits n c = s := by
  subst hn hc
  exact bits_ofBits s

theorem bits_append (m n v : Nat) : bits (m + n) v = bits m (v / 2 ^ n) ++ bits n v := by
  induction m with
  | zero => simp
  | succ m ih =>
    rw [show m + 1 + n = (m + n) + 1 by omega, bits_succ, bits_succ, ih]
    simp [Nat.testBit_div_two_pow, Nat.add_comm]

/-- A string is a prefix of a code word exactly when its number is the code's top bits. -/
theorem prefix_bits_iff (s : List Bool) (len code : Nat) (hc : code < 2 ^ len) :
    s <+: bits len code ↔ s.length ≤ len ∧ code / 2 ^ (len - s.length) = ofBits s := by
  constructor
  · intro h
    have hl : s.length ≤ len := by simpa using h.length_le
    refine ⟨hl, ?_⟩
    obtain ⟨t, ht⟩ := h
    have h1 : ofBits (s ++ t) = code := by rw [ht, ofBits_bits, Nat.mod_eq_of_lt hc]
    rw [ofBits_append] at h1
    have htl : t.length = len - s.length := by
      have := congrArg List.length ht
      simp at this
      omega
    rw [htl] at h1
    have hlt := ofBits_lt t
    rw [htl] at hlt
    rw [← h1, Nat.mul_comm, Nat.mul_add_div (by positivity), Nat.div_eq_of_lt hlt]
    omega
  · rintro ⟨hl, h⟩
    have h1 := bits_append s.length (len - s.length) code
    rw [show s.length + (len - s.length) = len by omega, h, bits_ofBits] at h1
    exact ⟨_, h1.symm⟩

@[simp] theorem wrap16_toInt (x : Int) (h1 : -32768 ≤ x) (h2 : x ≤ 32767) : (wrap16 x).toInt = x := by
  unfold wrap16
  rw [BitVec.toInt_ofInt]
  exact Int.bmod_eq_of_le (by omega) (by omega)

theorem clamp_bounds (lo hi x : Int) (h : lo ≤ hi) : lo ≤ clamp lo hi x ∧ clamp lo hi x ≤ hi := by
  unfold clamp; split
  · omega
  · split <;> omega

theorem clamp_of_mem (lo hi x : Int) (h1 : lo ≤ x) (h2 : x ≤ hi) : clamp lo hi x = x := by
  unfold clamp; split
  · omega
  · split <;> omega

end Sys2Proof.Machine
end

