-- ==== Sys2Proof/Laws/Pseudocode.lean ====
section
/-!
SUPPORT. Laws of the pseudocode computations: what each piece does when it is run on a state, and one way to prove
that a computation keeps a relation between the state before and the state after, whether it raises or not.
-/

namespace Sys2Proof.Machine

/-! Running a computation -/

theorem M.pure_run {α : Type} (a : α) (s : State) : (pure a : M α) s = .ok a s := rfl

theorem M.bind_run {α β : Type} (x : M α) (f : α → M β) (s : State) :
    (x >>= f) s = match x s with
      | .ok a t => f a t
      | .error c t => .error c t := by
  show EStateM.bind x f s = _
  unfold EStateM.bind
  cases x s <;> rfl

theorem M.bind_ok {α β : Type} {x : M α} {f : α → M β} {s t : State} {a : α} (h : x s = .ok a t) :
    (x >>= f) s = f a t := by rw [M.bind_run, h]

theorem M.bind_error {α β : Type} {x : M α} {f : α → M β} {s t : State} {c : Cause} (h : x s = .error c t) :
    (x >>= f) s = .error c t := by rw [M.bind_run, h]

theorem M.look_bind {α β : Type} (f : State → α) (g : α → M β) (s : State) :
    (M.look f >>= g) s = g (f s) s := rfl

theorem M.look_run {α : Type} (f : State → α) (s : State) : M.look f s = .ok (f s) s := rfl

theorem M.change_bind {β : Type} (f : State → State) (g : Unit → M β) (s : State) :
    (M.change f >>= g) s = g () (f s) := rfl

theorem M.change_run (f : State → State) (s : State) : M.change f s = .ok () (f s) := rfl

theorem M.pure_bind_run {α β : Type} (a : α) (g : α → M β) (s : State) : ((pure a : M α) >>= g) s = g a s := rfl

theorem M.raise_run {α : Type} (c : Cause) (s : State) : (M.raise c : M α) s = .error c s := rfl

theorem M.raise_bind {α β : Type} (c : Cause) (g : α → M β) (s : State) :
    ((M.raise c : M α) >>= g) s = .error c s := rfl

theorem M.raiseIf_bind {β : Type} (p : Prop) [Decidable p] (c : Cause) (g : Unit → M β) (s : State) :
    (M.raiseIf p c >>= g) s = if p then .error c s else g () s := by
  unfold M.raiseIf
  split <;> rfl

theorem M.raiseIf_run (p : Prop) [Decidable p] (c : Cause) (s : State) :
    M.raiseIf p c s = if p then .error c s else .ok () s := by
  unfold M.raiseIf
  split <;> rfl

theorem writeBlock_run (b : Fin 8) (v : Block) (s : State) : writeBlock b v s = .ok () (s.setBlock b v) := rfl
theorem writeRes_run (j : Fin 4) (v : Nat) (s : State) : writeRes j v s = .ok () (s.setRes j (BitVec.ofNat 32 v)) := rfl
theorem writeResInt_run (j : Fin 4) (v : Int) (s : State) :
    writeResInt j v s = .ok () (s.setRes j (BitVec.ofInt 32 v)) := rfl
theorem writeRes_bind {β : Type} (j : Fin 4) (v : Nat) (g : Unit → M β) (s : State) :
    (writeRes j v >>= g) s = g () (s.setRes j (BitVec.ofNat 32 v)) := rfl
theorem writeResInt_bind {β : Type} (j : Fin 4) (v : Int) (g : Unit → M β) (s : State) :
    (writeResInt j v >>= g) s = g () (s.setRes j (BitVec.ofInt 32 v)) := rfl
theorem writeBlock_bind {β : Type} (b : Fin 8) (v : Block) (g : Unit → M β) (s : State) :
    (writeBlock b v >>= g) s = g () (s.setBlock b v) := rfl

/-! Running a command -/

/-- An unfaulted engine whose pseudocode ends normally: the command completes with the pseudocode's state. -/
theorem gated_ok {op : Opcode} {body : M Unit} {s t : State} (hf : s.status.fault = false)
    (h : body s = .ok () t) : gated op body s = .next t := by
  simp [gated, hf, h, finish]

/-- An unfaulted engine whose pseudocode raises: the fault is taken in the state of the raise. -/
theorem gated_error {op : Opcode} {body : M Unit} {s t : State} {c : Cause} (hf : s.status.fault = false)
    (h : body s = .error c t) : gated op body s = .next (t.raiseFault c op.code) := by
  simp [gated, hf, h, finish]

/-- In the faulted state a gated command has no effect (47_system.md R280). -/
theorem gated_faulted {op : Opcode} {body : M Unit} {s : State} (hf : s.status.fault = true) :
    gated op body s = .next s := by
  simp [gated, hf]

theorem ungated_ok {op : Opcode} {body : M Unit} {s t : State} (h : body s = .ok () t) :
    ungated op body s = .next t := by
  simp [ungated, h, finish]

theorem ungated_error {op : Opcode} {body : M Unit} {s t : State} {c : Cause} (h : body s = .error c t) :
    ungated op body s = .next (t.raiseFault c op.code) := by
  simp [ungated, h, finish]

/-! Relations that a computation keeps -/

/-- The state in which a computation ended, normally or by a raise. -/
def endState {α : Type} : EStateM.Result Cause State α → State
  | .ok _ t => t
  | .error _ t => t

/-- Every run of `x` relates the state before to the state after by `P`. -/
def Keeps (P : State → State → Prop) {α : Type} (x : M α) : Prop := ∀ s, P s (endState (x s))

/-- A relation that computations can be composed over. -/
structure Composes (P : State → State → Prop) : Prop where
  refl : ∀ s, P s s
  trans : ∀ s t u, P s t → P t u → P s u

theorem Keeps.pure {P : State → State → Prop} (hP : Composes P) {α : Type} (a : α) : Keeps P (pure a : M α) :=
  fun s => hP.refl s

theorem Keeps.raise {P : State → State → Prop} (hP : Composes P) {α : Type} (c : Cause) :
    Keeps P (M.raise c : M α) := fun s => hP.refl s

theorem Keeps.look {P : State → State → Prop} (hP : Composes P) {α : Type} (f : State → α) :
    Keeps P (M.look f) := fun s => hP.refl s

theorem Keeps.raiseIf {P : State → State → Prop} (hP : Composes P) (p : Prop) [Decidable p] (c : Cause) :
    Keeps P (M.raiseIf p c) := by
  intro s
  rw [M.raiseIf_run]
  split <;> exact hP.refl s

theorem Keeps.change {P : State → State → Prop} {f : State → State} (h : ∀ s, P s (f s)) : Keeps P (M.change f) := h

theorem Keeps.bind {P : State → State → Prop} (hP : Composes P) {α β : Type} {x : M α} {f : α → M β}
    (hx : Keeps P x) (hf : ∀ a, Keeps P (f a)) : Keeps P (x >>= f) := by
  intro s
  have h := hx s
  rw [M.bind_run]
  cases hxs : x s with
  | ok a t =>
    rw [hxs] at h
    exact hP.trans _ _ _ h (hf a t)
  | error c t =>
    rw [hxs] at h
    exact h

theorem Keeps.ite {P : State → State → Prop} {α : Type} {p : Prop} [Decidable p] {x y : M α}
    (hx : Keeps P x) (hy : Keeps P y) : Keeps P (if p then x else y) := by
  split
  · exact hx
  · exact hy

/-- After a check that passed, its condition is false. -/
theorem Keeps.raiseIf_bind {P : State → State → Prop} (hP : Composes P) {p : Prop} [Decidable p] {c : Cause}
    {β : Type} {f : Unit → M β} (h : ¬p → Keeps P (f ())) : Keeps P (M.raiseIf p c >>= f) := by
  intro s
  rw [M.raiseIf_bind]
  split
  · exact hP.refl s
  · rename_i hp
    exact h hp s

/-- After a look, the value is that of the state it was taken in. -/
theorem Keeps.look_bind {P : State → State → Prop} {α β : Type} {g : State → α} {f : α → M β}
    (h : ∀ s, P s (endState (f (g s) s))) : Keeps P (M.look g >>= f) := h

/-- A computation keeps a relation from one state to the state it ends in, if its first part does nothing there. -/
theorem endState_bind {P : State → State → Prop} {α β : Type} {x : M α} {f : α → M β} {s : State}
    (hx : ∀ c t, x s = .error c t → P s t) (hf : ∀ a t, x s = .ok a t → P s (endState (f a t))) :
    P s (endState ((x >>= f) s)) := by
  rw [M.bind_run]
  cases h : x s with
  | ok a t => exact hf a t h
  | error c t => exact hx c t h

end Sys2Proof.Machine
end

