-- ==== Sys2Proof/Laws/State.lean ====
section
/-!
SUPPORT. One lemma for each field of the state after each named update.
-/

namespace Sys2Proof.Machine

section Updates

variable (s : State)

/-! `setBlock` -/

@[simp] theorem State.setBlock_blk (b : Fin 8) (v : Block) : (s.setBlock b v).blk = s.blk.set b v := rfl
@[simp] theorem State.setBlock_res (b : Fin 8) (v : Block) : (s.setBlock b v).res = s.res := rfl
@[simp] theorem State.setBlock_status (b : Fin 8) (v : Block) : (s.setBlock b v).status = s.status := rfl
@[simp] theorem State.setBlock_cfg (b : Fin 8) (v : Block) : (s.setBlock b v).cfg = s.cfg := rfl
@[simp] theorem State.setBlock_planeW (b : Fin 8) (v : Block) : (s.setBlock b v).planeW = s.planeW := rfl
@[simp] theorem State.setBlock_planeH (b : Fin 8) (v : Block) : (s.setBlock b v).planeH = s.planeH := rfl
@[simp] theorem State.setBlock_lastMv (b : Fin 8) (v : Block) : (s.setBlock b v).lastMv = s.lastMv := rfl
@[simp] theorem State.setBlock_mbaddr (b : Fin 8) (v : Block) : (s.setBlock b v).mbaddr = s.mbaddr := rfl
@[simp] theorem State.setBlock_scseen (b : Fin 8) (v : Block) : (s.setBlock b v).scseen = s.scseen := rfl
@[simp] theorem State.setBlock_sink (b : Fin 8) (v : Block) : (s.setBlock b v).sink = s.sink := rfl
@[simp] theorem State.setBlock_wpend (b : Fin 8) (v : Block) : (s.setBlock b v).wpend = s.wpend := rfl
@[simp] theorem State.setBlock_wpos (b : Fin 8) (v : Block) : (s.setBlock b v).wpos = s.wpos := rfl
@[simp] theorem State.setBlock_rpos (b : Fin 8) (v : Block) : (s.setBlock b v).rpos = s.rpos := rfl
@[simp] theorem State.setBlock_prevMv (b : Fin 8) (v : Block) : (s.setBlock b v).prevMv = s.prevMv := rfl
@[simp] theorem State.setBlock_stale (b : Fin 8) (v : Block) : (s.setBlock b v).stale = s.stale := rfl
@[simp] theorem State.setBlock_cur (b : Fin 8) (v : Block) : (s.setBlock b v).cur = s.cur := rfl
@[simp] theorem State.setBlock_ref (b : Fin 8) (v : Block) : (s.setBlock b v).ref = s.ref := rfl
@[simp] theorem State.setBlock_src (b : Fin 8) (v : Block) : (s.setBlock b v).src = s.src := rfl
@[simp] theorem State.setBlock_queue (b : Fin 8) (v : Block) : (s.setBlock b v).queue = s.queue := rfl
@[simp] theorem State.setBlock_pc (b : Fin 8) (v : Block) : (s.setBlock b v).pc = s.pc := rfl
@[simp] theorem State.setBlock_resp (b : Fin 8) (v : Block) : (s.setBlock b v).resp = s.resp := rfl
@[simp] theorem State.setBlock_sinkScript (b : Fin 8) (v : Block) : (s.setBlock b v).sinkScript = s.sinkScript := rfl
@[simp] theorem State.setBlock_draws (b : Fin 8) (v : Block) : (s.setBlock b v).draws = s.draws := rfl
@[simp] theorem State.setBlock_par (b : Fin 8) (v : Block) : (s.setBlock b v).par = s.par := rfl

/-! `setRes` -/

@[simp] theorem State.setRes_blk (j : Fin 4) (v : Word) : (s.setRes j v).blk = s.blk := rfl
@[simp] theorem State.setRes_res (j : Fin 4) (v : Word) : (s.setRes j v).res = s.res.set j v := rfl
@[simp] theorem State.setRes_status (j : Fin 4) (v : Word) : (s.setRes j v).status = s.status := rfl
@[simp] theorem State.setRes_cfg (j : Fin 4) (v : Word) : (s.setRes j v).cfg = s.cfg := rfl
@[simp] theorem State.setRes_planeW (j : Fin 4) (v : Word) : (s.setRes j v).planeW = s.planeW := rfl
@[simp] theorem State.setRes_planeH (j : Fin 4) (v : Word) : (s.setRes j v).planeH = s.planeH := rfl
@[simp] theorem State.setRes_lastMv (j : Fin 4) (v : Word) : (s.setRes j v).lastMv = s.lastMv := rfl
@[simp] theorem State.setRes_mbaddr (j : Fin 4) (v : Word) : (s.setRes j v).mbaddr = s.mbaddr := rfl
@[simp] theorem State.setRes_scseen (j : Fin 4) (v : Word) : (s.setRes j v).scseen = s.scseen := rfl
@[simp] theorem State.setRes_sink (j : Fin 4) (v : Word) : (s.setRes j v).sink = s.sink := rfl
@[simp] theorem State.setRes_wpend (j : Fin 4) (v : Word) : (s.setRes j v).wpend = s.wpend := rfl
@[simp] theorem State.setRes_wpos (j : Fin 4) (v : Word) : (s.setRes j v).wpos = s.wpos := rfl
@[simp] theorem State.setRes_rpos (j : Fin 4) (v : Word) : (s.setRes j v).rpos = s.rpos := rfl
@[simp] theorem State.setRes_prevMv (j : Fin 4) (v : Word) : (s.setRes j v).prevMv = s.prevMv := rfl
@[simp] theorem State.setRes_stale (j : Fin 4) (v : Word) : (s.setRes j v).stale = s.stale := rfl
@[simp] theorem State.setRes_cur (j : Fin 4) (v : Word) : (s.setRes j v).cur = s.cur := rfl
@[simp] theorem State.setRes_ref (j : Fin 4) (v : Word) : (s.setRes j v).ref = s.ref := rfl
@[simp] theorem State.setRes_src (j : Fin 4) (v : Word) : (s.setRes j v).src = s.src := rfl
@[simp] theorem State.setRes_queue (j : Fin 4) (v : Word) : (s.setRes j v).queue = s.queue := rfl
@[simp] theorem State.setRes_pc (j : Fin 4) (v : Word) : (s.setRes j v).pc = s.pc := rfl
@[simp] theorem State.setRes_resp (j : Fin 4) (v : Word) : (s.setRes j v).resp = s.resp := rfl
@[simp] theorem State.setRes_sinkScript (j : Fin 4) (v : Word) : (s.setRes j v).sinkScript = s.sinkScript := rfl
@[simp] theorem State.setRes_draws (j : Fin 4) (v : Word) : (s.setRes j v).draws = s.draws := rfl
@[simp] theorem State.setRes_par (j : Fin 4) (v : Word) : (s.setRes j v).par = s.par := rfl

/-! `withQueue` -/

@[simp] theorem State.withQueue_blk (q : List Word) : (s.withQueue q).blk = s.blk := rfl
@[simp] theorem State.withQueue_res (q : List Word) : (s.withQueue q).res = s.res := rfl
@[simp] theorem State.withQueue_status (q : List Word) : (s.withQueue q).status = s.status := rfl
@[simp] theorem State.withQueue_cfg (q : List Word) : (s.withQueue q).cfg = s.cfg := rfl
@[simp] theorem State.withQueue_planeW (q : List Word) : (s.withQueue q).planeW = s.planeW := rfl
@[simp] theorem State.withQueue_planeH (q : List Word) : (s.withQueue q).planeH = s.planeH := rfl
@[simp] theorem State.withQueue_lastMv (q : List Word) : (s.withQueue q).lastMv = s.lastMv := rfl
@[simp] theorem State.withQueue_mbaddr (q : List Word) : (s.withQueue q).mbaddr = s.mbaddr := rfl
@[simp] theorem State.withQueue_scseen (q : List Word) : (s.withQueue q).scseen = s.scseen := rfl
@[simp] theorem State.withQueue_sink (q : List Word) : (s.withQueue q).sink = s.sink := rfl
@[simp] theorem State.withQueue_wpend (q : List Word) : (s.withQueue q).wpend = s.wpend := rfl
@[simp] theorem State.withQueue_wpos (q : List Word) : (s.withQueue q).wpos = s.wpos := rfl
@[simp] theorem State.withQueue_rpos (q : List Word) : (s.withQueue q).rpos = s.rpos := rfl
@[simp] theorem State.withQueue_prevMv (q : List Word) : (s.withQueue q).prevMv = s.prevMv := rfl
@[simp] theorem State.withQueue_stale (q : List Word) : (s.withQueue q).stale = s.stale := rfl
@[simp] theorem State.withQueue_cur (q : List Word) : (s.withQueue q).cur = s.cur := rfl
@[simp] theorem State.withQueue_ref (q : List Word) : (s.withQueue q).ref = s.ref := rfl
@[simp] theorem State.withQueue_src (q : List Word) : (s.withQueue q).src = s.src := rfl
@[simp] theorem State.withQueue_queue (q : List Word) : (s.withQueue q).queue = q := rfl
@[simp] theorem State.withQueue_pc (q : List Word) : (s.withQueue q).pc = s.pc := rfl
@[simp] theorem State.withQueue_resp (q : List Word) : (s.withQueue q).resp = s.resp := rfl
@[simp] theorem State.withQueue_sinkScript (q : List Word) : (s.withQueue q).sinkScript = s.sinkScript := rfl
@[simp] theorem State.withQueue_draws (q : List Word) : (s.withQueue q).draws = s.draws := rfl
@[simp] theorem State.withQueue_par (q : List Word) : (s.withQueue q).par = s.par := rfl

/-! `afterHeader` -/

@[simp] theorem State.afterHeader_blk (mv : Mv5) (a : Nat) : (s.afterHeader mv a).blk = s.blk := rfl
@[simp] theorem State.afterHeader_res (mv : Mv5) (a : Nat) : (s.afterHeader mv a).res = s.res := rfl
@[simp] theorem State.afterHeader_status (mv : Mv5) (a : Nat) : (s.afterHeader mv a).status = s.status := rfl
@[simp] theorem State.afterHeader_cfg (mv : Mv5) (a : Nat) : (s.afterHeader mv a).cfg = s.cfg := rfl
@[simp] theorem State.afterHeader_planeW (mv : Mv5) (a : Nat) : (s.afterHeader mv a).planeW = s.planeW := rfl
@[simp] theorem State.afterHeader_planeH (mv : Mv5) (a : Nat) : (s.afterHeader mv a).planeH = s.planeH := rfl
@[simp] theorem State.afterHeader_lastMv (mv : Mv5) (a : Nat) : (s.afterHeader mv a).lastMv = mv := rfl
@[simp] theorem State.afterHeader_mbaddr (mv : Mv5) (a : Nat) : (s.afterHeader mv a).mbaddr = BitVec.ofNat 6 a := rfl
@[simp] theorem State.afterHeader_scseen (mv : Mv5) (a : Nat) : (s.afterHeader mv a).scseen = s.scseen := rfl
@[simp] theorem State.afterHeader_sink (mv : Mv5) (a : Nat) : (s.afterHeader mv a).sink = s.sink := rfl
@[simp] theorem State.afterHeader_wpend (mv : Mv5) (a : Nat) : (s.afterHeader mv a).wpend = s.wpend := rfl
@[simp] theorem State.afterHeader_wpos (mv : Mv5) (a : Nat) : (s.afterHeader mv a).wpos = s.wpos := rfl
@[simp] theorem State.afterHeader_rpos (mv : Mv5) (a : Nat) : (s.afterHeader mv a).rpos = s.rpos := rfl
@[simp] theorem State.afterHeader_prevMv (mv : Mv5) (a : Nat) : (s.afterHeader mv a).prevMv = s.prevMv := rfl
@[simp] theorem State.afterHeader_stale (mv : Mv5) (a : Nat) : (s.afterHeader mv a).stale = s.stale := rfl
@[simp] theorem State.afterHeader_cur (mv : Mv5) (a : Nat) : (s.afterHeader mv a).cur = s.cur := rfl
@[simp] theorem State.afterHeader_ref (mv : Mv5) (a : Nat) : (s.afterHeader mv a).ref = s.ref := rfl
@[simp] theorem State.afterHeader_src (mv : Mv5) (a : Nat) : (s.afterHeader mv a).src = s.src := rfl
@[simp] theorem State.afterHeader_queue (mv : Mv5) (a : Nat) : (s.afterHeader mv a).queue = s.queue := rfl
@[simp] theorem State.afterHeader_pc (mv : Mv5) (a : Nat) : (s.afterHeader mv a).pc = s.pc := rfl
@[simp] theorem State.afterHeader_resp (mv : Mv5) (a : Nat) : (s.afterHeader mv a).resp = s.resp := rfl
@[simp] theorem State.afterHeader_sinkScript (mv : Mv5) (a : Nat) :
    (s.afterHeader mv a).sinkScript = s.sinkScript := rfl
@[simp] theorem State.afterHeader_draws (mv : Mv5) (a : Nat) : (s.afterHeader mv a).draws = s.draws := rfl
@[simp] theorem State.afterHeader_par (mv : Mv5) (a : Nat) : (s.afterHeader mv a).par = s.par := rfl

/-! `recordDecision` -/

@[simp] theorem State.recordDecision_blk (mb : Nat) (d : MtypeDecision) : (s.recordDecision mb d).blk = s.blk := rfl
@[simp] theorem State.recordDecision_res (mb : Nat) (d : MtypeDecision) : (s.recordDecision mb d).res = s.res := rfl
@[simp] theorem State.recordDecision_status (mb : Nat) (d : MtypeDecision) :
    (s.recordDecision mb d).status = s.status := rfl
@[simp] theorem State.recordDecision_cfg (mb : Nat) (d : MtypeDecision) : (s.recordDecision mb d).cfg = s.cfg := rfl
@[simp] theorem State.recordDecision_planeW (mb : Nat) (d : MtypeDecision) :
    (s.recordDecision mb d).planeW = s.planeW := rfl
@[simp] theorem State.recordDecision_planeH (mb : Nat) (d : MtypeDecision) :
    (s.recordDecision mb d).planeH = s.planeH := rfl
@[simp] theorem State.recordDecision_lastMv (mb : Nat) (d : MtypeDecision) :
    (s.recordDecision mb d).lastMv = s.lastMv := rfl
@[simp] theorem State.recordDecision_mbaddr (mb : Nat) (d : MtypeDecision) :
    (s.recordDecision mb d).mbaddr = s.mbaddr := rfl
@[simp] theorem State.recordDecision_scseen (mb : Nat) (d : MtypeDecision) :
    (s.recordDecision mb d).scseen = s.scseen := rfl
@[simp] theorem State.recordDecision_sink (mb : Nat) (d : MtypeDecision) :
    (s.recordDecision mb d).sink = s.sink := rfl
@[simp] theorem State.recordDecision_wpend (mb : Nat) (d : MtypeDecision) :
    (s.recordDecision mb d).wpend = s.wpend := rfl
@[simp] theorem State.recordDecision_wpos (mb : Nat) (d : MtypeDecision) :
    (s.recordDecision mb d).wpos = s.wpos := rfl
@[simp] theorem State.recordDecision_rpos (mb : Nat) (d : MtypeDecision) :
    (s.recordDecision mb d).rpos = s.rpos := rfl
@[simp] theorem State.recordDecision_prevMv (mb : Nat) (d : MtypeDecision) :
    (s.recordDecision mb d).prevMv = s.prevMv.setIfInBounds mb d.mv := rfl
@[simp] theorem State.recordDecision_stale (mb : Nat) (d : MtypeDecision) :
    (s.recordDecision mb d).stale = s.stale.setIfInBounds mb (BitVec.ofNat 16 (newStale d.mtype (s.staleAt mb))) := rfl
@[simp] theorem State.recordDecision_cur (mb : Nat) (d : MtypeDecision) : (s.recordDecision mb d).cur = s.cur := rfl
@[simp] theorem State.recordDecision_ref (mb : Nat) (d : MtypeDecision) : (s.recordDecision mb d).ref = s.ref := rfl
@[simp] theorem State.recordDecision_src (mb : Nat) (d : MtypeDecision) : (s.recordDecision mb d).src = s.src := rfl
@[simp] theorem State.recordDecision_queue (mb : Nat) (d : MtypeDecision) :
    (s.recordDecision mb d).queue = s.queue := rfl
@[simp] theorem State.recordDecision_pc (mb : Nat) (d : MtypeDecision) : (s.recordDecision mb d).pc = s.pc := rfl
@[simp] theorem State.recordDecision_resp (mb : Nat) (d : MtypeDecision) :
    (s.recordDecision mb d).resp = s.resp := rfl
@[simp] theorem State.recordDecision_sinkScript (mb : Nat) (d : MtypeDecision) :
    (s.recordDecision mb d).sinkScript = s.sinkScript := rfl
@[simp] theorem State.recordDecision_draws (mb : Nat) (d : MtypeDecision) :
    (s.recordDecision mb d).draws = s.draws := rfl
@[simp] theorem State.recordDecision_par (mb : Nat) (d : MtypeDecision) : (s.recordDecision mb d).par = s.par := rfl

/-! `clearMotion` -/

@[simp] theorem State.clearMotion_blk : (s.clearMotion).blk = s.blk := rfl
@[simp] theorem State.clearMotion_res : (s.clearMotion).res = s.res := rfl
@[simp] theorem State.clearMotion_status : (s.clearMotion).status = s.status := rfl
@[simp] theorem State.clearMotion_cfg : (s.clearMotion).cfg = s.cfg := rfl
@[simp] theorem State.clearMotion_planeW : (s.clearMotion).planeW = s.planeW := rfl
@[simp] theorem State.clearMotion_planeH : (s.clearMotion).planeH = s.planeH := rfl
@[simp] theorem State.clearMotion_lastMv : (s.clearMotion).lastMv = s.lastMv := rfl
@[simp] theorem State.clearMotion_mbaddr : (s.clearMotion).mbaddr = s.mbaddr := rfl
@[simp] theorem State.clearMotion_scseen : (s.clearMotion).scseen = s.scseen := rfl
@[simp] theorem State.clearMotion_sink : (s.clearMotion).sink = s.sink := rfl
@[simp] theorem State.clearMotion_wpend : (s.clearMotion).wpend = s.wpend := rfl
@[simp] theorem State.clearMotion_wpos : (s.clearMotion).wpos = s.wpos := rfl
@[simp] theorem State.clearMotion_rpos : (s.clearMotion).rpos = s.rpos := rfl
@[simp] theorem State.clearMotion_prevMv : (s.clearMotion).prevMv = Vector.replicate 396 Mv.zero := rfl
@[simp] theorem State.clearMotion_stale : (s.clearMotion).stale = Vector.replicate 396 0 := rfl
@[simp] theorem State.clearMotion_cur : (s.clearMotion).cur = s.cur := rfl
@[simp] theorem State.clearMotion_ref : (s.clearMotion).ref = s.ref := rfl
@[simp] theorem State.clearMotion_src : (s.clearMotion).src = s.src := rfl
@[simp] theorem State.clearMotion_queue : (s.clearMotion).queue = s.queue := rfl
@[simp] theorem State.clearMotion_pc : (s.clearMotion).pc = s.pc := rfl
@[simp] theorem State.clearMotion_resp : (s.clearMotion).resp = s.resp := rfl
@[simp] theorem State.clearMotion_sinkScript : (s.clearMotion).sinkScript = s.sinkScript := rfl
@[simp] theorem State.clearMotion_draws : (s.clearMotion).draws = s.draws := rfl
@[simp] theorem State.clearMotion_par : (s.clearMotion).par = s.par := rfl

/-! `consumed` -/

@[simp] theorem State.consumed_blk (n : Nat) : (s.consumed n).blk = s.blk := rfl
@[simp] theorem State.consumed_res (n : Nat) : (s.consumed n).res = s.res := rfl
@[simp] theorem State.consumed_status (n : Nat) : (s.consumed n).status = s.status := rfl
@[simp] theorem State.consumed_cfg (n : Nat) : (s.consumed n).cfg = s.cfg := rfl
@[simp] theorem State.consumed_planeW (n : Nat) : (s.consumed n).planeW = s.planeW := rfl
@[simp] theorem State.consumed_planeH (n : Nat) : (s.consumed n).planeH = s.planeH := rfl
@[simp] theorem State.consumed_lastMv (n : Nat) : (s.consumed n).lastMv = s.lastMv := rfl
@[simp] theorem State.consumed_mbaddr (n : Nat) : (s.consumed n).mbaddr = s.mbaddr := rfl
@[simp] theorem State.consumed_scseen (n : Nat) : (s.consumed n).scseen = s.scseen := rfl
@[simp] theorem State.consumed_sink (n : Nat) : (s.consumed n).sink = s.sink := rfl
@[simp] theorem State.consumed_wpend (n : Nat) : (s.consumed n).wpend = s.wpend := rfl
@[simp] theorem State.consumed_wpos (n : Nat) : (s.consumed n).wpos = s.wpos := rfl
@[simp] theorem State.consumed_rpos (n : Nat) : (s.consumed n).rpos = s.rpos + BitVec.ofNat 64 n := rfl
@[simp] theorem State.consumed_prevMv (n : Nat) : (s.consumed n).prevMv = s.prevMv := rfl
@[simp] theorem State.consumed_stale (n : Nat) : (s.consumed n).stale = s.stale := rfl
@[simp] theorem State.consumed_cur (n : Nat) : (s.consumed n).cur = s.cur := rfl
@[simp] theorem State.consumed_ref (n : Nat) : (s.consumed n).ref = s.ref := rfl
@[simp] theorem State.consumed_src (n : Nat) : (s.consumed n).src = s.src := rfl
@[simp] theorem State.consumed_queue (n : Nat) : (s.consumed n).queue = s.queue := rfl
@[simp] theorem State.consumed_pc (n : Nat) : (s.consumed n).pc = s.pc := rfl
@[simp] theorem State.consumed_resp (n : Nat) : (s.consumed n).resp = s.resp := rfl
@[simp] theorem State.consumed_sinkScript (n : Nat) : (s.consumed n).sinkScript = s.sinkScript := rfl
@[simp] theorem State.consumed_draws (n : Nat) : (s.consumed n).draws = s.draws := rfl
@[simp] theorem State.consumed_par (n : Nat) : (s.consumed n).par = s.par := rfl

/-! `faulted` -/

@[simp] theorem State.faulted_blk (c : Cause) (op : Opcode) : (s.faulted c op).blk = s.blk := rfl
@[simp] theorem State.faulted_res (c : Cause) (op : Opcode) : (s.faulted c op).res = s.res := rfl
@[simp] theorem State.faulted_status (c : Cause) (op : Opcode) : (s.faulted c op).status = ⟨true, c, op.code⟩ := rfl
@[simp] theorem State.faulted_cfg (c : Cause) (op : Opcode) : (s.faulted c op).cfg = s.cfg := rfl
@[simp] theorem State.faulted_planeW (c : Cause) (op : Opcode) : (s.faulted c op).planeW = s.planeW := rfl
@[simp] theorem State.faulted_planeH (c : Cause) (op : Opcode) : (s.faulted c op).planeH = s.planeH := rfl
@[simp] theorem State.faulted_lastMv (c : Cause) (op : Opcode) : (s.faulted c op).lastMv = s.lastMv := rfl
@[simp] theorem State.faulted_mbaddr (c : Cause) (op : Opcode) : (s.faulted c op).mbaddr = s.mbaddr := rfl
@[simp] theorem State.faulted_scseen (c : Cause) (op : Opcode) : (s.faulted c op).scseen = s.scseen := rfl
@[simp] theorem State.faulted_sink (c : Cause) (op : Opcode) : (s.faulted c op).sink = s.sink := rfl
@[simp] theorem State.faulted_wpend (c : Cause) (op : Opcode) : (s.faulted c op).wpend = s.wpend := rfl
@[simp] theorem State.faulted_wpos (c : Cause) (op : Opcode) : (s.faulted c op).wpos = s.wpos := rfl
@[simp] theorem State.faulted_rpos (c : Cause) (op : Opcode) : (s.faulted c op).rpos = s.rpos := rfl
@[simp] theorem State.faulted_prevMv (c : Cause) (op : Opcode) : (s.faulted c op).prevMv = s.prevMv := rfl
@[simp] theorem State.faulted_stale (c : Cause) (op : Opcode) : (s.faulted c op).stale = s.stale := rfl
@[simp] theorem State.faulted_cur (c : Cause) (op : Opcode) : (s.faulted c op).cur = s.cur := rfl
@[simp] theorem State.faulted_ref (c : Cause) (op : Opcode) : (s.faulted c op).ref = s.ref := rfl
@[simp] theorem State.faulted_src (c : Cause) (op : Opcode) : (s.faulted c op).src = s.src := rfl
@[simp] theorem State.faulted_queue (c : Cause) (op : Opcode) : (s.faulted c op).queue = s.queue := rfl
@[simp] theorem State.faulted_pc (c : Cause) (op : Opcode) : (s.faulted c op).pc = s.pc := rfl
@[simp] theorem State.faulted_resp (c : Cause) (op : Opcode) : (s.faulted c op).resp = s.resp := rfl
@[simp] theorem State.faulted_sinkScript (c : Cause) (op : Opcode) : (s.faulted c op).sinkScript = s.sinkScript := rfl
@[simp] theorem State.faulted_draws (c : Cause) (op : Opcode) : (s.faulted c op).draws = s.draws := rfl
@[simp] theorem State.faulted_par (c : Cause) (op : Opcode) : (s.faulted c op).par = s.par := rfl

/-! `resetEngine` -/

@[simp] theorem State.resetEngine_blk : (s.resetEngine).blk = unwrittenBlocks s.draws := rfl
@[simp] theorem State.resetEngine_res : (s.resetEngine).res = Vector.replicate 4 0 := rfl
@[simp] theorem State.resetEngine_status : (s.resetEngine).status = Status.clear := rfl
@[simp] theorem State.resetEngine_cfg : (s.resetEngine).cfg = 0 := rfl
@[simp] theorem State.resetEngine_planeW : (s.resetEngine).planeW = 0 := rfl
@[simp] theorem State.resetEngine_planeH : (s.resetEngine).planeH = 0 := rfl
@[simp] theorem State.resetEngine_lastMv : (s.resetEngine).lastMv = Mv5.zero := rfl
@[simp] theorem State.resetEngine_mbaddr : (s.resetEngine).mbaddr = 0 := rfl
@[simp] theorem State.resetEngine_scseen : (s.resetEngine).scseen = false := rfl
@[simp] theorem State.resetEngine_sink : (s.resetEngine).sink = [] := rfl
@[simp] theorem State.resetEngine_wpend : (s.resetEngine).wpend = [] := rfl
@[simp] theorem State.resetEngine_wpos : (s.resetEngine).wpos = 0 := rfl
@[simp] theorem State.resetEngine_rpos : (s.resetEngine).rpos = 0 := rfl
@[simp] theorem State.resetEngine_prevMv : (s.resetEngine).prevMv = Vector.replicate 396 Mv.zero := rfl
@[simp] theorem State.resetEngine_stale : (s.resetEngine).stale = Vector.replicate 396 0 := rfl
@[simp] theorem State.resetEngine_cur : (s.resetEngine).cur = s.cur := rfl
@[simp] theorem State.resetEngine_ref : (s.resetEngine).ref = s.ref := rfl
@[simp] theorem State.resetEngine_src : (s.resetEngine).src = s.src := rfl
@[simp] theorem State.resetEngine_queue : (s.resetEngine).queue = s.queue := rfl
@[simp] theorem State.resetEngine_pc : (s.resetEngine).pc = s.pc := rfl
@[simp] theorem State.resetEngine_resp : (s.resetEngine).resp = s.resp := rfl
@[simp] theorem State.resetEngine_sinkScript : (s.resetEngine).sinkScript = s.sinkScript := rfl
@[simp] theorem State.resetEngine_draws : (s.resetEngine).draws = s.draws + 1 := rfl
@[simp] theorem State.resetEngine_par : (s.resetEngine).par = s.par := rfl

/-! `raiseFault` -/

@[simp] theorem State.raiseFault_blk (c : Cause) (o : BitVec 8) : (s.raiseFault c o).blk = s.blk := by
  unfold State.raiseFault; split <;> rfl
@[simp] theorem State.raiseFault_res (c : Cause) (o : BitVec 8) : (s.raiseFault c o).res = s.res := by
  unfold State.raiseFault; split <;> rfl
@[simp] theorem State.raiseFault_status (c : Cause) (o : BitVec 8) :
    (s.raiseFault c o).status = if s.status.fault then s.status else ⟨true, c, o⟩ := by
  unfold State.raiseFault; split <;> rfl
@[simp] theorem State.raiseFault_cfg (c : Cause) (o : BitVec 8) : (s.raiseFault c o).cfg = s.cfg := by
  unfold State.raiseFault; split <;> rfl
@[simp] theorem State.raiseFault_planeW (c : Cause) (o : BitVec 8) : (s.raiseFault c o).planeW = s.planeW := by
  unfold State.raiseFault; split <;> rfl
@[simp] theorem State.raiseFault_planeH (c : Cause) (o : BitVec 8) : (s.raiseFault c o).planeH = s.planeH := by
  unfold State.raiseFault; split <;> rfl
@[simp] theorem State.raiseFault_lastMv (c : Cause) (o : BitVec 8) : (s.raiseFault c o).lastMv = s.lastMv := by
  unfold State.raiseFault; split <;> rfl
@[simp] theorem State.raiseFault_mbaddr (c : Cause) (o : BitVec 8) : (s.raiseFault c o).mbaddr = s.mbaddr := by
  unfold State.raiseFault; split <;> rfl
@[simp] theorem State.raiseFault_scseen (c : Cause) (o : BitVec 8) : (s.raiseFault c o).scseen = s.scseen := by
  unfold State.raiseFault; split <;> rfl
@[simp] theorem State.raiseFault_sink (c : Cause) (o : BitVec 8) : (s.raiseFault c o).sink = s.sink := by
  unfold State.raiseFault; split <;> rfl
@[simp] theorem State.raiseFault_wpend (c : Cause) (o : BitVec 8) : (s.raiseFault c o).wpend = s.wpend := by
  unfold State.raiseFault; split <;> rfl
@[simp] theorem State.raiseFault_wpos (c : Cause) (o : BitVec 8) : (s.raiseFault c o).wpos = s.wpos := by
  unfold State.raiseFault; split <;> rfl
@[simp] theorem State.raiseFault_rpos (c : Cause) (o : BitVec 8) : (s.raiseFault c o).rpos = s.rpos := by
  unfold State.raiseFault; split <;> rfl
@[simp] theorem State.raiseFault_prevMv (c : Cause) (o : BitVec 8) : (s.raiseFault c o).prevMv = s.prevMv := by
  unfold State.raiseFault; split <;> rfl
@[simp] theorem State.raiseFault_stale (c : Cause) (o : BitVec 8) : (s.raiseFault c o).stale = s.stale := by
  unfold State.raiseFault; split <;> rfl
@[simp] theorem State.raiseFault_cur (c : Cause) (o : BitVec 8) : (s.raiseFault c o).cur = s.cur := by
  unfold State.raiseFault; split <;> rfl
@[simp] theorem State.raiseFault_ref (c : Cause) (o : BitVec 8) : (s.raiseFault c o).ref = s.ref := by
  unfold State.raiseFault; split <;> rfl
@[simp] theorem State.raiseFault_src (c : Cause) (o : BitVec 8) : (s.raiseFault c o).src = s.src := by
  unfold State.raiseFault; split <;> rfl
@[simp] theorem State.raiseFault_queue (c : Cause) (o : BitVec 8) : (s.raiseFault c o).queue = s.queue := by
  unfold State.raiseFault; split <;> rfl
@[simp] theorem State.raiseFault_pc (c : Cause) (o : BitVec 8) : (s.raiseFault c o).pc = s.pc := by
  unfold State.raiseFault; split <;> rfl
@[simp] theorem State.raiseFault_resp (c : Cause) (o : BitVec 8) : (s.raiseFault c o).resp = s.resp := by
  unfold State.raiseFault; split <;> rfl
@[simp] theorem State.raiseFault_sinkScript (c : Cause) (o : BitVec 8) : (s.raiseFault c o).sinkScript = s.sinkScript := by
  unfold State.raiseFault; split <;> rfl
@[simp] theorem State.raiseFault_draws (c : Cause) (o : BitVec 8) : (s.raiseFault c o).draws = s.draws := by
  unfold State.raiseFault; split <;> rfl
@[simp] theorem State.raiseFault_par (c : Cause) (o : BitVec 8) : (s.raiseFault c o).par = s.par := by
  unfold State.raiseFault; split <;> rfl

/-! `advance` -/

@[simp] theorem State.advance_blk : s.advance.blk = s.blk := by
  unfold State.advance; split <;> rfl
@[simp] theorem State.advance_res : s.advance.res = s.res := by
  unfold State.advance; split <;> rfl
@[simp] theorem State.advance_status : s.advance.status = s.status := by
  unfold State.advance; split <;> rfl
@[simp] theorem State.advance_cfg : s.advance.cfg = s.cfg := by
  unfold State.advance; split <;> rfl
@[simp] theorem State.advance_planeW : s.advance.planeW = s.planeW := by
  unfold State.advance; split <;> rfl
@[simp] theorem State.advance_planeH : s.advance.planeH = s.planeH := by
  unfold State.advance; split <;> rfl
@[simp] theorem State.advance_lastMv : s.advance.lastMv = s.lastMv := by
  unfold State.advance; split <;> rfl
@[simp] theorem State.advance_mbaddr : s.advance.mbaddr = s.mbaddr := by
  unfold State.advance; split <;> rfl
@[simp] theorem State.advance_scseen : s.advance.scseen = s.scseen := by
  unfold State.advance; split <;> rfl
@[simp] theorem State.advance_sink : s.advance.sink = s.sink := by
  unfold State.advance; split <;> rfl
@[simp] theorem State.advance_wpend : s.advance.wpend = s.wpend := by
  unfold State.advance; split <;> rfl
@[simp] theorem State.advance_wpos : s.advance.wpos = s.wpos := by
  unfold State.advance; split <;> rfl
@[simp] theorem State.advance_rpos : s.advance.rpos = s.rpos := by
  unfold State.advance; split <;> rfl
@[simp] theorem State.advance_prevMv : s.advance.prevMv = s.prevMv := by
  unfold State.advance; split <;> rfl
@[simp] theorem State.advance_stale : s.advance.stale = s.stale := by
  unfold State.advance; split <;> rfl
@[simp] theorem State.advance_cur : s.advance.cur = s.cur := by
  unfold State.advance; split <;> rfl
@[simp] theorem State.advance_ref : s.advance.ref = s.ref := by
  unfold State.advance; split <;> rfl
@[simp] theorem State.advance_src : s.advance.src = s.src := by
  unfold State.advance; split <;> rfl
@[simp] theorem State.advance_queue : s.advance.queue = s.queue := by
  unfold State.advance; split <;> rfl
@[simp] theorem State.advance_pc : s.advance.pc = if s.status.fault then s.pc else s.pc + 1 := by
  unfold State.advance; split <;> rfl
@[simp] theorem State.advance_resp : s.advance.resp = s.resp := by
  unfold State.advance; split <;> rfl
@[simp] theorem State.advance_sinkScript : s.advance.sinkScript = s.sinkScript := by
  unfold State.advance; split <;> rfl
@[simp] theorem State.advance_draws : s.advance.draws = s.draws := by
  unfold State.advance; split <;> rfl
@[simp] theorem State.advance_par : s.advance.par = s.par := by
  unfold State.advance; split <;> rfl

/-! Reading what was written -/

@[simp] theorem State.setBlock_block_same (b : Fin 8) (v : Block) : (s.setBlock b v).block b = v := by
  simp [State.block]

theorem State.setBlock_block_other (b c : Fin 8) (v : Block) (h : c ≠ b) : (s.setBlock b v).block c = s.block c := by
  simp only [State.block, State.setBlock_blk, Fin.getElem_fin]
  exact Vector.getElem_set_ne _ _ (fun e => h (Fin.ext e.symm))

theorem State.raiseFault_of_clear (c : Cause) (op : Opcode) (h : s.status.fault = false) :
    s.raiseFault c op.code = s.faulted c op := by
  simp [State.raiseFault, State.faulted, h]

theorem State.raiseFault_of_fault (c : Cause) (o : BitVec 8) (h : s.status.fault = true) :
    s.raiseFault c o = s := by
  simp [State.raiseFault, h]

end Updates

/-! Writing the result registers one after the other -/

theorem State.setRes_pair (s : State) (a b : Word) :
    (s.setRes 0 a).setRes 1 b = { s with res := #v[a, b, s.res[2], s.res[3]] } := by
  simp only [State.setRes]
  congr 1
  apply Vector.ext
  intro i hi
  interval_cases i <;> simp

theorem State.setRes_three (s : State) (a b c : Word) :
    ((s.setRes 0 a).setRes 1 b).setRes 2 c = { s with res := #v[a, b, c, s.res[3]] } := by
  simp only [State.setRes]
  congr 1
  apply Vector.ext
  intro i hi
  interval_cases i <;> simp

theorem State.setRes_all (s : State) (a b c d : Word) :
    (((s.setRes 0 a).setRes 1 b).setRes 2 c).setRes 3 d = { s with res := #v[a, b, c, d] } := by
  simp only [State.setRes]
  congr 1
  apply Vector.ext
  intro i hi
  interval_cases i <;> simp

end Sys2Proof.Machine
end

