-- ==== Sys2Proof/Laws/Channel.lean ====
section
/-!
SUPPORT. Laws of the two bit channels (40_bitchannel.md R105 to R107): what `putbit`, `putcode`, `putbits` and
`getbits` do, said once.
-/

namespace Sys2Proof.Machine

/-! Bits and bytes -/

/-- The eight bits of the byte that eight bits make are those bits. -/
theorem bits_byteOf (p : List Bool) (h : p.length = 8) : bits 8 (byteOf p).toNat = p := by
  have hlt := ofBits_lt p
  rw [byteOf, BitVec.toNat_ofNat, Nat.mod_eq_of_lt (by rw [h] at hlt; exact hlt), ← h]
  exact bits_ofBits p

/-! The write channel -/

theorem putbit_full (b : Bool) (s : State) (h : s.wpend.length = 7) (ha : s.sinkScript.head? ≠ some true) :
    putbit b s = .ok () { s with sink := s.sink ++ [byteOf (s.wpend ++ [b])], wpend := [], wpos := s.wpos + 1,
                                 sinkScript := s.sinkScript.tail } := by
  unfold putbit
  rw [if_pos (by simp [h])]
  cases hs : s.sinkScript with
  | nil => simp
  | cons x l => cases x <;> simp_all

theorem State.SinkAccepts.head {s : State} (ha : s.SinkAccepts) : s.sinkScript.head? ≠ some true := by
  intro h
  exact ha (List.mem_of_mem_head? h)

theorem putbit_part (b : Bool) (s : State) (h : s.wpend.length < 7) :
    putbit b s = .ok () { s with wpend := s.wpend ++ [b], wpos := s.wpos + 1 } := by
  unfold putbit
  rw [if_neg (by simp; omega)]

/-- A sink that fails at the byte that the bit completes: nothing is placed (20_memory.md R65; log 10). -/
theorem putbit_fail (b : Bool) (s : State) (h : s.wpend.length = 7) (ha : s.sinkScript.head? = some true) :
    putbit b s = .error .sinkIoError { s with sinkScript := s.sinkScript.tail } := by
  unfold putbit
  rw [if_pos (by simp [h])]
  cases hs : s.sinkScript with
  | nil => simp [hs] at ha
  | cons x l =>
    simp [hs] at ha
    subst ha
    simp

theorem Appended.refl (s : State) (h : s.wpend.length < 8) : Appended s [] s where
  written := by simp
  pending := h
  position := by simp
  grows := List.prefix_rfl
  script := by simp
  frame := rfl

theorem Appended.trans {s t u : State} {xs ys : List Bool} (h1 : Appended s xs t) (h2 : Appended t ys u) :
    Appended s (xs ++ ys) u where
  written := by rw [h2.written, h1.written, List.append_assoc]
  pending := h2.pending
  position := by rw [h2.position, h1.position, List.length_append, BitVec.ofNat_add, BitVec.add_assoc]
  grows := h1.grows.trans h2.grows
  script := by
    have a := h1.grows.length_le
    have b := h2.grows.length_le
    rw [h2.script, h1.script, List.drop_drop]
    congr 1
    omega
  frame := by
    rw [h2.frame, h1.frame]

/-- A sink that never fails goes on never failing. -/
theorem Appended.accepts {s t : State} {xs : List Bool} (h : Appended s xs t) (ha : s.SinkAccepts) :
    t.SinkAccepts := by
  intro hm
  rw [h.script] at hm
  exact ha (List.mem_of_mem_drop hm)

/-- One bit, on a sink that takes the next byte. -/
theorem putbit_places (b : Bool) (s : State) (hw : s.wpend.length < 8)
    (ha : s.wpend.length = 7 → s.sinkScript.head? ≠ some true) :
    ∃ t, putbit b s = .ok () t ∧ Appended s [b] t := by
  by_cases h : s.wpend.length = 7
  · refine ⟨_, putbit_full b s h (ha h), ?_, ?_, ?_, ?_, ?_, ?_⟩
    · simp only [State.written, List.flatMap_append, List.flatMap_cons, List.flatMap_nil, List.append_nil]
      rw [bits_byteOf _ (by simp [h]), List.append_assoc]
    · simp
    · simp
    · exact List.prefix_append _ _
    · simp
    · rfl
  · refine ⟨_, putbit_part b s (by omega), ?_, ?_, ?_, ?_, ?_, ?_⟩
    · simp [State.written]
    · simp; omega
    · simp
    · exact List.prefix_rfl
    · simp
    · rfl

theorem putbit_appended (b : Bool) (s : State) (hw : s.wpend.length < 8) (ha : s.SinkAccepts) :
    ∃ t, putbit b s = .ok () t ∧ Appended s [b] t := putbit_places b s hw (fun _ => ha.head)

/-- `putcode` on a sink that does not fail appends its bits (40_bitchannel.md R105). -/
theorem putcode_appended (bs : List Bool) (s : State) (hw : s.wpend.length < 8) (ha : s.SinkAccepts) :
    ∃ t, putcode bs s = .ok () t ∧ Appended s bs t := by
  induction bs generalizing s with
  | nil => exact ⟨s, rfl, Appended.refl s hw⟩
  | cons b bs ih =>
    obtain ⟨t, h1, h2⟩ := putbit_appended b s hw ha
    obtain ⟨u, h3, h4⟩ := ih t h2.pending (h2.accepts ha)
    exact ⟨u, by rw [putcode, M.bind_ok h1, h3], h2.trans h4⟩

theorem putbits_appended (n v : Nat) (s : State) (hw : s.wpend.length < 8) (ha : s.SinkAccepts) :
    ∃ t, putbits n v s = .ok () t ∧ Appended s (bits n v) t := putcode_appended _ s hw ha

/-- `putcode` in general: it appends its bits, or the sink fails after some of them (60_exceptions.md R326(c)). -/
theorem putcode_cases (bs : List Bool) (s : State) (hw : s.wpend.length < 8) :
    (∃ t, putcode bs s = .ok () t ∧ Appended s bs t) ∨
    (∃ k t, k < bs.length ∧ Appended s (bs.take k) t ∧ t.wpend.length = 7 ∧ t.sinkScript.head? = some true ∧
      putcode bs s = .error .sinkIoError { t with sinkScript := t.sinkScript.tail }) := by
  induction bs generalizing s with
  | nil => exact .inl ⟨s, rfl, Appended.refl s hw⟩
  | cons b bs ih =>
    have hb : (∃ t, putbit b s = .ok () t ∧ Appended s [b] t) ∨ (s.wpend.length = 7 ∧ s.sinkScript.head? = some true) := by
      by_cases h : s.wpend.length = 7 ∧ s.sinkScript.head? = some true
      · exact .inr h
      · exact .inl (putbit_places b s hw (fun h7 hh => h ⟨h7, hh⟩))
    rcases hb with ⟨t, h1, h2⟩ | ⟨h7, hh⟩
    · rcases ih t h2.pending with ⟨u, h3, h4⟩ | ⟨k, u, hk, h3, h4, h5, h6⟩
      · exact .inl ⟨u, by rw [putcode, M.bind_ok h1, h3], h2.trans h4⟩
      · exact .inr ⟨k + 1, u, by simpa using hk, h2.trans h3, h4, h5, by rw [putcode, M.bind_ok h1, h6]⟩
    · exact .inr ⟨0, s, by simp, Appended.refl s hw, h7, hh, by rw [putcode, M.bind_error (putbit_fail b s h7 hh)]⟩

/-- A piece of pseudocode that writes `bs` and nothing else, up to a failure of the sink. -/
def Emits (x : M Unit) (bs : List Bool) : Prop :=
  ∀ s : State, s.wpend.length < 8 →
    (∃ t, x s = .ok () t ∧ Appended s bs t) ∨
    (∃ k t, k < bs.length ∧ Appended s (bs.take k) t ∧ t.wpend.length = 7 ∧ t.sinkScript.head? = some true ∧
      x s = .error .sinkIoError { t with sinkScript := t.sinkScript.tail })

theorem Emits.putcode (bs : List Bool) : Emits (putcode bs) bs := putcode_cases bs

theorem Emits.putbits (n v : Nat) : Emits (putbits n v) (bits n v) := putcode_cases _

theorem Emits.done : Emits (pure ()) [] := fun s hw => .inl ⟨s, rfl, Appended.refl s hw⟩

theorem Emits.seq {x y : M Unit} {xs ys : List Bool} (hx : Emits x xs) (hy : Emits y ys) :
    Emits (do x; y) (xs ++ ys) := by
  intro s hw
  rcases hx s hw with ⟨t, h1, h2⟩ | ⟨k, t, hk, h1, h2, h3, h4⟩
  · rcases hy t h2.pending with ⟨u, h3, h4⟩ | ⟨k, u, hk, h3, h4, h5, h6⟩
    · exact .inl ⟨u, by rw [M.bind_ok h1, h3], h2.trans h4⟩
    · refine .inr ⟨xs.length + k, u, by simp; omega, ?_, h4, h5, by rw [M.bind_ok h1, h6]⟩
      rw [List.take_append, List.take_of_length_le (by omega), Nat.add_sub_cancel_left]
      exact h2.trans h3
  · refine .inr ⟨k, t, by simp; omega, ?_, h2, h3, by rw [M.bind_error h4]⟩
    rw [List.take_append, Nat.sub_eq_zero_of_le (by omega), List.take_zero, List.append_nil]
    exact h1

/-- On a sink that does not fail the bits are appended. -/
theorem Emits.accepts {x : M Unit} {bs : List Bool} (hx : Emits x bs) {s : State} (hw : s.wpend.length < 8)
    (ha : s.SinkAccepts) : ∃ t, x s = .ok () t ∧ Appended s bs t := by
  rcases hx s hw with h | ⟨k, t, -, h1, -, h3, -⟩
  · exact h
  · exact absurd h3 (h1.accepts ha).head

/-- A command that writes and then changes the state. -/
theorem gated_writes_then {x : M Unit} {bs : List Bool} (hx : Emits x bs) (op : Opcode) (done : State → State)
    {s : State} (hf : s.status.fault = false) (hw : s.wpend.length < 8) :
    WritesBits s op bs done (gated op (do x; M.change done) s) := by
  have main : ∀ t, x s = .ok () t → gated op (do x; M.change done) s = .next (done t) := fun t h =>
    gated_ok hf (by rw [M.bind_ok h, M.change_run])
  refine ⟨fun ha => ?_, ?_⟩
  · obtain ⟨t, h1, h2⟩ := hx.accepts hw ha
    exact ⟨t, h2, main t h1⟩
  · rcases hx s hw with ⟨t, h1, h2⟩ | ⟨k, t, hk, h1, h2, h3, h4⟩
    · exact .inl ⟨t, h2, main t h1⟩
    · refine .inr ⟨k, t, hk, h1, h2, h3, ?_⟩
      rw [gated_error hf (M.bind_error h4)]
      have : t.status.fault = false := by rw [h1.frame]; exact hf
      simp [State.raiseFault, this]

/-- A command that only writes. -/
theorem gated_writes {x : M Unit} {bs : List Bool} (hx : Emits x bs) (op : Opcode) {s : State}
    (hf : s.status.fault = false) (hw : s.wpend.length < 8) : WritesBits s op bs id (gated op x s) := by
  refine ⟨fun ha => ?_, ?_⟩
  · obtain ⟨t, h1, h2⟩ := hx.accepts hw ha
    exact ⟨t, h2, gated_ok hf h1⟩
  · rcases hx s hw with ⟨t, h1, h2⟩ | ⟨k, t, hk, h1, h2, h3, h4⟩
    · exact .inl ⟨t, h2, gated_ok hf h1⟩
    · refine .inr ⟨k, t, hk, h1, h2, h3, ?_⟩
      rw [gated_error hf h4]
      have : t.status.fault = false := by rw [h1.frame]; exact hf
      simp [State.raiseFault, this]

/-- The loop of FLUSH writes the pad bits that complete the byte (40_bitchannel.md R104). -/
theorem flushLoop_run (s : State) (fuel : Nat) (hl : s.wpend.length < 8) (h : (8 - s.wpend.length) % 8 < fuel) :
    flushLoop fuel s = putcode (List.replicate ((8 - s.wpend.length) % 8) s.par.padBit) s := by
  induction fuel generalizing s with
  | zero => omega
  | succ fuel ih =>
    rw [flushLoop, M.look_bind]
    by_cases h0 : s.wpend.length = 0
    · rw [h0]; rfl
    · rw [if_pos h0, M.look_bind]
      have e : (8 - s.wpend.length) % 8 = (8 - s.wpend.length - 1) + 1 := by omega
      rw [e, List.replicate_succ, putcode]
      by_cases h7 : s.wpend.length = 7
      · by_cases hx : s.sinkScript.head? = some true
        · rw [M.bind_error (putbit_fail _ s h7 hx), M.bind_error (putbit_fail _ s h7 hx)]
        · rw [M.bind_ok (putbit_full _ s h7 hx), M.bind_ok (putbit_full _ s h7 hx)]
          rw [h7]
          obtain ⟨f, rfl⟩ := Nat.exists_eq_succ_of_ne_zero (show fuel ≠ 0 by omega)
          rw [flushLoop, M.look_bind]; rfl
      · rw [M.bind_ok (putbit_part _ s (by omega)), M.bind_ok (putbit_part _ s (by omega))]
        have := ih { s with wpend := s.wpend ++ [s.par.padBit], wpos := s.wpos + 1 } (by simp; omega) (by simp; omega)
        rw [this]
        congr 1
        simp
        omega

/-! The read channel -/

/-- The bits that the source holds at the read position, `n` of them. -/
def State.ahead (s : State) (n : Nat) : List Bool := (List.range n).map (fun i => srcBit s.src (s.rpos.toNat + i))

theorem State.consumed_toNat (s : State) (n : Nat) (h8 : 8 * s.src.length < 2 ^ 64)
    (h : s.rpos.toNat + n ≤ 8 * s.src.length) : (s.consumed n).rpos.toNat = s.rpos.toNat + n := by
  simp only [State.consumed, BitVec.toNat_add, BitVec.toNat_ofNat]
  omega

theorem State.consumed_zero (s : State) : s.consumed 0 = s := by
  simp [State.consumed]

theorem State.consumed_consumed (s : State) (m n : Nat) : (s.consumed m).consumed n = s.consumed (m + n) := by
  simp [State.consumed, BitVec.ofNat_add, BitVec.add_assoc]

/-- Splitting what the source holds. -/
theorem SourceHolds.split {s : State} {xs ys : List Bool} (h : s.SourceHolds (xs ++ ys)) :
    s.SourceHolds xs ∧ (s.consumed xs.length).SourceHolds ys := by
  obtain ⟨h8, hl, hb⟩ := h
  rw [List.length_append] at hl hb
  rw [List.range_add, List.map_append, List.map_map] at hb
  have hb' := List.append_inj hb (by simp)
  have hc := s.consumed_toNat xs.length h8 (by omega)
  refine ⟨⟨h8, by omega, hb'.1⟩, h8, ?_, ?_⟩
  · rw [hc]; simp only [State.consumed_src]; omega
  · rw [hc, State.consumed_src]
    refine Eq.trans ?_ hb'.2
    apply List.map_congr_left
    intro i _
    simp [Nat.add_assoc]

/-- `getbits` of bits that the source holds returns the number they hold and consumes them (40_bitchannel.md R106). -/
theorem getbits_holds (bs : List Bool) (s : State) (h : s.SourceHolds bs) :
    getbits bs.length s = .ok (ofBits bs) (s.consumed bs.length) := by
  obtain ⟨h8, hl, hb⟩ := h
  unfold getbits
  rw [if_neg (by omega), srcBits, hb]
  rfl

theorem getbits_eof (n : Nat) (s : State) (h : s.rpos.toNat + n > 8 * s.src.length) :
    getbits n s = .error .unexpectedEof s := by
  unfold getbits
  rw [if_pos h]

/-- What a piece of pseudocode that only reads does where the source holds the bits `bs`: it consumes them and
returns `a`. -/
def Reads {α : Type} (x : M α) (bs : List Bool) (a : α) : Prop :=
  ∀ s : State, s.SourceHolds bs → x s = .ok a (s.consumed bs.length)

theorem Reads.getbits (bs : List Bool) : Reads (getbits bs.length) bs (ofBits bs) := fun s h => getbits_holds bs s h

theorem Reads.getbits_bits (n v : Nat) : Reads (Machine.getbits n) (bits n v) (v % 2 ^ n) := by
  intro s h
  have := getbits_holds (bits n v) s h
  rw [ofBits_bits] at this
  simpa using this

theorem Reads.pure {α : Type} (a : α) : Reads (pure a : M α) [] a := by
  intro s _
  rw [M.pure_run, List.length_nil, State.consumed_zero]

theorem Reads.bind {α β : Type} {x : M α} {f : α → M β} {xs ys : List Bool} {a : α} {b : β}
    (hx : Reads x xs a) (hf : Reads (f a) ys b) : Reads (x >>= f) (xs ++ ys) b := by
  intro s h
  obtain ⟨h1, h2⟩ := SourceHolds.split h
  rw [M.bind_ok (hx s h1), hf _ h2, State.consumed_consumed, List.length_append]

/-- Reading first what stands first: the rest of the source is read from the state after it. -/
theorem Reads.step {α β : Type} {x : M α} {f : α → M β} {xs ys : List Bool} {a : α} {s : State}
    (hx : Reads x xs a) (h : s.SourceHolds (xs ++ ys)) :
    (x >>= f) s = f a (s.consumed xs.length) ∧ (s.consumed xs.length).SourceHolds ys := by
  obtain ⟨h1, h2⟩ := SourceHolds.split h
  exact ⟨M.bind_ok (hx s h1), h2⟩

/-! Where the source ends (60_exceptions.md R326(b)) -/

/-- What a piece of pseudocode that only reads does where the source ends inside the bits `bs`: of the unread bits, `l`
of them, it consumes `g l` and raises `UnexpectedEof`. -/
def StopsAt {α : Type} (x : M α) (bs : List Bool) (g : Nat → Nat) : Prop :=
  ∀ (s : State) (pre : List Bool), pre <+: bs → pre.length < bs.length → s.SourceEnds pre →
    x s = .error .unexpectedEof (s.consumed (g pre.length))

/-- The same without the count: no more bits are consumed than there are. -/
def Stops {α : Type} (x : M α) (bs : List Bool) : Prop := ∃ g, (∀ l, g l ≤ l) ∧ StopsAt x bs g

/-- What follows the bits that were read ends where the source ends. -/
theorem SourceEnds.split {s : State} {xs ys : List Bool} (h : s.SourceEnds (xs ++ ys)) :
    s.SourceHolds xs ∧ (s.consumed xs.length).SourceEnds ys := by
  obtain ⟨h1, h2⟩ := SourceHolds.split h.1
  refine ⟨h1, h2, ?_⟩
  have he := h.2
  rw [List.length_append] at he
  rw [s.consumed_toNat xs.length h1.1 h1.2.1, State.consumed_src]
  omega

theorem StopsAt.getbits (bs : List Bool) : StopsAt (getbits bs.length) bs (fun _ => 0) := by
  intro s pre _ hl he
  rw [getbits_eof _ s (by have := he.2; omega), State.consumed_zero]

theorem StopsAt.bind {α β : Type} {x : M α} {f : α → M β} {xs ys : List Bool} {a : α} {g g' : Nat → Nat}
    (hr : Reads x xs a) (hx : StopsAt x xs g) (hf : StopsAt (f a) ys g') :
    StopsAt (x >>= f) (xs ++ ys)
      (fun l => if l < xs.length then g l else xs.length + g' (l - xs.length)) := by
  intro s pre hp hl he
  by_cases hlt : pre.length < xs.length
  · have hpx : pre <+: xs := (List.prefix_append_right_inj []).mp (by
      simpa using List.prefix_of_prefix_length_le hp (List.prefix_append xs ys) (by omega))
    rw [M.bind_error (hx s pre hpx hlt he)]
    simp only [if_pos hlt]
  · obtain ⟨r, rfl⟩ : xs <+: pre := List.prefix_of_prefix_length_le (List.prefix_append xs ys) hp (by omega)
    obtain ⟨h1, h2⟩ := SourceEnds.split he
    have hpr : r <+: ys := (List.prefix_append_right_inj xs).mp hp
    simp only [List.length_append] at hl hlt ⊢
    rw [M.bind_ok (hr s h1), hf _ r hpr (by omega) h2, State.consumed_consumed]
    simp

theorem Stops.of_at {α : Type} {x : M α} {bs : List Bool} {g : Nat → Nat} (hg : ∀ l, g l ≤ l) (h : StopsAt x bs g) :
    Stops x bs := ⟨g, hg, h⟩

theorem Stops.getbits (bs : List Bool) : Stops (getbits bs.length) bs :=
  .of_at (fun _ => Nat.zero_le _) (StopsAt.getbits bs)

theorem Stops.getbits_bits (n v : Nat) : Stops (Machine.getbits n) (bits n v) := by
  have := Stops.getbits (bits n v)
  rwa [bits_length] at this

/-- There is nothing to stop in. -/
theorem Stops.nil {α : Type} (x : M α) : Stops x [] := .of_at (g := id) (fun _ => le_rfl) (fun _ _ _ h => absurd h (by simp))

theorem Stops.bind {α β : Type} {x : M α} {f : α → M β} {xs ys : List Bool} {a : α}
    (hr : Reads x xs a) (hx : Stops x xs) (hf : Stops (f a) ys) : Stops (x >>= f) (xs ++ ys) := by
  obtain ⟨g, hg, h1⟩ := hx
  obtain ⟨g', hg', h2⟩ := hf
  refine ⟨_, fun l => ?_, StopsAt.bind hr h1 h2⟩
  split
  · exact hg l
  · have := hg' (l - xs.length)
    omega

/-- A source that ends inside the bits: `UnexpectedEof`, with some of the unread bits consumed. -/
theorem Stops.run {α : Type} {x : M α} {bs : List Bool} (h : Stops x bs) {s : State} (hs : s.SourceEndsInside bs) :
    ∃ n, s.rpos.toNat + n ≤ 8 * s.src.length ∧ x s = .error .unexpectedEof (s.consumed n) := by
  obtain ⟨g, hg, hx⟩ := h
  obtain ⟨pre, h1, h2, h3⟩ := hs
  exact ⟨g pre.length, by have := hg pre.length; have := h3.2; omega, hx s pre h1 h2 h3⟩

end Sys2Proof.Machine
end

