-- ==== Sys2Proof/Laws/PerInstr.lean ====
section
/-!
SUPPORT. For every command: its fields fit the 24 low bits of the head word, and it has the extension words of its
opcode (30_encoding.md R70, R72).
-/

namespace Sys2Proof.Laws.HeadWord

/-- A well-formed command's fields fit the head word beside `OPC`, and its extension has the opcode's length. -/
def Statement (i : Instr) : Prop := i.WellFormed → i.headBits < 2 ^ 24 ∧ i.extension.length = i.opcode.extWords

theorem low5_lt (x : Int) : low5 x < 32 := by
  unfold low5
  omega

theorem nop : Statement .nop := by
  intro h
  clear h
  exact ⟨by decide, rfl⟩

theorem reset : Statement .reset := by
  intro h
  clear h
  exact ⟨by decide, rfl⟩

theorem csrr (csr : Nat) : Statement (.csrr csr) := by
  intro h
  simp only [Instr.WellFormed, Instr.wellFormed, fitsU, decide_eq_true_eq] at h
  exact ⟨by simp only [Instr.headBits]; omega, rfl⟩

theorem csrw (csr : Nat) (imm16 : BitVec 16) : Statement (.csrw csr imm16) := by
  intro h
  simp only [Instr.WellFormed, Instr.wellFormed, fitsU, decide_eq_true_eq] at h
  have := imm16.isLt
  exact ⟨by simp only [Instr.headBits]; omega, rfl⟩

theorem blkwr (b : Fin 8) (lanes : Block) : Statement (.blkwr b lanes) := by
  intro h
  clear h
  have := b.isLt
  refine ⟨by simp only [Instr.headBits]; omega, by simp [Instr.extension, wordsOfBlock, Instr.opcode, Opcode.extWords]⟩

theorem blkrd (b : Fin 8) : Statement (.blkrd b) := by
  intro h
  clear h
  have := b.isLt
  exact ⟨by simp only [Instr.headBits]; omega, rfl⟩

theorem wrbits (n : Nat) (value : Word) : Statement (.wrbits n value) := by
  intro h
  simp only [Instr.WellFormed, Instr.wellFormed, fitsU, decide_eq_true_eq] at h
  exact ⟨by simp only [Instr.headBits]; omega, rfl⟩

theorem rdbits (n : Nat) : Statement (.rdbits n) := by
  intro h
  simp only [Instr.WellFormed, Instr.wellFormed, fitsU, decide_eq_true_eq] at h
  exact ⟨by simp only [Instr.headBits]; omega, rfl⟩

theorem bitpos (side : Side) : Statement (.bitpos side) := by
  intro h
  clear h
  have : side.bit < 2 := by cases side <;> decide
  exact ⟨by simp only [Instr.headBits]; omega, rfl⟩

theorem atend : Statement .atend := by
  intro h
  clear h
  exact ⟨by decide, rfl⟩

theorem flush : Statement .flush := by
  intro h
  clear h
  exact ⟨by decide, rfl⟩

theorem fdct (bd : Fin 8) (bs : Fin 8) : Statement (.fdct bd bs) := by
  intro h
  clear h
  have := bd.isLt
  have := bs.isLt
  exact ⟨by simp only [Instr.headBits]; omega, rfl⟩

theorem idct (bd : Fin 8) (bs : Fin 8) : Statement (.idct bd bs) := by
  intro h
  clear h
  have := bd.isLt
  have := bs.isLt
  exact ⟨by simp only [Instr.headBits]; omega, rfl⟩

theorem quant (b : Fin 8) (c : Coding) (q : Nat) : Statement (.quant b c q) := by
  intro h
  simp only [Instr.WellFormed, Instr.wellFormed, fitsU, decide_eq_true_eq] at h
  have := b.isLt
  have : c.bit < 2 := by cases c <;> decide
  exact ⟨by simp only [Instr.headBits]; omega, rfl⟩

theorem dequant (b : Fin 8) (c : Coding) (q : Nat) : Statement (.dequant b c q) := by
  intro h
  simp only [Instr.WellFormed, Instr.wellFormed, fitsU, decide_eq_true_eq] at h
  have := b.isLt
  have : c.bit < 2 := by cases c <;> decide
  exact ⟨by simp only [Instr.headBits]; omega, rfl⟩

theorem encblk (b : Fin 8) (c : Coding) : Statement (.encblk b c) := by
  intro h
  clear h
  have := b.isLt
  have : c.bit < 2 := by cases c <;> decide
  exact ⟨by simp only [Instr.headBits]; omega, rfl⟩

theorem decblk (b : Fin 8) (c : Coding) : Statement (.decblk b c) := by
  intro h
  clear h
  have := b.isLt
  have : c.bit < 2 := by cases c <;> decide
  exact ⟨by simp only [Instr.headBits]; omega, rfl⟩

theorem vlcenc (tbl : TableId) (val : Nat) : Statement (.vlcenc tbl val) := by
  intro h
  simp only [Instr.WellFormed, Instr.wellFormed, fitsU, decide_eq_true_eq] at h
  have : tbl.code < 6 := by cases tbl <;> decide
  exact ⟨by simp only [Instr.headBits]; omega, rfl⟩

theorem vlcdec (tbl : TableId) : Statement (.vlcdec tbl) := by
  intro h
  clear h
  have : tbl.code < 6 := by cases tbl <;> decide
  exact ⟨by simp only [Instr.headBits]; omega, rfl⟩

theorem meae (mbx : Nat) (mby : Nat) (dx : Int) (dy : Int) : Statement (.meae mbx mby dx dy) := by
  intro h
  simp only [Instr.WellFormed, Instr.wellFormed, fitsU, fitsS5, decide_eq_true_eq] at h
  have := low5_lt dx
  have := low5_lt dy
  exact ⟨by simp only [Instr.headBits]; omega, rfl⟩

theorem mesearch (mbx : Nat) (mby : Nat) : Statement (.mesearch mbx mby) := by
  intro h
  simp only [Instr.WellFormed, Instr.wellFormed, fitsU, decide_eq_true_eq] at h
  exact ⟨by simp only [Instr.headBits]; omega, rfl⟩

theorem memtype (mbx : Nat) (mby : Nat) : Statement (.memtype mbx mby) := by
  intro h
  simp only [Instr.WellFormed, Instr.wellFormed, fitsU, decide_eq_true_eq] at h
  exact ⟨by simp only [Instr.headBits]; omega, rfl⟩

theorem meclr : Statement .meclr := by
  intro h
  clear h
  exact ⟨by decide, rfl⟩

theorem putpic (tr : Nat) (ptype : BitVec 6) (e : Bool) (ext : Byte) : Statement (.putpic tr ptype e ext) := by
  intro h
  simp only [Instr.WellFormed, Instr.wellFormed, fitsU, decide_eq_true_eq] at h
  have := ptype.isLt
  have : e.toNat < 2 := by cases e <;> decide
  have := ext.isLt
  exact ⟨by simp only [Instr.headBits]; omega, rfl⟩

theorem putgob (gn : Nat) (gquant : Nat) (e : Bool) (ext : Byte) : Statement (.putgob gn gquant e ext) := by
  intro h
  simp only [Instr.WellFormed, Instr.wellFormed, fitsU, decide_eq_true_eq] at h
  have : e.toNat < 2 := by cases e <;> decide
  have := ext.isLt
  exact ⟨by simp only [Instr.headBits]; omega, rfl⟩

theorem putmb (mba : Nat) (mtype : Nat) (mquant : Nat) (mvh : Int) (mvv : Int) (cbp : Nat) :
    Statement (.putmb mba mtype mquant mvh mvv cbp) := by
  intro h
  simp only [Instr.WellFormed, Instr.wellFormed, fitsU, fitsS5, decide_eq_true_eq] at h
  exact ⟨by simp only [Instr.headBits]; omega, rfl⟩

theorem getsc : Statement .getsc := by
  intro h
  clear h
  exact ⟨by decide, rfl⟩

theorem getpic : Statement .getpic := by
  intro h
  clear h
  exact ⟨by decide, rfl⟩

theorem getgob : Statement .getgob := by
  intro h
  clear h
  exact ⟨by decide, rfl⟩

theorem getmb : Statement .getmb := by
  intro h
  clear h
  exact ⟨by decide, rfl⟩

end Sys2Proof.Laws.HeadWord
end

