-- ==== Sys2Proof/Laws/Decode.lean ====
section
/-!
SUPPORT. Laws of the decoder and the encoder (30_encoding.md part A): the opcode table, bit fields of a head word,
the fields of each format in both directions, the lanes that 32 words carry, and what decoding a list of words says of
its first word.
-/

namespace Sys2Proof

/-! Opcodes -/

theorem Opcode.ofCode_code (op : Opcode) : Opcode.ofCode? op.code.toNat = some op := by cases op <;> decide

theorem Opcode.ofCode_some {c : Nat} {op : Opcode} (h : Opcode.ofCode? c = some op) : c = op.code.toNat := by
  unfold Opcode.ofCode? at h
  have h2 := List.find?_some h
  exact (of_decide_eq_true h2).symm

theorem Opcode.ofCode_none {c : Nat} (h : Opcode.ofCode? c = none) (op : Opcode) : op.code.toNat ≠ c := by
  intro e
  rw [← e, Opcode.ofCode_code] at h
  cases h

/-- The family `HeadWord` for every command: the head bits are 24 bits and the extension has the opcode's length. -/
theorem headWord (i : Instr) : Laws.HeadWord.Statement i := by
  cases i with
  | nop => exact Laws.HeadWord.nop
  | reset => exact Laws.HeadWord.reset
  | csrr a => exact Laws.HeadWord.csrr a
  | csrw a b => exact Laws.HeadWord.csrw a b
  | blkwr a b => exact Laws.HeadWord.blkwr a b
  | blkrd a => exact Laws.HeadWord.blkrd a
  | wrbits a b => exact Laws.HeadWord.wrbits a b
  | rdbits a => exact Laws.HeadWord.rdbits a
  | bitpos a => exact Laws.HeadWord.bitpos a
  | atend => exact Laws.HeadWord.atend
  | flush => exact Laws.HeadWord.flush
  | fdct a b => exact Laws.HeadWord.fdct a b
  | idct a b => exact Laws.HeadWord.idct a b
  | quant a b c => exact Laws.HeadWord.quant a b c
  | dequant a b c => exact Laws.HeadWord.dequant a b c
  | encblk a b => exact Laws.HeadWord.encblk a b
  | decblk a b => exact Laws.HeadWord.decblk a b
  | vlcenc a b => exact Laws.HeadWord.vlcenc a b
  | vlcdec a => exact Laws.HeadWord.vlcdec a
  | meae a b c d => exact Laws.HeadWord.meae a b c d
  | mesearch a b => exact Laws.HeadWord.mesearch a b
  | memtype a b => exact Laws.HeadWord.memtype a b
  | meclr => exact Laws.HeadWord.meclr
  | putpic a b c d => exact Laws.HeadWord.putpic a b c d
  | putgob a b c d => exact Laws.HeadWord.putgob a b c d
  | putmb a b c d e f => exact Laws.HeadWord.putmb a b c d e f
  | getsc => exact Laws.HeadWord.getsc
  | getpic => exact Laws.HeadWord.getpic
  | getgob => exact Laws.HeadWord.getgob
  | getmb => exact Laws.HeadWord.getmb

/-! Fields of a word -/

theorem opc_div (c n : Nat) (h : n < 2 ^ 24) : (c * 2 ^ 24 + n) / 2 ^ 24 = c := by omega

theorem field_lt (v hi lo : Nat) : field v hi lo < 2 ^ (hi + 1 - lo) := Nat.mod_lt _ (by positivity)

theorem field_mod (v hi lo : Nat) (h : lo ≤ hi) : field v hi lo = v % 2 ^ (hi + 1) / 2 ^ lo := by
  unfold field
  have : 2 ^ (hi + 1) = 2 ^ lo * 2 ^ (hi + 1 - lo) := by rw [← pow_add]; congr 1; omega
  rw [this, Nat.mod_mul_right_div_self]

/-- A field below bit 24 does not see the opcode. -/
theorem field_low (c n hi lo : Nat) (h : lo ≤ hi) (h2 : hi < 24) :
    field (c * 2 ^ 24 + n) hi lo = field n hi lo := by
  rw [field_mod _ _ _ h, field_mod _ _ _ h]
  congr 1
  obtain ⟨k, hk⟩ := Nat.exists_eq_add_of_lt h2
  have : c * 2 ^ 24 = 2 ^ (hi + 1) * (c * 2 ^ k) := by
    have : (2 : Nat) ^ 24 = 2 ^ (hi + 1) * 2 ^ k := by rw [← pow_add, hk]; congr 1; omega
    rw [this]; ring
  rw [this, Nat.mul_add_mod]

/-! Operands from fields -/

theorem regField_eq (h hi lo : Nat) (b : Fin 8) (hh : field h hi lo = b.val) : regField h hi lo = b := by
  apply Fin.ext
  simp only [regField, Fin.ofNat, hh]
  exact Nat.mod_eq_of_lt b.isLt

theorem coding_bit (c : Coding) (h : Nat) (hh : field h 17 17 = c.bit) : codingField h = c := by
  unfold codingField
  rw [hh]
  cases c <;> rfl

theorem sideField_eq (h : Nat) (b : Side) (hh : field h 0 0 = b.bit) : sideField h = b := by
  unfold sideField
  rw [hh]
  cases b <;> rfl

theorem TableId.ofCode_code (t : TableId) : TableId.ofCode? t.code = some t := by cases t <;> rfl

theorem withTable_eq (h : Nat) (f : TableId → Except Illegal Instr) (t : TableId) (hh : field h 23 21 = t.code) :
    withTable h f = f t := by
  unfold withTable
  rw [hh, TableId.ofCode_code]

theorem flag_eq (n : Nat) (e : Bool) (h : n = e.toNat) : (n == 1) = e := by
  subst h
  cases e <;> rfl

theorem low5_lt (x : Int) : low5 x < 32 := by unfold low5; omega

theorem sext5_low5 (x : Int) (h : fitsS5 x) : sext5 (low5 x) = x := by
  unfold sext5 low5
  obtain ⟨h1, h2⟩ := h
  split <;> omega

theorem low5_sext5 (v : Nat) (h : v < 32) : low5 (sext5 v) = v ∧ fitsS5 (sext5 v) := by
  unfold low5 sext5 fitsS5
  split <;> omega

theorem zeroed_ok {fs : List Nat} {i : Instr} (h : ∀ f ∈ fs, f = 0) : zeroed fs i = .ok i := by
  unfold zeroed
  rw [if_pos]
  simpa using h

/-! Fields from operands -/

theorem regField_val (h hi lo : Nat) (hh : hi + 1 - lo = 3) : (regField h hi lo).val = field h hi lo := by
  have : field h hi lo < 8 := by
    have := field_lt h hi lo
    rwa [hh] at this
  simp only [regField, Fin.ofNat]
  exact Nat.mod_eq_of_lt this

theorem coding_val (h : Nat) : (codingField h).bit = field h 17 17 := by
  have : field h 17 17 < 2 := field_lt h 17 17
  unfold codingField
  split
  · simp [Coding.bit, *]
  · simp only [Coding.bit]; omega

theorem side_val (h : Nat) : (sideField h).bit = field h 0 0 := by
  have : field h 0 0 < 2 := field_lt h 0 0
  unfold sideField
  split
  · simp [Side.bit, *]
  · simp only [Side.bit]; omega

theorem flag_val (n : Nat) (h : n < 2) : (n == 1).toNat = n := by interval_cases n <;> rfl

theorem zeroed_inv {fs : List Nat} {i j : Instr} (h : zeroed fs i = .ok j) : (∀ f ∈ fs, f = 0) ∧ i = j := by
  unfold zeroed at h
  split at h
  · rename_i hh
    exact ⟨by simpa using hh, by injection h⟩
  · exact absurd h (by simp)

theorem withTable_inv {h : Nat} {f : TableId → Except Illegal Instr} {i : Instr} (hh : withTable h f = .ok i) :
    ∃ t, t.code = field h 23 21 ∧ f t = .ok i := by
  have hlt : field h 23 21 < 8 := field_lt h 23 21
  unfold withTable at hh
  split at hh
  · rename_i t ht
    refine ⟨t, ?_, hh⟩
    generalize field h 23 21 = k at ht hlt
    interval_cases k <;> simp [TableId.ofCode?] at ht <;> subst ht <;> rfl
  · exact absurd hh (by simp)

/-! Blocks as words -/

theorem laneOfWords_words (b : Block) (k : Nat) (hk : k < 64) : laneOfWords (wordsOfBlock b) k = b[k] := by
  have h2 : k / 2 < 32 := by omega
  have e : (wordsOfBlock b).getD (k / 2) 0 = wordOfBlock b (k / 2) := by
    simp [wordsOfBlock, List.getD, h2]
  unfold laneOfWords
  rw [e, wordOfBlock]
  split
  · have : 2 * (k / 2) = k := by omega
    rw [BitVec.setWidth_append_eq_right]
    simp [this, hk]
  · have : 2 * (k / 2) + 1 = k := by omega
    apply BitVec.eq_of_getLsbD_eq
    intro i hi
    rw [BitVec.getLsbD_setWidth, BitVec.getLsbD_ushiftRight, BitVec.getLsbD_append]
    simp [hi, this, hk]

theorem blockOfWords_words (b : Block) : blockOfWords (wordsOfBlock b) = b := by
  apply Vector.ext
  intro k hk
  simp [blockOfWords, laneOfWords_words _ _ hk]

theorem wordsOfBlock_block (x : List Word) (h : x.length = 32) : wordsOfBlock (blockOfWords x) = x := by
  apply List.ext_getElem
  · simp [wordsOfBlock, h]
  · intro j h1 h2
    have hj : j < 32 := by omega
    simp only [wordsOfBlock, List.getElem_map, List.getElem_range, wordOfBlock, blockOfWords]
    have e1 : (Vector.ofFn (fun k : Fin 64 => laneOfWords x k.val))[2 * j + 1]?.getD 0
        = (x[j] >>> 16).setWidth 16 := by
      rw [Vector.getElem?_eq_getElem (by omega)]
      simp [laneOfWords, show (2 * j + 1) % 2 = 1 by omega, show (2 * j + 1) / 2 = j by omega, h2]
    have e2 : (Vector.ofFn (fun k : Fin 64 => laneOfWords x k.val))[2 * j]?.getD 0 = (x[j]).setWidth 16 := by
      rw [Vector.getElem?_eq_getElem (by omega)]
      simp [laneOfWords, h2]
    rw [e1, e2]
    apply BitVec.eq_of_getLsbD_eq
    intro i hi
    rw [BitVec.getLsbD_append]
    by_cases hc : i < 16
    · simp [hc, hi]
    · simp [hc, hi]
      rw [show 16 + (i - 16) = i by omega]
      simp [show i - 16 < 16 by omega, BitVec.getLsbD_eq_getElem hi]

/-! Lists of words -/

/-- Everything that a decoded list of words can be. -/
theorem decode_cases (ws : List Word) :
    (decode ws = .incomplete ∧ (ws = [] ∨ ∃ h tail, ws = h :: tail ∧ tail.length < extWordsOf h)) ∨
    ∃ h tail, ws = h :: tail ∧ extWordsOf h ≤ tail.length ∧
      ((∃ i, decodeHead h.toNat (tail.take (extWordsOf h)) = .ok i ∧
          decode ws = .instr i (tail.drop (extWordsOf h))) ∨
        ∃ why, decodeHead h.toNat (tail.take (extWordsOf h)) = .error why ∧
          decode ws = .illegal why (BitVec.ofNat 8 (headOpc h)) (tail.drop (extWordsOf h))) := by
  cases ws with
  | nil => exact .inl ⟨rfl, .inl rfl⟩
  | cons h tail =>
    by_cases hl : tail.length < extWordsOf h
    · exact .inl ⟨by rw [decode, if_pos hl], .inr ⟨h, tail, rfl, hl⟩⟩
    · refine .inr ⟨h, tail, rfl, by omega, ?_⟩
      cases hd : decodeHead h.toNat (tail.take (extWordsOf h)) with
      | ok i => exact .inl ⟨i, rfl, by rw [decode, if_neg hl, hd]⟩
      | error why => exact .inr ⟨why, rfl, by rw [decode, if_neg hl, hd]⟩

end Sys2Proof
end

