-- ==== Sys2Proof/Laws/Tables.lean ====
section
/-!
SUPPORT. Laws of the VLC tables (44_vlc_tables.md R196, 43_entropy.md R170, R171): what the check of the parameters
gives; encoding writes the code word, decoding a code word that the source holds returns its value, and the strings
that match no code word are corrupt. Laws of the scan (43_entropy.md R160).
-/

namespace Sys2Proof.Machine

/-- What `vlc_dec` makes of a bit string: a value or a corrupt code, and the bits it took; nothing if it runs out. -/
def vlcWalk (t : VlcTable) : Nat → Nat → Nat → List Bool → Option (Option Nat × Nat)
  | 0, n, _, _ => some (none, n)
  | _ + 1, _, _, [] => none
  | fuel + 1, n, v, b :: bs =>
    match vlcMatch? t (n + 1) (2 * v + b.toNat) with
    | some e => some (some e.value, n + 1)
    | none => if vlcIsPrefix t (n + 1) (2 * v + b.toNat) then vlcWalk t fuel (n + 1) (2 * v + b.toNat) bs
              else some (none, n + 1)

/-- The result that a walk stands for, from the state before it. -/
def walkResult (s : State) (n : Nat) : Option Nat → EStateM.Result Cause State Nat
  | some x => .ok x (s.consumed n)
  | none => .error .corruptHuffmanCode (s.consumed n)

theorem getbits_one {s : State} {b : Bool} {bs : List Bool} (h : s.SourceHolds (b :: bs)) :
    getbits 1 s = .ok b.toNat (s.consumed 1) ∧ (s.consumed 1).SourceHolds bs := by
  have hs := SourceHolds.split (xs := [b]) (ys := bs) h
  have hg := getbits_holds [b] s hs.1
  simp only [List.length_singleton] at hg hs
  refine ⟨?_, hs.2⟩
  rw [hg]
  cases b <;> rfl

/-- `vlc_dec` on a source that holds `bs` does what the walk over `bs` says. -/
theorem vlcDecLoop_walk (t : VlcTable) (fuel n v : Nat) (bs : List Bool) (s : State) (h : s.SourceHolds bs)
    (r : Option Nat) (k : Nat) (hw : vlcWalk t fuel n v bs = some (r, k)) :
    n ≤ k ∧ vlcDecLoop t fuel n v s = walkResult s (k - n) r := by
  induction fuel generalizing n v bs s with
  | zero =>
    simp only [vlcWalk, Option.some.injEq, Prod.mk.injEq] at hw
    obtain ⟨rfl, rfl⟩ := hw
    simp [vlcDecLoop, M.raise_run, State.consumed_zero, walkResult]
  | succ fuel ih =>
    cases bs with
    | nil => simp [vlcWalk] at hw
    | cons b bs =>
      obtain ⟨h1, h2⟩ := getbits_one h
      rw [vlcDecLoop, M.bind_ok h1]
      rw [vlcWalk] at hw
      cases hm : vlcMatch? t (n + 1) (2 * v + b.toNat) with
      | some e =>
        rw [hm] at hw
        simp only [Option.some.injEq, Prod.mk.injEq] at hw
        obtain ⟨rfl, rfl⟩ := hw
        simp [M.pure_run, walkResult]
      | none =>
        rw [hm] at hw
        simp only at hw ⊢
        split at hw
        · rename_i hp
          obtain ⟨h3, h4⟩ := ih (n + 1) (2 * v + b.toNat) bs _ h2 hw
          refine ⟨by omega, ?_⟩
          rw [if_pos hp, h4]
          have : 1 + (k - (n + 1)) = k - n := by omega
          cases r <;> simp [State.consumed_consumed, this, walkResult]
        · rename_i hp
          simp only [Option.some.injEq, Prod.mk.injEq] at hw
          obtain ⟨rfl, rfl⟩ := hw
          simp [hp, M.raise_run, walkResult]

/-! What the check of the parameters gives -/

theorem vlcSized_mem {t : VlcTable} (h : vlcSized t = true) : ∀ e ∈ t, e.code < 2 ^ e.len ∧ 1 ≤ e.len := fun e he =>
  of_decide_eq_true (List.all_eq_true.mp h e he)

theorem le_maxCodeLen {t : VlcTable} {e : VlcEntry} (he : e ∈ t) : e.len ≤ maxCodeLen t := by
  induction t with
  | nil => cases he
  | cons f t ih =>
    simp only [maxCodeLen, List.map_cons, List.foldr_cons] at ih ⊢
    rcases List.mem_cons.mp he with rfl | he
    · exact le_max_left _ _
    · exact le_trans (ih he) (le_max_right _ _)

theorem codePrefix_iff {e f : VlcEntry} (he : e.code < 2 ^ e.len) (hf : f.code < 2 ^ f.len) :
    codePrefix e f = true ↔ bits e.len e.code <+: bits f.len f.code := by
  rw [prefix_bits_iff _ _ _ hf, bits_length, ofBits_bits, Nat.mod_eq_of_lt he]
  unfold codePrefix
  rw [Bool.and_eq_true, decide_eq_true_eq, beq_iff_eq]

theorem vlcHas_iff (t : VlcTable) (x : Nat) : vlcHas t x = (vlcWord? t x).isSome := by
  rw [Bool.eq_iff_iff]
  simp [vlcHas, vlcWord?]

/-- In a table that passes the check two entries with one value, or with one code word a prefix of the other's, are
one entry (44_vlc_tables.md R196(a)). -/
theorem vlcOk_unique {t : VlcTable} (ht : vlcOk t = true) {e f : VlcEntry} (he : e ∈ t) (hf : f ∈ t)
    (h : e.value = f.value ∨ bits e.len e.code <+: bits f.len f.code) : e = f := by
  simp only [vlcOk, Bool.and_eq_true, vlcPrefixFree, decide_eq_true_eq] at ht
  by_contra hne
  have hs := vlcSized_mem ht.1
  have hp := codePrefix_iff (hs e he).1 (hs f hf).1
  have : Std.Symm (fun e f : VlcEntry => e.value ≠ f.value ∧ codePrefix e f = false ∧ codePrefix f e = false) :=
    ⟨fun _ _ h => ⟨h.1.symm, h.2.2, h.2.1⟩⟩
  have := List.Pairwise.forall ht.2 he hf hne
  rcases h with h | h
  · exact this.1 h
  · rw [← hp, this.2.1] at h
    cases h

/-- The entry of a value is found, and gives its code word. -/
theorem vlcOk_word {t : VlcTable} (ht : vlcOk t = true) {e : VlcEntry} (he : e ∈ t) :
    vlcWord? t e.value = some (bits e.len e.code) := by
  rw [vlcWord?]
  cases hf : t.find? (fun f => f.value == e.value) with
  | none => exact absurd (List.find?_eq_none.mp hf e he) (by simp)
  | some f =>
    have hv : f.value = e.value := by simpa using List.find?_some hf
    rw [vlcOk_unique ht (List.mem_of_find?_eq_some hf) he (.inl hv)]
    rfl

theorem vlcCovers_mem {t : VlcTable} {lo hi : Nat} (h : vlcCovers t lo hi = true) {x : Nat} (h1 : lo ≤ x)
    (h2 : x ≤ hi) : (vlcWord? t x).isSome = true := by
  simp only [vlcCovers, Bool.and_eq_true, List.all_eq_true, List.mem_range] at h
  have := h.2 x (by omega)
  rw [← vlcHas_iff]
  simpa [vlcHas, show ¬ x < lo by omega] using this

/-- What a walk over a bit string can say, from the string `pre` that is inside some code word: the value whose code
word it met, a string that is in no code word, or that the string ended inside a code word (43_entropy.md R171). -/
theorem vlcWalk_outcomes (t : VlcTable) (ht : vlcSized t = true) (fuel : Nat) (pre bs : List Bool)
    (hf : pre.length + fuel = maxCodeLen t + 1)
    (hp : ∃ e ∈ t, pre <+: bits e.len e.code ∧ pre.length < e.len) :
    match vlcWalk t fuel pre.length (ofBits pre) bs with
    | some (some x, k) => ∃ e ∈ t, e.value = x ∧ e.len = k ∧ bits e.len e.code <+: pre ++ bs
    | some (none, k) => ∃ q, q <+: pre ++ bs ∧ q.length = k ∧ q ≠ [] ∧
        (∀ e ∈ t, ¬ q <+: bits e.len e.code) ∧ ∃ e ∈ t, q.dropLast <+: bits e.len e.code
    | none => ∃ e ∈ t, pre ++ bs <+: bits e.len e.code ∧ (pre ++ bs).length < e.len := by
  have hall := vlcSized_mem ht
  induction fuel generalizing pre bs with
  | zero =>
    obtain ⟨e, he, -, hl⟩ := hp
    have := le_maxCodeLen he
    omega
  | succ fuel ih =>
    cases bs with
    | nil =>
      simp only [vlcWalk, List.append_nil]; exact hp
    | cons b bs =>
      have hlen : (pre ++ [b]).length = pre.length + 1 := by simp
      have hval : ofBits (pre ++ [b]) = 2 * ofBits pre + b.toNat := by
        rw [ofBits_append]; cases b <;> simp [ofBits] <;> omega
      rw [vlcWalk, ← hval]
      have happ : pre ++ b :: bs = (pre ++ [b]) ++ bs := by simp
      rw [happ]
      cases hm : vlcMatch? t (pre.length + 1) (ofBits (pre ++ [b])) with
      | some e =>
        have he := List.mem_of_find?_eq_some hm
        have hv := List.find?_some hm
        simp only [Bool.and_eq_true, beq_iff_eq] at hv
        refine ⟨e, he, rfl, hv.1, ?_⟩
        rw [bits_of_code (s := pre ++ [b]) (by rw [hlen, hv.1]) hv.2.symm]
        exact List.prefix_append _ _
      | none =>
        simp only
        have hnm : ∀ e ∈ t, ¬ (e.len = pre.length + 1 ∧ e.code = ofBits (pre ++ [b])) := by
          intro e he h
          have := List.find?_eq_none.mp hm e he
          simp [h.1, h.2] at this
        by_cases hpx : vlcIsPrefix t (pre.length + 1) (ofBits (pre ++ [b])) = true
        · rw [if_pos hpx]
          have hp' : ∃ e ∈ t, pre ++ [b] <+: bits e.len e.code ∧ (pre ++ [b]).length < e.len := by
            obtain ⟨e, he, hx⟩ := List.any_eq_true.mp hpx
            simp only [Bool.and_eq_true, decide_eq_true_eq, beq_iff_eq] at hx
            refine ⟨e, he, (prefix_bits_iff _ _ _ (hall e he).1).mpr ⟨by omega, by rw [hlen]; exact hx.2⟩, by omega⟩
          have := ih (pre ++ [b]) bs (by simp; omega) hp'
          rw [hlen] at this
          exact this
        · rw [if_neg hpx]
          refine ⟨pre ++ [b], List.prefix_append _ _, hlen, by simp, ?_, ?_⟩
          · intro e he hpre
            obtain ⟨h1, h2⟩ := (prefix_bits_iff _ _ _ (hall e he).1).mp hpre
            rw [hlen] at h1 h2
            by_cases heq : e.len = pre.length + 1
            · apply hnm e he
              refine ⟨heq, ?_⟩
              rw [heq] at h2; simpa using h2
            · apply hpx
              refine List.any_eq_true.mpr ⟨e, he, ?_⟩
              simp only [Bool.and_eq_true, decide_eq_true_eq, beq_iff_eq]
              exact ⟨by omega, h2⟩
          · obtain ⟨e, he, h1, -⟩ := hp
            exact ⟨e, he, by simpa using h1⟩

/-- Walking along a code word of a table that passes the check ends at its own value, with all its bits. -/
theorem vlcOk_walk {t : VlcTable} (ht : vlcOk t = true) {e : VlcEntry} (he : e ∈ t) :
    vlcWalk t (maxCodeLen t + 1) 0 0 (bits e.len e.code) = some (some e.value, e.len) := by
  have hsz : vlcSized t = true := by
    simp only [vlcOk, Bool.and_eq_true] at ht
    exact ht.1
  have h := vlcWalk_outcomes t hsz (maxCodeLen t + 1) [] (bits e.len e.code) (by simp)
    ⟨e, he, List.nil_prefix, (vlcSized_mem hsz e he).2⟩
  simp only [List.nil_append, List.length_nil, show ofBits [] = 0 from rfl] at h
  split at h
  · rename_i hw
    obtain ⟨f, hf, rfl, rfl, hp⟩ := h
    rw [hw, vlcOk_unique ht hf he (.inr hp)]
  · obtain ⟨q, hq, -, -, hn, -⟩ := h
    exact absurd hq (hn e he)
  · obtain ⟨f, hf, hp, hl⟩ := h
    rw [vlcOk_unique ht he hf (.inr hp)] at hl
    simp at hl

/-- Decoding a code word that the source holds returns its value and consumes exactly its bits. -/
theorem vlcDec_reads {t : VlcTable} (ht : vlcOk t = true) {x : Nat} {w : List Bool}
    (hx : vlcWord? t x = some w) : Reads (vlcDec t) w x := by
  intro s h
  simp only [vlcWord?, Option.map_eq_some_iff] at hx
  obtain ⟨e, he, rfl⟩ := hx
  have hm := List.mem_of_find?_eq_some he
  have hv : e.value = x := by simpa using List.find?_some he
  obtain ⟨-, h4⟩ := vlcDecLoop_walk t _ 0 0 _ s h _ _ (vlcOk_walk ht hm)
  rw [vlcDec, h4, walkResult, hv]
  simp

/-- A string that leads to an unpopulated state raises at its last bit. -/
theorem vlcDec_corrupt {t : VlcTable} {bs : List Bool} {s : State} (h : s.SourceHolds bs)
    (hw : vlcWalk t (maxCodeLen t + 1) 0 0 bs = some (none, bs.length)) :
    vlcDec t s = .error .corruptHuffmanCode (s.consumed bs.length) := by
  have := (vlcDecLoop_walk t _ 0 0 bs s h _ _ hw).2
  simpa [vlcDec, walkResult] using this

theorem SourceHolds.of_prefix {s : State} {xs ys : List Bool} (h : s.SourceHolds ys) (hp : xs <+: ys) :
    s.SourceHolds xs := by
  obtain ⟨z, rfl⟩ := hp; exact (SourceHolds.split h).1

/-- `vlc_dec` where the source ends inside a code word (60_exceptions.md R326(b)). -/
theorem vlcDecLoop_eof (t : VlcTable) (fuel n v : Nat) (bs : List Bool) (s : State)
    (h : s.SourceHolds bs) (he : s.rpos.toNat + bs.length = 8 * s.src.length)
    (hw : vlcWalk t fuel n v bs = none) : vlcDecLoop t fuel n v s = .error .unexpectedEof (s.consumed bs.length) := by
  induction fuel generalizing n v bs s with
  | zero => simp [vlcWalk] at hw
  | succ fuel ih =>
    cases bs with
    | nil =>
      rw [vlcDecLoop, M.bind_error (getbits_eof 1 s (by simp at he; omega))]
      rw [List.length_nil, State.consumed_zero]
    | cons b bs =>
      obtain ⟨h1, h2⟩ := getbits_one h
      rw [vlcDecLoop, M.bind_ok h1]
      rw [vlcWalk] at hw
      split at hw
      · cases hw
      · rename_i hm
        rw [hm]
        simp only
        split at hw
        · rename_i hp
          have hc := s.consumed_toNat 1 h.1 (by simp at he; omega)
          have := ih _ _ _ _ h2 (by rw [hc, State.consumed_src]; simp at he; omega) hw
          rw [if_pos hp, this, State.consumed_consumed, List.length_cons, Nat.add_comm]
        · cases hw

/-- `vlc_dec` where the source ends inside a code word consumes what there is (60_exceptions.md R326(b)). -/
theorem vlcDec_stops {t : VlcTable} (ht : vlcOk t = true) {x : Nat} {w : List Bool} (hx : vlcWord? t x = some w) :
    Stops (vlcDec t) w := by
  refine .of_at (g := id) (fun _ => le_rfl) (fun s pre hp hl he => ?_)
  simp only [vlcWord?, Option.map_eq_some_iff] at hx
  obtain ⟨e, hm, rfl⟩ := hx
  have hmem := List.mem_of_find?_eq_some hm
  have hsz : vlcSized t = true := by
    simp only [vlcOk, Bool.and_eq_true] at ht
    exact ht.1
  have h := vlcWalk_outcomes t hsz (maxCodeLen t + 1) [] pre (by simp)
    ⟨e, hmem, List.nil_prefix, (vlcSized_mem hsz e hmem).2⟩
  simp only [List.nil_append, List.length_nil, show ofBits [] = 0 from rfl] at h
  refine vlcDecLoop_eof t _ 0 0 pre s he.1 he.2 ?_
  split at h
  · obtain ⟨f, hf, -, -, hpf⟩ := h
    have := vlcOk_unique ht hf hmem (.inr (hpf.trans hp))
    subst this
    have := hpf.length_le
    rw [bits_length] at this hl
    omega
  · obtain ⟨q, hq, -, -, hn, -⟩ := h
    exact absurd (hq.trans hp) (hn e hmem)
  · assumption

/-- `vlc_enc` of a value that has an entry writes its code word. -/
theorem vlcEnc_emits {t : VlcTable} {x : Nat} {w : List Bool} (hx : vlcWord? t x = some w) :
    Emits (vlcEnc t x) w := by
  rw [vlcEnc, hx]
  exact Emits.putcode w

theorem vlcEnc_absent {t : VlcTable} {x : Nat} (hx : vlcWord? t x = none) (s : State) :
    vlcEnc t x s = .error .unencodableSymbol s := by
  rw [vlcEnc, hx]
  rfl

/-! The tables of parameters that pass the check (43_entropy.md R165, 44_vlc_tables.md R196) -/

theorem Params.wf_parts {p : Params} (h : p.wf = true) :
    zigzagOk p.zigzag = true ∧ patternOk p.aePattern = true ∧ (vlcOk p.tblMba = true ∧ vlcCovers p.tblMba 1 35 = true) ∧
    (vlcOk p.tblMtype = true ∧ vlcCovers p.tblMtype 0 9 = true) ∧
    (vlcOk p.tblMvd = true ∧ vlcCovers p.tblMvd 0 31 = true) ∧
    (vlcOk p.tblCbp = true ∧ vlcCovers p.tblCbp 1 63 = true) ∧
    (vlcOk p.tblT1 = true ∧ vlcHas p.tblT1 eobSymbol = true ∧ vlcHas p.tblT1 escapeSymbol = true) ∧
    (vlcOk p.tblT2 = true ∧ vlcHas p.tblT2 eobSymbol = false ∧ vlcHas p.tblT2 escapeSymbol = true) := by
  simp only [Params.wf, Bool.and_eq_true, mbaStartcode, Bool.not_eq_true'] at h
  tauto

theorem pattern_ok {p : Params} (h : p.wf = true) : p.aePattern.length = 64 ∧ p.aePattern.Nodup ∧
    ∀ o ∈ p.aePattern, o.1 < 16 ∧ o.2 < 16 := by
  have := (Params.wf_parts h).2.1
  simpa [patternOk, and_assoc] using this

theorem vlcOk_tableOf {p : Params} (h : p.wf = true) (tbl : TableId) : vlcOk (tableOf p tbl) = true := by
  have := Params.wf_parts h
  cases tbl <;> simp only [tableOf] <;> tauto

theorem mba_entry {p : Params} (h : p.wf = true) (x : Nat) (h1 : 1 ≤ x) (h2 : x ≤ 35) :
    (vlcWord? p.tblMba x).isSome = true := vlcCovers_mem (Params.wf_parts h).2.2.1.2 h1 h2

theorem mtype_entry {p : Params} (h : p.wf = true) (x : Nat) (h1 : x ≤ 9) : (vlcWord? p.tblMtype x).isSome = true :=
  vlcCovers_mem (Params.wf_parts h).2.2.2.1.2 (Nat.zero_le _) h1

theorem mvd_entry {p : Params} (h : p.wf = true) (x : Nat) (h1 : x < 32) : (vlcWord? p.tblMvd x).isSome = true :=
  vlcCovers_mem (Params.wf_parts h).2.2.2.2.1.2 (Nat.zero_le _) (by omega)

theorem cbp_entry {p : Params} (h : p.wf = true) (x : Nat) (h1 : 1 ≤ x) (h2 : x < 64) :
    (vlcWord? p.tblCbp x).isSome = true := vlcCovers_mem (Params.wf_parts h).2.2.2.2.2.1.2 h1 (by omega)

theorem coef_entry {p : Params} (h : p.wf = true) : (vlcWord? p.tblT1 eobSymbol).isSome = true ∧
    (vlcWord? p.tblT1 escapeSymbol).isSome = true ∧ (vlcWord? p.tblT2 escapeSymbol).isSome = true := by
  have := Params.wf_parts h
  simp only [← vlcHas_iff]
  tauto

theorem tableOf_ne_nil {p : Params} (h : p.wf = true) (tbl : TableId) : tableOf p tbl ≠ [] := by
  have hs : ∃ x, (vlcWord? (tableOf p tbl) x).isSome = true := by
    cases tbl
    · exact ⟨1, mba_entry h 1 (by omega) (by omega)⟩
    · exact ⟨0, mtype_entry h 0 (by omega)⟩
    · exact ⟨0, mvd_entry h 0 (by omega)⟩
    · exact ⟨1, cbp_entry h 1 (by omega) (by omega)⟩
    · exact ⟨_, (coef_entry h).1⟩
    · exact ⟨_, (coef_entry h).2.2⟩
  obtain ⟨x, hx⟩ := hs
  intro hn
  rw [hn] at hx
  cases hx

theorem codeWord_some {t : VlcTable} {x : Nat} (h : (vlcWord? t x).isSome = true) :
    vlcWord? t x = some (codeWord t x) := by
  obtain ⟨w, hw⟩ := Option.isSome_iff_exists.mp h
  rw [codeWord, hw]
  rfl

/-! The scan (43_entropy.md R160) -/

theorem scan_perm {p : Params} (h : p.wf = true) : p.zigzag.toList.Perm (List.range 64) := by
  have := (Params.wf_parts h).1
  simpa [zigzagOk] using this

/-- `SCAN` is the inverse of `ZIGZAG`. -/
theorem zigzag_scan {p : Params} (h : p.wf = true) (k : Nat) (hk : k < 64) :
    ∃ hs : scan p k < 64, p.zigzag[scan p k] = k := by
  have hm : k ∈ p.zigzag.toList := (scan_perm h).mem_iff.mpr (List.mem_range.mpr hk)
  have hl : scan p k < p.zigzag.toList.length := List.findIdx_lt_length_of_exists ⟨k, hm, by simp⟩
  have := List.findIdx_getElem (w := hl)
  have hl' : scan p k < 64 := by simpa using hl
  refine ⟨hl', ?_⟩
  exact beq_iff_eq.mp this

theorem scan_lt {p : Params} (h : p.wf = true) (k : Nat) (hk : k < 64) : scan p k < 64 := (zigzag_scan h k hk).1

theorem scan_inj {p : Params} (h : p.wf = true) (j : Nat) (hj : j < 64) (k : Nat) (hk : k < 64)
    (e : scan p j = scan p k) : j = k := by
  obtain ⟨h1, h2⟩ := zigzag_scan h j hj
  obtain ⟨h3, h4⟩ := zigzag_scan h k hk
  rw [← h2, ← h4]
  simp only [e]

/-- The scan position of a lane. -/
theorem scan_zigzag {p : Params} (h : p.wf = true) (k : Nat) (hk : k < 64) :
    p.zigzag[k] < 64 ∧ scan p p.zigzag[k] = k := by
  have hm : p.zigzag[k] ∈ p.zigzag.toList := by simp
  have hlt : p.zigzag[k] < 64 := List.mem_range.mp ((scan_perm h).mem_iff.mp hm)
  obtain ⟨h1, h2⟩ := zigzag_scan h _ hlt
  refine ⟨hlt, ?_⟩
  have hn : p.zigzag.toList.Nodup := (scan_perm h).nodup_iff.mpr List.nodup_range
  exact (List.Nodup.getElem_inj_iff hn (hi := by simpa using h1) (hj := by simpa using hk)).mp (by simpa using h2)

theorem scan_surj {p : Params} (h : p.wf = true) (k : Nat) (hk : k < 64) : ∃ j < 64, scan p j = k :=
  ⟨_, (scan_zigzag h k hk).1, (scan_zigzag h k hk).2⟩

/-- With the first lane at position 0, position 0 is the first lane. -/
theorem scan_zero {p : Params} (h : p.wf = true) (h0 : p.zigzag[0] = 0) : scan p 0 = 0 := by
  have := (scan_zigzag h 0 (by omega)).2
  rwa [h0] at this

end Sys2Proof.Machine
end

