-- ==== Sys2Proof/Laws/Entropy.lean ====
section
/-!
SUPPORT. Laws of the entropy coder (43_entropy.md): the DC field, the bits of one coefficient in both directions, the
stream of a list of coefficients, and the positions it fills.
-/

namespace Sys2Proof.Machine

/-! The DC field -/

theorem clamp_eq (lo hi x : Int) (h : lo ≤ hi) : clamp lo hi x = max lo (min hi x) := by
  unfold clamp
  split
  · omega
  · split <;> omega

theorem dcMap_eq (v : Int) : dcMap v = dcField v := by
  unfold dcMap dcField
  rw [clamp_eq _ _ _ (by omega)]
  split <;> omega

theorem dcField_range (v : Int) : 1 ≤ dcField v ∧ dcField v ≤ 255 ∧ dcField v ≠ 128 := by
  unfold dcField
  split <;> omega

/-- Undoing the map gives the clamped value (43_entropy.md R175, R184). -/
theorem dcUnmap_dcField (v : Int) : dcUnmap (dcField v) = max 1 (min 254 v) := by
  unfold dcUnmap dcField
  split <;> split <;> omega

/-! One coefficient -/

theorem coefSymbol_eq {run : Nat} {lvl : Int} (h : lvl.natAbs < 256) : coefSymbol run lvl = symbolOf run lvl := by
  unfold coefSymbol symbolOf absNat
  rw [Nat.or_comm, Nat.shiftLeft_eq, Nat.mul_comm, ← Nat.two_pow_add_eq_or_of_lt (by simpa using h)]
  omega

/-- What the encoder writes for a coefficient is what the rule sends (43_entropy.md R180, R181). -/
theorem coefBits_eq (t : VlcTable) (run : Nat) (v : Int) : coefBits t run v = (sentCoef t (run, v)).bits t := by
  have hl : clampLevel v = max (-127) (min 127 v) := clamp_eq _ _ _ (by omega)
  have hs : coefSymbol run (clampLevel v) = symbolOf run (max (-127) (min 127 v)) := by
    rw [hl]
    exact coefSymbol_eq (by omega)
  unfold coefBits sentCoef Coef.bits
  dsimp only
  rw [hs, hl]
  by_cases he : symbolOf run (max (-127) (min 127 v)) = escapeSymbol
  · rw [if_pos he]
    simp [he, escapeBits, codeWord]
  · rw [if_neg he]
    split
    · rename_i hw
      simp [hw, escapeBits, codeWord]
    · rename_i w hw
      simp [he, codeWord, hw]

/-- Every coefficient that the encoder sends can be carried (43_entropy.md R174). -/
theorem sentCoef_ok (t : VlcTable) {c : Nat × Int} (h1 : c.1 < 64) (h2 : c.2 ≠ 0) : (sentCoef t c).ok t := by
  unfold sentCoef Coef.ok
  dsimp only
  refine ⟨h1, ?_⟩
  split
  · omega
  · rename_i he
    simp only [Bool.or_eq_true, beq_iff_eq, not_or] at he
    refine ⟨by omega, by omega, he.1, ?_⟩
    exact Option.isSome_iff_ne_none.mpr (by simpa using he.2)

/-- One coefficient at scan position `k`, as `DECBLK` reads it: its symbol, then its fields. -/
def readSymbolCoef (t : VlcTable) : M (Nat × Nat × Int) := do
  let sym ← vlcDec t
  let c ← readCoef sym
  pure (sym, c)

/-- The symbol of a coefficient in the stream. -/
def Coef.symbol (c : Coef) : Nat := if c.escaped then escapeSymbol else symbolOf c.run c.level

theorem Coef.symbol_ne {t : VlcTable} {c : Coef} (h : c.ok t) : c.symbol ≠ eobSymbol := by
  unfold Coef.symbol Coef.ok at *
  obtain ⟨-, h⟩ := h
  split
  · decide
  · rename_i he
    rw [if_neg he] at h
    unfold symbolOf eobSymbol
    omega

/-- The part of a coefficient's bits after its symbol. -/
def Coef.fields (c : Coef) : List Bool :=
  if c.escaped then Machine.bits 6 c.run ++ Machine.bits 8 (BitVec.ofInt 8 c.level).toNat else [decide (c.level < 0)]

theorem Coef.bits_eq (t : VlcTable) (c : Coef) : c.bits t = codeWord t c.symbol ++ c.fields := by
  unfold Coef.bits Coef.symbol Coef.fields
  split <;> simp

theorem Coef.symbol_word {t : VlcTable} (ht : (vlcWord? t escapeSymbol).isSome = true) {c : Coef} (h : c.ok t) :
    vlcWord? t c.symbol = some (codeWord t c.symbol) := by
  unfold Coef.symbol
  split
  · exact codeWord_some ht
  · rename_i he
    have := h.2
    rw [if_neg he] at this
    exact codeWord_some this.2.2.2

/-- The fields of a coefficient are read back exactly (43_entropy.md R174, R177). -/
theorem readCoef_reads {t : VlcTable} {c : Coef} (h : c.ok t) :
    Reads (readCoef c.symbol) c.fields (c.run, c.level) := by
  obtain ⟨h1, h2⟩ := h
  unfold readCoef Coef.symbol Coef.fields
  by_cases he : c.escaped = true
  · rw [if_pos he] at h2 ⊢
    rw [if_pos he, if_pos rfl]
    have r6 := Reads.getbits_bits 6 c.run
    have r8 := Reads.getbits_bits 8 (BitVec.ofInt 8 c.level).toNat
    rw [Nat.mod_eq_of_lt (by simpa using h1)] at r6
    have hl : sext8 ((BitVec.ofInt 8 c.level).toNat % 2 ^ 8) = c.level := by
      unfold sext8
      rw [Nat.mod_eq_of_lt (BitVec.ofInt 8 c.level).isLt, BitVec.ofNat_toNat, BitVec.setWidth_eq, BitVec.toInt_ofInt]
      exact Int.bmod_eq_of_le (by omega) (by omega)
    have := Reads.bind r6 (f := fun run => (do
      let lvl ← getbits 8
      pure (run, sext8 lvl) : M (Nat × Int))) (Reads.bind r8 (Reads.pure _))
    rw [hl, List.append_nil] at this
    exact this
  · rw [if_neg he] at h2 ⊢
    obtain ⟨h3, h4, h5, -⟩ := h2
    rw [if_neg he, if_neg h5]
    have r1 : Reads (getbits 1) [decide (c.level < 0)] (ofBits [decide (c.level < 0)]) :=
      Reads.getbits [decide (c.level < 0)]
    have hr : symbolOf c.run c.level / 2 ^ 8 % 2 ^ 6 = c.run := by unfold symbolOf; omega
    have hm : symbolOf c.run c.level % 2 ^ 8 = c.level.natAbs := by unfold symbolOf; omega
    have := Reads.bind r1 (f := fun sign => (pure (symbolOf c.run c.level / 2 ^ 8 % 2 ^ 6,
      if sign = 1 then -((symbolOf c.run c.level % 2 ^ 8 : Nat) : Int)
      else ((symbolOf c.run c.level % 2 ^ 8 : Nat) : Int)) : M (Nat × Int))) (Reads.pure _)
    have hsign : (if ofBits [decide (c.level < 0)] = 1 then -((c.level.natAbs : Nat) : Int)
        else ((c.level.natAbs : Nat) : Int)) = c.level := by
      by_cases hneg : c.level < 0
      · simp only [hneg, decide_true, show ofBits [true] = 1 from rfl, if_true]; omega
      · simp only [hneg, decide_false, show ofBits [false] = 0 from rfl, zero_ne_one, if_false]; omega
    rw [List.append_nil] at this
    simp only [hr, hm] at this ⊢
    rw [hsign] at this
    exact this

theorem readCoef_stops {t : VlcTable} {c : Coef} (h : c.ok t) : Stops (readCoef c.symbol) c.fields := by
  unfold readCoef Coef.symbol Coef.fields
  by_cases he : c.escaped = true
  · rw [if_pos he, if_pos he, if_pos rfl]
    have := Stops.bind (Reads.getbits_bits 6 c.run) (Stops.getbits_bits 6 c.run) (f := fun run => (do
      let lvl ← getbits 8
      pure (run, sext8 lvl) : M (Nat × Int)))
      (Stops.bind (Reads.getbits_bits 8 _) (Stops.getbits_bits 8 (BitVec.ofInt 8 c.level).toNat) (Stops.nil _))
    rw [List.append_nil] at this
    exact this
  · have h5 := h.2
    rw [if_neg he] at h5
    rw [if_neg he, if_neg he, if_neg h5.2.2.1]
    have := Stops.bind (Reads.getbits [decide (c.level < 0)]) (Stops.getbits [decide (c.level < 0)])
      (f := fun sign => (pure (symbolOf c.run c.level / 2 ^ 8 % 2 ^ 6,
        if sign = 1 then -((symbolOf c.run c.level % 2 ^ 8 : Nat) : Int)
        else ((symbolOf c.run c.level % 2 ^ 8 : Nat) : Int)) : M (Nat × Int))) (Stops.nil _)
    rw [List.append_nil] at this
    exact this

/-! Lists of coefficients -/

/-- What the encoder writes for the lanes in scan order is the stream of its coefficients (43_entropy.md R163, R164). -/
theorem coefsBits_eq (p : Params) (first : Bool) (run : Nat) (vs : List Int) :
    coefsBits p first run vs = coefStream p (if first then p.tblT2 else p.tblT1)
      (sentCoefs p (if first then p.tblT2 else p.tblT1) (runLevels run vs)) := by
  induction vs generalizing first run with
  | nil => rfl
  | cons v vs ih =>
    unfold coefsBits runLevels
    split
    · exact ih first (run + 1)
    · rw [coefBits_eq, ih false 0]
      simp only [Bool.false_eq_true, if_false, sentCoefs, coefStream]
      congr 1
      cases runLevels 0 vs with
      | nil => rfl
      | cons c cs => rfl

theorem runLevels_run {run : Nat} {vs : List Int} : ∀ c ∈ runLevels run vs, c.1 < run + vs.length ∧ c.2 ≠ 0 := by
  induction vs generalizing run with
  | nil => intro c hc; cases hc
  | cons v vs ih =>
    intro c hc
    unfold runLevels at hc
    split at hc
    · have := ih c hc
      simp only [List.length_cons]
      omega
    · rename_i hv
      rcases List.mem_cons.mp hc with rfl | hc
      · exact ⟨by simp, hv⟩
      · have := ih c hc
        simp only [List.length_cons]
        omega

theorem runLevels_position {run : Nat} {vs : List Int} :
    ((runLevels run vs).map (fun c => c.1 + 1)).sum ≤ run + vs.length := by
  induction vs generalizing run with
  | nil => simp [runLevels]
  | cons v vs ih =>
    unfold runLevels
    split
    · have := ih (run := run + 1)
      simp only [List.length_cons]
      omega
    · have := ih (run := 0)
      simp only [List.map_cons, List.sum_cons, List.length_cons]
      omega

theorem sentCoefs_runs (p : Params) (t : VlcTable) (l : List (Nat × Int)) :
    (sentCoefs p t l).map (fun c => c.run + 1) = l.map (fun c => c.1 + 1) := by
  cases l with
  | nil => rfl
  | cons c cs => simp [sentCoefs, sentCoef, Function.comp_def]

theorem positionAfter_cons (k : Nat) (c : Coef) (cs : List Coef) :
    positionAfter k (c :: cs) = positionAfter (k + c.run + 1) cs := by
  simp [positionAfter, Nat.add_assoc]

theorem positionAfter_ge (k : Nat) (cs : List Coef) : k + cs.length ≤ positionAfter k cs := by
  induction cs generalizing k with
  | nil => simp [positionAfter]
  | cons c cs ih =>
    have := ih (k + c.run + 1)
    rw [positionAfter_cons, List.length_cons]
    omega

/-- The table of the next coefficient, of parameters that pass the check. -/
theorem coefTable_ok {p : Params} (h : p.wf = true) (first : Bool) :
    vlcOk (if first then p.tblT2 else p.tblT1) = true ∧
    (vlcWord? (if first then p.tblT2 else p.tblT1) escapeSymbol).isSome = true := by
  cases first
  · exact ⟨vlcOk_tableOf h .t1, (coef_entry h).2.1⟩
  · exact ⟨vlcOk_tableOf h .t2, (coef_entry h).2.2⟩

/-- One round of the loop of `DECBLK` on a coefficient that is in the stream. -/
theorem decLoop_coef {p : Params} (hp : p.wf = true) {first : Bool} {c : Coef}
    (hc : c.ok (if first then p.tblT2 else p.tblT1)) (fuel k : Nat) (b : Block) {s : State}
    (hs : s.SourceHolds (c.bits (if first then p.tblT2 else p.tblT1))) :
    decLoop p (fuel + 1) first k b s =
      if k + c.run > 63 then
        .error .corruptHuffmanCode (s.consumed (c.bits (if first then p.tblT2 else p.tblT1)).length)
      else decLoop p fuel false (k + c.run + 1) (b.setIfInBounds (scan p (k + c.run)) (wrap16 c.level))
        (s.consumed (c.bits (if first then p.tblT2 else p.tblT1)).length) := by
  have ht := coefTable_ok hp first
  generalize hT : (if first then p.tblT2 else p.tblT1) = T at *
  rw [Coef.bits_eq] at hs
  obtain ⟨d1, d2⟩ := SourceHolds.split hs
  rw [decLoop, hT, M.bind_ok (vlcDec_reads ht.1 (Coef.symbol_word ht.2 hc) s d1)]
  rw [if_neg (Coef.symbol_ne hc), M.bind_ok (readCoef_reads hc _ d2), M.raiseIf_bind, State.consumed_consumed,
    Coef.bits_eq, List.length_append]

/-- The end of a block. -/
theorem decLoop_eob {p : Params} (hp : p.wf = true) (fuel k : Nat) (b : Block) {s : State}
    (hs : s.SourceHolds (codeWord p.tblT1 0)) :
    decLoop p (fuel + 1) false k b s = .ok b (s.consumed (codeWord p.tblT1 0).length) := by
  have ht : vlcOk p.tblT1 = true := vlcOk_tableOf hp .t1
  rw [decLoop, if_neg (by decide), M.bind_ok (vlcDec_reads ht (codeWord_some (coef_entry hp).1) s hs), if_pos rfl]
  rfl

/-- The loop of `DECBLK` on a list of coefficients in `TBL_T1` that stays within the 64 positions, with what follows
it: it places them and goes on. -/
theorem decLoop_coefs {p : Params} (hp : p.wf = true) (cs : List Coef) (hc : ∀ c ∈ cs, c.ok p.tblT1) (fuel k : Nat)
    (b : Block) (hf : cs.length ≤ fuel) (hk : positionAfter k cs ≤ 64) {s : State}
    (hs : s.SourceHolds (cs.flatMap (Coef.bits p.tblT1))) :
    decLoop p fuel false k b s = decLoop p (fuel - cs.length) false (positionAfter k cs) (placeCoefs p k cs b)
      (s.consumed (cs.flatMap (Coef.bits p.tblT1)).length) := by
  induction cs generalizing fuel k b s with
  | nil => simp [positionAfter, placeCoefs, State.consumed_zero]
  | cons c cs ih =>
    obtain ⟨fuel, rfl⟩ := Nat.exists_eq_succ_of_ne_zero (show fuel ≠ 0 by simp at hf; omega)
    rw [List.flatMap_cons] at hs
    obtain ⟨d1, d2⟩ := SourceHolds.split hs
    have hge := positionAfter_ge (k + c.run + 1) cs
    rw [positionAfter_cons] at hk ⊢
    have hstep := decLoop_coef hp (first := false) (hc c (List.mem_cons_self ..)) fuel k b d1
    simp only [Bool.false_eq_true, if_false] at hstep
    rw [hstep, if_neg (by omega), ih (fun c' h => hc c' (List.mem_cons_of_mem _ h)) fuel _ _ (by simpa using hf) hk d2,
      State.consumed_consumed, List.flatMap_cons, List.length_append, placeCoefs]
    simp

/-- One round of the loop of `DECBLK` whose source ends inside a coefficient or after it. -/
theorem decLoop_coef_stops {p : Params} (hp : p.wf = true) {first : Bool} {c : Coef}
    (hc : c.ok (if first then p.tblT2 else p.tblT1)) (fuel k : Nat) (b : Block) (hk : k + c.run ≤ 63) {ys : List Bool}
    (hy : ∀ b, Stops (decLoop p fuel false (k + c.run + 1) b) ys) :
    Stops (decLoop p (fuel + 1) first k b) (c.bits (if first then p.tblT2 else p.tblT1) ++ ys) := by
  have ht := coefTable_ok hp first
  rw [decLoop]
  generalize (if first then p.tblT2 else p.tblT1) = T at *
  have hw := Coef.symbol_word ht.2 hc
  rw [Coef.bits_eq, List.append_assoc]
  refine Stops.bind (vlcDec_reads ht.1 hw) (vlcDec_stops ht.1 hw) ?_
  rw [if_neg (Coef.symbol_ne hc)]
  refine Stops.bind (readCoef_reads hc) (readCoef_stops hc) ?_
  rw [M.raiseIf, if_neg (by simpa using hk)]
  simpa using hy _

/-- A source that ends inside a list of coefficients in `TBL_T1` or the end of block after them raises `UnexpectedEof`
(60_exceptions.md R326(b)). -/
theorem decLoop_stops {p : Params} (hp : p.wf = true) (cs : List Coef) (hc : ∀ c ∈ cs, c.ok p.tblT1) (fuel k : Nat)
    (b : Block) (hf : cs.length < fuel) (hk : positionAfter k cs ≤ 64) :
    Stops (decLoop p fuel false k b) (cs.flatMap (Coef.bits p.tblT1) ++ codeWord p.tblT1 0) := by
  have ht : vlcOk p.tblT1 = true := vlcOk_tableOf hp .t1
  have hw := codeWord_some (coef_entry hp).1
  induction cs generalizing fuel k b with
  | nil =>
    obtain ⟨fuel, rfl⟩ := Nat.exists_eq_succ_of_ne_zero (show fuel ≠ 0 by simp at hf; omega)
    rw [decLoop]
    have := Stops.bind (vlcDec_reads ht hw) (vlcDec_stops ht hw) (f := fun sym =>
      if sym = eobSymbol then pure b else (do
        let c ← readCoef sym
        M.raiseIf (k + c.1 > 63) .corruptHuffmanCode
        decLoop p fuel false (k + c.1 + 1) (b.setIfInBounds (scan p (k + c.1)) (wrap16 c.2)))) (Stops.nil _)
    rw [List.append_nil] at this
    exact this
  | cons c cs ih =>
    obtain ⟨fuel, rfl⟩ := Nat.exists_eq_succ_of_ne_zero (show fuel ≠ 0 by simp at hf; omega)
    have hge := positionAfter_ge (k + c.run + 1) cs
    rw [positionAfter_cons] at hk
    rw [List.flatMap_cons, List.append_assoc]
    exact decLoop_coef_stops hp (first := false) (hc c (List.mem_cons_self ..)) fuel k b (by omega)
      (fun b => ih (fun c' h => hc c' (List.mem_cons_of_mem _ h)) fuel _ b (by simpa using hf) hk)

/-! What the placed coefficients are -/

/-- The lanes after the coefficients of a run of values in scan order have been placed into zeros. -/
theorem placeCoefs_get {p : Params} (hp : p.wf = true) (f : Nat × Int → Coef) (hf : ∀ c, (f c).run = c.1 ∧ (f c).level = max (-127) (min 127 c.2))
    (run k : Nat) (vs : List Int) (b : Block) (hk : k + run + vs.length ≤ 64) (q : Nat) (hq : q < 64) :
    (placeCoefs p k ((runLevels run vs).map f) b)[scan p q]'(scan_lt hp q hq) =
      if h : k + run ≤ q ∧ q < k + run + vs.length then
        (if vs[q - (k + run)]'(by omega) = 0 then b[scan p q]'(scan_lt hp q hq)
        else wrap16 (max (-127) (min 127 (vs[q - (k + run)]'(by omega)))))
      else b[scan p q]'(scan_lt hp q hq) := by
  induction vs generalizing run k b with
  | nil =>
    rw [dif_neg (by simp)]
    rfl
  | cons v vs ih =>
    simp only [List.length_cons] at hk
    by_cases hv : v = 0
    · have e : runLevels run (v :: vs) = runLevels (run + 1) vs := by simp [runLevels, hv]
      simp only [e]
      rw [ih (run + 1) k b (by omega)]
      by_cases hpe : q = k + run
      · subst hpe
        rw [dif_neg (by omega), dif_pos (by simp)]
        simp [hv]
      · by_cases hr : k + (run + 1) ≤ q ∧ q < k + (run + 1) + vs.length
        · rw [dif_pos hr, dif_pos (by simp; omega)]
          have : q - (k + run) = (q - (k + (run + 1))) + 1 := by omega
          simp only [this, List.getElem_cons_succ]
        · rw [dif_neg hr, dif_neg (by simp; omega)]
    · have e : runLevels run (v :: vs) = (run, v) :: runLevels 0 vs := by simp [runLevels, hv]
      simp only [e, List.map_cons, placeCoefs, (hf (run, v)).1, (hf (run, v)).2]
      rw [ih 0 (k + run + 1) _ (by omega)]
      have hset : (b.setIfInBounds (scan p (k + run)) (wrap16 (max (-127) (min 127 v))))[scan p q]'(scan_lt hp q hq)
          = if q = k + run then wrap16 (max (-127) (min 127 v)) else b[scan p q]'(scan_lt hp q hq) := by
        rw [Vector.getElem_setIfInBounds]
        by_cases e : q = k + run
        · subst e; simp
        · rw [if_neg (fun h => e (scan_inj hp _ hq _ (by omega) h.symm)), if_neg e]
      by_cases hpe : q = k + run
      · subst hpe
        rw [dif_neg (by omega), dif_pos (by simp), hset, if_pos rfl]
        simp [hv]
      · by_cases hr : k + run + 1 + 0 ≤ q ∧ q < k + run + 1 + 0 + vs.length
        · rw [dif_pos hr, dif_pos (by simp; omega), hset, if_neg hpe]
          have : q - (k + run) = (q - (k + run + 1 + 0)) + 1 := by omega
          simp only [this, List.getElem_cons_succ]
        · rw [dif_neg hr, dif_neg (by simp; omega), hset, if_neg hpe]

end Sys2Proof.Machine
end

