-- ==== Sys2Proof/Laws/Frames.lean ====
section
/-!
SUPPORT. A relation that the primitive state changes of a command keep is kept by the whole command. Each lemma asks
only for the primitives that the command uses.
-/

namespace Sys2Proof.Machine

variable {P : State → State → Prop}

/-- Writing a result register of the list is a change that the relation allows. -/
abbrev WritesRes (P : State → State → Prop) (js : List (Fin 4)) : Prop := ∀ j ∈ js, ∀ v s, P s (s.setRes j v)

/-! Pieces of pseudocode -/

theorem Keeps.of_putcode (hP : Composes P) (hput : ∀ b, Keeps P (putbit b)) (s : List Bool) : Keeps P (putcode s) := by
  induction s with
  | nil => exact Keeps.pure hP _
  | cons b s ih => exact Keeps.bind hP (hput b) (fun _ => ih)

theorem Keeps.of_putbits (hP : Composes P) (hput : ∀ b, Keeps P (putbit b)) (n v : Nat) : Keeps P (putbits n v) :=
  Keeps.of_putcode hP hput _

theorem Keeps.of_vlcEnc (hP : Composes P) (hput : ∀ b, Keeps P (putbit b)) (t : VlcTable) (x : Nat) :
    Keeps P (vlcEnc t x) := by
  unfold vlcEnc
  split
  · exact Keeps.of_putcode hP hput _
  · exact Keeps.raise hP _

theorem Keeps.of_flushLoop (hP : Composes P) (hput : ∀ b, Keeps P (putbit b)) (n : Nat) : Keeps P (flushLoop n) := by
  induction n with
  | zero => exact Keeps.pure hP _
  | succ n ih =>
    refine Keeps.bind hP (Keeps.look hP _) (fun k => Keeps.ite ?_ (Keeps.pure hP _))
    exact Keeps.bind hP (Keeps.look hP _) (fun _ => Keeps.bind hP (hput _) (fun _ => ih))

theorem Keeps.of_putTail (hP : Composes P) (hput : ∀ b, Keeps P (putbit b)) (e : Bool) (x : Byte) :
    Keeps P (putTail e x) := by
  have h := Keeps.of_putbits hP hput
  refine Keeps.ite (p := e = true) ?_ ?_
  · exact Keeps.bind hP (h 1 1) (fun _ => Keeps.bind hP (h 8 _) (fun _ => h 1 0))
  · exact h 1 0

theorem Keeps.of_vlcDec (hP : Composes P) (hget : ∀ n, Keeps P (getbits n)) (t : VlcTable) : Keeps P (vlcDec t) := by
  suffices h : ∀ fuel n v, Keeps P (vlcDecLoop t fuel n v) from h _ _ _
  intro fuel
  induction fuel with
  | zero => intro n v; exact Keeps.raise hP _
  | succ fuel ih =>
    intro n v
    refine Keeps.bind hP (hget 1) (fun b => ?_)
    split
    · exact Keeps.pure hP _
    · exact Keeps.ite (ih _ _) (Keeps.raise hP _)

theorem Keeps.of_getTail (hP : Composes P) (hget : ∀ n, Keeps P (getbits n)) (fuel n : Nat) :
    Keeps P (getTail fuel n) := by
  induction fuel generalizing n with
  | zero => exact Keeps.raise hP _
  | succ fuel ih =>
    refine Keeps.bind hP (hget 1) (fun b => Keeps.ite ?_ (Keeps.pure hP _))
    exact Keeps.bind hP (hget 8) (fun _ => ih _)

theorem Keeps.of_readCoef (hP : Composes P) (hget : ∀ n, Keeps P (getbits n)) (sym : Nat) : Keeps P (readCoef sym) := by
  refine Keeps.ite ?_ ?_
  · exact Keeps.bind hP (hget 6) (fun _ => Keeps.bind hP (hget 8) (fun _ => Keeps.pure hP _))
  · exact Keeps.bind hP (hget 1) (fun _ => Keeps.pure hP _)

theorem Keeps.of_decLoop (hP : Composes P) (hget : ∀ n, Keeps P (getbits n)) (p : Params) (fuel : Nat)
    (first : Bool) (k : Nat) (b : Block) : Keeps P (decLoop p fuel first k b) := by
  induction fuel generalizing first k b with
  | zero => exact Keeps.raise hP _
  | succ fuel ih =>
    refine Keeps.bind hP (Keeps.of_vlcDec hP hget _) (fun sym => Keeps.ite (Keeps.pure hP _) ?_)
    exact Keeps.bind hP (Keeps.of_readCoef hP hget _) (fun c => Keeps.bind hP (Keeps.raiseIf hP _ _) (fun _ => ih _ _ _))

theorem Keeps.of_skipStuffing (hP : Composes P) (hget : ∀ n, Keeps P (getbits n)) (p : Params) (fuel : Nat) :
    Keeps P (skipStuffing p fuel) := by
  induction fuel with
  | zero => exact Keeps.raise hP _
  | succ fuel ih =>
    exact Keeps.bind hP (Keeps.of_vlcDec hP hget _) (fun a => Keeps.ite ih (Keeps.pure hP _))

theorem Keeps.of_whenCarried (hP : Composes P) {α : Type} (c : Bool) (absent : α) {x : M α} (hx : Keeps P x) :
    Keeps P (whenCarried c absent x) := Keeps.ite hx (Keeps.pure hP _)

theorem Keeps.of_readHeader (hP : Composes P) (hget : ∀ n, Keeps P (getbits n)) (p : Params) (pred : Mv5) :
    Keeps P (readHeader p pred) := by
  have hd := fun t => Keeps.of_vlcDec hP hget t
  exact Keeps.bind hP (hd _) (fun _ => Keeps.bind hP (Keeps.of_whenCarried hP _ _ (hget 5)) (fun _ => Keeps.bind hP
    (Keeps.of_whenCarried hP _ _ (Keeps.bind hP (hd _) (fun _ => Keeps.bind hP (hd _) (fun _ => Keeps.pure hP _))))
    (fun _ => Keeps.bind hP (Keeps.of_whenCarried hP _ _ (hd _)) (fun _ => Keeps.pure hP _))))

theorem Keeps.of_putHeader (hP : Composes P) (hput : ∀ b, Keeps P (putbit b)) (p : Params)
    (kh kv mba mtype mquant cbp : Nat) : Keeps P (putHeader p kh kv mba mtype mquant cbp) := by
  have hv := Keeps.of_vlcEnc hP hput
  exact Keeps.bind hP (hv _ _) (fun _ => Keeps.bind hP (hv _ _) (fun _ => Keeps.bind hP
    (Keeps.of_whenCarried hP _ _ (Keeps.of_putbits hP hput _ _)) (fun _ => Keeps.bind hP
      (Keeps.of_whenCarried hP _ _ (Keeps.bind hP (hv _ _) (fun _ => hv _ _)))
      (fun _ => Keeps.of_whenCarried hP _ _ (hv _ _)))))

theorem Keeps.of_checkMacroblock (hP : Composes P) (mbx mby : Nat) : Keeps P (checkMacroblock mbx mby) :=
  Keeps.bind hP (Keeps.look hP _) (fun _ => Keeps.bind hP (Keeps.raiseIf hP _ _) (fun _ => Keeps.raiseIf hP _ _))

theorem Keeps.of_putmbCheck (hP : Composes P) (mba mtype mquant : Nat) (mvh mvv : Int) (cbp : Nat) :
    Keeps P (putmbCheck mba mtype mquant mvh mvv cbp) := by
  have hr := fun (p : Prop) [Decidable p] c => Keeps.raiseIf hP p c
  exact Keeps.bind hP (Keeps.look hP _) (fun _ => Keeps.bind hP (Keeps.look hP _) (fun _ => Keeps.bind hP (hr _ _)
    (fun _ => Keeps.bind hP (hr _ _) (fun _ => Keeps.bind hP (hr _ _) (fun _ => Keeps.bind hP (hr _ _)
      (fun _ => hr _ _))))))

/-! Whole bodies -/

theorem Keeps.of_csrrBody (hP : Composes P) (hres : WritesRes P [0]) (csr : Nat) :
    Keeps P (csrrBody csr) := by
  refine Keeps.bind hP (Keeps.look hP _) (fun o => ?_)
  split
  · exact Keeps.raise hP _
  · exact Keeps.change (fun s => hres _ (by decide) _ s)

theorem Keeps.of_csrwBody (hP : Composes P) (hcfg : ∀ v s, P s { s with cfg := v })
    (hw : ∀ v s, P s { s with planeW := v }) (hh : ∀ v s, P s { s with planeH := v }) (csr : Nat) (v : BitVec 16) :
    Keeps P (csrwBody csr v) := by
  unfold csrwBody
  split
  · exact Keeps.bind hP (Keeps.raiseIf hP _ _) (fun _ => Keeps.change (hcfg v))
  · exact Keeps.bind hP (Keeps.raiseIf hP _ _) (fun _ => Keeps.change (hw v))
  · exact Keeps.bind hP (Keeps.raiseIf hP _ _) (fun _ => Keeps.change (hh v))
  · exact Keeps.raise hP _

theorem Keeps.of_wrbitsBody (hP : Composes P) (hput : ∀ b, Keeps P (putbit b)) (n : Nat) (v : Word) :
    Keeps P (wrbitsBody n v) :=
  Keeps.bind hP (Keeps.raiseIf hP _ _) (fun _ => Keeps.of_putbits hP hput _ _)

theorem Keeps.of_rdbitsBody (hP : Composes P) (hget : ∀ n, Keeps P (getbits n)) (hres : WritesRes P [0])
    (n : Nat) : Keeps P (rdbitsBody n) :=
  Keeps.bind hP (Keeps.raiseIf hP _ _) (fun _ => Keeps.bind hP (hget n) (fun _ => Keeps.change (fun s => hres _ (by decide) _ s)))

theorem Keeps.of_bitposBody (hP : Composes P) (hres : WritesRes P [0, 1]) (side : Side) :
    Keeps P (bitposBody side) :=
  Keeps.bind hP (Keeps.look hP _) (fun _ => Keeps.bind hP (Keeps.change (fun s => hres _ (by decide) _ s))
    (fun _ => Keeps.change (fun s => hres _ (by decide) _ s)))

theorem Keeps.of_fdctBody (hP : Composes P) (bd bs : Fin 8)
    (hblk : ∀ v s, P s (s.setBlock bd v)) :
    Keeps P (fdctBody bd bs) :=
  Keeps.bind hP (Keeps.look hP _) (fun _ => Keeps.bind hP (Keeps.look hP _) (fun _ => Keeps.change (fun s => hblk _ s)))

theorem Keeps.of_idctBody (hP : Composes P) (bd bs : Fin 8)
    (hblk : ∀ v s, P s (s.setBlock bd v)) :
    Keeps P (idctBody bd bs) :=
  Keeps.bind hP (Keeps.look hP _) (fun _ => Keeps.bind hP (Keeps.look hP _) (fun _ => Keeps.change (fun s => hblk _ s)))

theorem Keeps.of_quantBody (hP : Composes P) (b : Fin 8) (hblk : ∀ v s, P s (s.setBlock b v))
    (hres : WritesRes P [0]) (i : Coding) (q : Nat) : Keeps P (quantBody b i q) :=
  Keeps.bind hP (Keeps.raiseIf hP _ _) (fun _ => Keeps.bind hP (Keeps.look hP _) (fun _ => Keeps.bind hP
    (Keeps.look hP _) (fun _ => Keeps.bind hP (Keeps.change (fun s => hblk _ s))
      (fun _ => Keeps.change (fun s => hres _ (by decide) _ s)))))

theorem Keeps.of_dequantBody (hP : Composes P) (b : Fin 8) (hblk : ∀ v s, P s (s.setBlock b v)) (i : Coding)
    (q : Nat) : Keeps P (dequantBody b i q) :=
  Keeps.bind hP (Keeps.raiseIf hP _ _) (fun _ => Keeps.bind hP (Keeps.look hP _) (fun _ => Keeps.bind hP
    (Keeps.look hP _) (fun _ => Keeps.change (fun s => hblk _ s))))

theorem Keeps.of_encblkBody (hP : Composes P) (hput : ∀ b, Keeps P (putbit b)) (b : Fin 8) (i : Coding) :
    Keeps P (encblkBody b i) :=
  Keeps.bind hP (Keeps.look hP _) (fun _ => Keeps.bind hP (Keeps.raiseIf hP _ _) (fun _ =>
    Keeps.bind hP (Keeps.look hP _) (fun _ => Keeps.of_putcode hP hput _)))

theorem Keeps.of_decblkBody (hP : Composes P) (hget : ∀ n, Keeps P (getbits n)) (b : Fin 8)
    (hblk : ∀ v s, P s (s.setBlock b v)) (i : Coding) : Keeps P (decblkBody b i) := by
  refine Keeps.bind hP (Keeps.look hP _) (fun p => ?_)
  cases i with
  | inter => exact Keeps.bind hP (Keeps.of_decLoop hP hget _ _ _ _ _) (fun _ => Keeps.change (fun s => hblk _ s))
  | intra => exact Keeps.bind hP (hget 8) (fun _ => Keeps.bind hP (Keeps.of_decLoop hP hget _ _ _ _ _)
      (fun _ => Keeps.change (fun s => hblk _ s)))

theorem Keeps.of_vlcencBody (hP : Composes P) (hput : ∀ b, Keeps P (putbit b)) (t : TableId) (x : Nat) :
    Keeps P (vlcencBody t x) := Keeps.bind hP (Keeps.look hP _) (fun _ => Keeps.of_vlcEnc hP hput _ _)

theorem Keeps.of_vlcdecBody (hP : Composes P) (hget : ∀ n, Keeps P (getbits n)) (hres : WritesRes P [0])
    (t : TableId) : Keeps P (vlcdecBody t) :=
  Keeps.bind hP (Keeps.look hP _) (fun _ => Keeps.bind hP (Keeps.of_vlcDec hP hget _)
    (fun _ => Keeps.change (fun s => hres _ (by decide) _ s)))

theorem Keeps.of_meaeBody (hP : Composes P) (hres : WritesRes P [0]) (mbx mby : Nat) (dx dy : Int) :
    Keeps P (meaeBody mbx mby dx dy) :=
  Keeps.bind hP (Keeps.of_checkMacroblock hP _ _) (fun _ => Keeps.bind hP (Keeps.look hP _) (fun _ => Keeps.bind hP
    (Keeps.raiseIf hP _ _) (fun _ => Keeps.change (fun s => hres _ (by decide) _ s))))

theorem Keeps.of_mesearchBody (hP : Composes P) (hres : WritesRes P [0, 1, 2]) (mbx mby : Nat) :
    Keeps P (mesearchBody mbx mby) := by
  have hr := fun j hj v => Keeps.change (P := P) (fun s => hres j hj v s)
  exact Keeps.bind hP (Keeps.of_checkMacroblock hP _ _) (fun _ => Keeps.bind hP (Keeps.look hP _) (fun _ => Keeps.bind hP
    (hr _ (by decide) _) (fun _ => Keeps.bind hP (hr _ (by decide) _) (fun _ => hr _ (by decide) _))))

theorem Keeps.of_memtypeBody (hP : Composes P) (hres : WritesRes P [0, 1, 2, 3])
    (hrec : ∀ mb d s, P s (s.recordDecision mb d)) (mbx mby : Nat) : Keeps P (memtypeBody mbx mby) := by
  have hr := fun j hj v => Keeps.change (P := P) (fun s => hres j hj v s)
  exact Keeps.bind hP (Keeps.of_checkMacroblock hP _ _) (fun _ => Keeps.bind hP (Keeps.look hP _) (fun _ => Keeps.bind hP
    (Keeps.change (fun s => hrec _ _ s)) (fun _ => Keeps.bind hP (hr _ (by decide) _) (fun _ => Keeps.bind hP (hr _ (by decide) _)
      (fun _ => Keeps.bind hP (hr _ (by decide) _) (fun _ => hr _ (by decide) _))))))

theorem Keeps.of_putpicBody (hP : Composes P) (hput : ∀ b, Keeps P (putbit b)) (tr : Nat) (pt : BitVec 6) (e : Bool)
    (x : Byte) : Keeps P (putpicBody tr pt e x) := by
  have h := Keeps.of_putbits hP hput
  exact Keeps.bind hP (Keeps.look hP _) (fun _ => Keeps.bind hP (h _ _) (fun _ => Keeps.bind hP (h _ _)
    (fun _ => Keeps.bind hP (h _ _) (fun _ => Keeps.of_putTail hP hput _ _))))

theorem Keeps.of_putgobBody (hP : Composes P) (hput : ∀ b, Keeps P (putbit b))
    (hhdr : ∀ mv a s, P s (s.afterHeader mv a)) (gn gq : Nat) (e : Bool) (x : Byte) : Keeps P (putgobBody gn gq e x) := by
  have h := Keeps.of_putbits hP hput
  exact Keeps.bind hP (Keeps.raiseIf hP _ _) (fun _ => Keeps.bind hP (Keeps.raiseIf hP _ _) (fun _ => Keeps.bind hP
    (Keeps.look hP _) (fun _ => Keeps.bind hP (h _ _) (fun _ => Keeps.bind hP (h _ _) (fun _ => Keeps.bind hP (h _ _)
      (fun _ => Keeps.bind hP (Keeps.of_putTail hP hput _ _) (fun _ => Keeps.change (fun s => hhdr _ _ s))))))))

theorem Keeps.of_putmbBody (hP : Composes P) (hput : ∀ b, Keeps P (putbit b))
    (hhdr : ∀ mv a s, P s (s.afterHeader mv a)) (mba mtype mquant : Nat) (mvh mvv : Int) (cbp : Nat) :
    Keeps P (putmbBody mba mtype mquant mvh mvv cbp) :=
  Keeps.bind hP (Keeps.of_putmbCheck hP _ _ _ _ _ _) (fun _ => Keeps.bind hP (Keeps.look hP _) (fun _ => Keeps.bind hP
    (Keeps.look hP _) (fun _ => Keeps.bind hP (Keeps.look hP _) (fun _ => Keeps.bind hP
      (Keeps.of_putHeader hP hput _ _ _ _ _ _ _) (fun _ => Keeps.change (fun s => hhdr _ _ s))))))

theorem Keeps.of_getscBody (hP : Composes P) (hget : ∀ n, Keeps P (getbits n)) (hres : WritesRes P [0])
    (hsc : ∀ s, P s { s with scseen := false }) : Keeps P getscBody := by
  have h4 : Keeps P (do
      M.change (fun s => { s with scseen := false })
      let g ← getbits 4
      M.raiseIf (g > 12) .boundsError
      writeRes 0 g) :=
    Keeps.bind hP (Keeps.change hsc) (fun _ => Keeps.bind hP (hget 4) (fun _ => Keeps.bind hP
      (Keeps.raiseIf hP _ _) (fun _ => Keeps.change (fun s => hres _ (by decide) _ s))))
  refine Keeps.bind hP (Keeps.look hP _) (fun seen => Keeps.ite h4 ?_)
  exact Keeps.bind hP (Keeps.look hP _) (fun _ => Keeps.bind hP (hget 16) (fun _ => Keeps.bind hP
    (Keeps.raiseIf hP _ _) (fun _ => h4)))

theorem Keeps.of_getpicBody (hP : Composes P) (hget : ∀ n, Keeps P (getbits n)) (hres : WritesRes P [0, 1, 2]) :
    Keeps P getpicBody := by
  have hr := fun j hj v => Keeps.change (P := P) (fun s => hres j hj v s)
  exact Keeps.bind hP (hget 5) (fun _ => Keeps.bind hP (hget 6) (fun _ => Keeps.bind hP (Keeps.look hP _) (fun _ =>
    Keeps.bind hP (Keeps.of_getTail hP hget _ _) (fun _ => Keeps.bind hP (hr _ (by decide) _) (fun _ => Keeps.bind hP (hr _ (by decide) _)
      (fun _ => hr _ (by decide) _))))))

theorem Keeps.of_getgobBody (hP : Composes P) (hget : ∀ n, Keeps P (getbits n)) (hres : WritesRes P [0, 1])
    (hhdr : ∀ mv a s, P s (s.afterHeader mv a)) : Keeps P getgobBody := by
  have hr := fun j hj v => Keeps.change (P := P) (fun s => hres j hj v s)
  exact Keeps.bind hP (hget 5) (fun _ => Keeps.bind hP (Keeps.look hP _) (fun _ =>
    Keeps.bind hP (Keeps.of_getTail hP hget _ _) (fun _ => Keeps.bind hP (Keeps.change (fun s => hhdr _ _ s)) (fun _ =>
      Keeps.bind hP (hr _ (by decide) _) (fun _ => hr _ (by decide) _)))))

theorem Keeps.of_getmbBody (hP : Composes P) (hget : ∀ n, Keeps P (getbits n)) (hres : WritesRes P [0, 1, 2, 3])
    (hsc : ∀ s, P s { s with scseen := true }) (hhdr : ∀ mv a s, P s (s.afterHeader mv a)) : Keeps P getmbBody := by
  have hr := fun j hj v => Keeps.change (P := P) (fun s => hres j hj v s)
  refine Keeps.bind hP (Keeps.look hP _) (fun p => Keeps.bind hP (Keeps.look hP _) (fun _ => Keeps.bind hP
    (Keeps.of_skipStuffing hP hget p _) (fun a => Keeps.ite ?_ ?_)))
  · exact Keeps.bind hP (Keeps.change hsc) (fun _ => Keeps.bind hP (hr _ (by decide) _) (fun _ => Keeps.bind hP (hr _ (by decide) _)
      (fun _ => Keeps.bind hP (hr _ (by decide) _) (fun _ => hr _ (by decide) _))))
  · exact Keeps.bind hP (Keeps.look hP _) (fun _ => Keeps.bind hP (Keeps.raiseIf hP _ _) (fun _ => Keeps.bind hP
      (Keeps.look hP _) (fun _ => Keeps.bind hP (Keeps.of_readHeader hP hget _ _) (fun _ => Keeps.bind hP (Keeps.change (fun s => hhdr _ _ s)) (fun _ =>
        Keeps.bind hP (hr _ (by decide) _) (fun _ => Keeps.bind hP (hr _ (by decide) _) (fun _ => Keeps.bind hP (hr _ (by decide) _) (fun _ => hr _ (by decide) _))))))))

/-! From a body to its command -/

/-- A gated command keeps what its body and taking a fault keep. -/
theorem gated_keeps (hP : Composes P) (hfault : ∀ c o s, P s (s.raiseFault c o)) {op : Opcode} {body : M Unit}
    (hb : Keeps P body) {s t : State} (h : gated op body s = .next t) : P s t := by
  simp only [gated, Host.Outcome.next.injEq] at h
  split at h
  · exact h ▸ hP.refl s
  · have hs := hb s
    cases hbs : body s with
    | ok a u => rw [hbs] at h hs; exact h ▸ hs
    | error c u => rw [hbs] at h hs; exact h ▸ hP.trans _ _ _ hs (hfault _ _ _)

theorem ungated_keeps (hP : Composes P) (hfault : ∀ c o s, P s (s.raiseFault c o)) {op : Opcode} {body : M Unit}
    (hb : Keeps P body) {s t : State} (h : ungated op body s = .next t) : P s t := by
  simp only [ungated, Host.Outcome.next.injEq] at h
  have hs := hb s
  cases hbs : body s with
  | ok a u => rw [hbs] at h hs; exact h ▸ hs
  | error c u => rw [hbs] at h hs; exact h ▸ hP.trans _ _ _ hs (hfault _ _ _)

/-- Every command answers a next state: a fault of the spec is one (60_exceptions.md R320; log 4). -/
theorem exec_next (i : Instr) (s : State) : ∃ t, exec i s = .next t := by
  cases i <;> exact ⟨_, rfl⟩

/-! A part of the state that stays as it is, for `exec_keeps` -/

theorem Composes.same {α : Type} (f : State → α) : Composes (fun s t => f t = f s) :=
  ⟨fun _ => rfl, fun _ _ _ h g => g.trans h⟩

theorem raiseFault_same {α : Type} (f : State → α) (h : ∀ (u : Status) (s : State), f { s with status := u } = f s)
    (c : Cause) (o : BitVec 8) (s : State) : f (s.raiseFault c o) = f s := by
  unfold State.raiseFault
  split
  · rfl
  · exact h _ _

theorem putbit_same {α : Type} (f : State → α)
    (h : ∀ s a b c d, f { s with sink := a, wpend := b, wpos := c, sinkScript := d } = f s) (b : Bool) :
    Keeps (fun s t => f t = f s) (putbit b) := by
  intro s
  unfold putbit
  split
  · split
    · exact h s s.sink s.wpend s.wpos _
    · exact h s _ _ _ _
  · exact h s _ _ _ s.sinkScript

theorem getbits_same {α : Type} (f : State → α) (h : ∀ s r, f { s with rpos := r } = f s) (n : Nat) :
    Keeps (fun s t => f t = f s) (getbits n) := by
  intro s
  unfold getbits
  split
  · rfl
  · exact h s _

/-- What a command but RESET can change, said once: a relation is kept by the command if it is kept by the primitive
changes that the command makes. -/
theorem exec_keeps (hP : Composes P) (hfault : ∀ c o s, P s (s.raiseFault c o)) {i : Instr} (hi : i ≠ .reset)
    (hput : writesStream i = true → ∀ b, Keeps P (putbit b)) (hget : readsStream i = true → ∀ n, Keeps P (getbits n))
    (hres : WritesRes P (resultsOf i)) (hblk : ∀ b, blockOf i = some b → ∀ v s, P s (s.setBlock b v))
    (hcsr : i.opcode = .csrw → (∀ v s, P s { s with cfg := v }) ∧ (∀ v s, P s { s with planeW := v }) ∧
      ∀ v s, P s { s with planeH := v })
    (hhdr : i.opcode ∈ [Opcode.putgob, .getgob, .putmb, .getmb] → ∀ mv a s, P s (s.afterHeader mv a))
    (hsc : i.opcode ∈ [Opcode.getsc, .getmb] → ∀ b s, P s { s with scseen := b })
    (hrec : i.opcode = .memtype → ∀ mb d s, P s (s.recordDecision mb d))
    (hclr : i.opcode = .meclr → ∀ s, P s s.clearMotion)
    (hresp : i.opcode = .blkrd → ∀ w s, P s { s with resp := w }) {s t : State} (h : exec i s = .next t) : P s t := by
  cases i with
  | nop => exact gated_keeps hP hfault (Keeps.pure hP _) h
  | reset => exact absurd rfl hi
  | csrr csr => exact ungated_keeps hP hfault (Keeps.of_csrrBody hP hres csr) h
  | csrw csr v =>
    exact gated_keeps hP hfault (Keeps.of_csrwBody hP (hcsr rfl).1 (hcsr rfl).2.1 (hcsr rfl).2.2 csr v) h
  | blkwr b v => exact gated_keeps hP hfault (Keeps.change (fun s => hblk b rfl v s)) h
  | blkrd b => exact gated_keeps hP hfault (Keeps.change (fun s => hresp rfl _ s)) h
  | wrbits n v => exact gated_keeps hP hfault (Keeps.of_wrbitsBody hP (hput rfl) n v) h
  | rdbits n => exact gated_keeps hP hfault (Keeps.of_rdbitsBody hP (hget rfl) hres n) h
  | bitpos side => exact gated_keeps hP hfault (Keeps.of_bitposBody hP hres side) h
  | atend => exact gated_keeps hP hfault (Keeps.change (fun s => hres 0 (by decide) _ s)) h
  | flush => exact gated_keeps hP hfault (Keeps.of_flushLoop hP (hput rfl) _) h
  | fdct bd bs => exact gated_keeps hP hfault (Keeps.of_fdctBody hP bd bs (hblk bd rfl)) h
  | idct bd bs => exact gated_keeps hP hfault (Keeps.of_idctBody hP bd bs (hblk bd rfl)) h
  | quant b i q => exact gated_keeps hP hfault (Keeps.of_quantBody hP b (hblk b rfl) hres i q) h
  | dequant b i q => exact gated_keeps hP hfault (Keeps.of_dequantBody hP b (hblk b rfl) i q) h
  | encblk b i => exact gated_keeps hP hfault (Keeps.of_encblkBody hP (hput rfl) b i) h
  | decblk b i => exact gated_keeps hP hfault (Keeps.of_decblkBody hP (hget rfl) b (hblk b rfl) i) h
  | vlcenc tbl v => exact gated_keeps hP hfault (Keeps.of_vlcencBody hP (hput rfl) _ _) h
  | vlcdec tbl => exact gated_keeps hP hfault (Keeps.of_vlcdecBody hP (hget rfl) hres tbl) h
  | meae mbx mby dx dy => exact gated_keeps hP hfault (Keeps.of_meaeBody hP hres mbx mby dx dy) h
  | mesearch mbx mby => exact gated_keeps hP hfault (Keeps.of_mesearchBody hP hres mbx mby) h
  | memtype mbx mby => exact gated_keeps hP hfault (Keeps.of_memtypeBody hP hres (hrec rfl) mbx mby) h
  | meclr => exact gated_keeps hP hfault (Keeps.change (hclr rfl)) h
  | putpic tr pt e x => exact gated_keeps hP hfault (Keeps.of_putpicBody hP (hput rfl) tr pt e x) h
  | putgob gn gq e x => exact gated_keeps hP hfault (Keeps.of_putgobBody hP (hput rfl) (hhdr (by simp [Instr.opcode])) gn gq e x) h
  | putmb mba mtype mquant mvh mvv cbp =>
    exact gated_keeps hP hfault (Keeps.of_putmbBody hP (hput rfl) (hhdr (by simp [Instr.opcode])) mba mtype mquant mvh mvv cbp) h
  | getsc => exact gated_keeps hP hfault (Keeps.of_getscBody hP (hget rfl) hres (hsc (by decide) false)) h
  | getpic => exact gated_keeps hP hfault (Keeps.of_getpicBody hP (hget rfl) hres) h
  | getgob => exact gated_keeps hP hfault (Keeps.of_getgobBody hP (hget rfl) hres (hhdr (by simp [Instr.opcode]))) h
  | getmb =>
    exact gated_keeps hP hfault (Keeps.of_getmbBody hP (hget rfl) hres (hsc (by decide) true) (hhdr (by simp [Instr.opcode]))) h

end Sys2Proof.Machine
end

