-- ==== Sys2Proof/Laws/Framing.lean ====
section
/-!
SUPPORT. Laws of the framing layer (46_framing.md): the checks of PUTMB in one equation, the vector arithmetic, the
extension tail, and the macroblock header as bits written and bits read.
-/

namespace Sys2Proof.Machine

/-! Vectors -/

theorem mvdKey_lt (c : Int) (pred : BitVec 5) : mvdKey c pred < 32 := by unfold mvdKey low5; omega

/-- The far end gets the component back (46_framing.md R244). -/
theorem mvdValue_mvdKey (c : Int) (pred : BitVec 5) (h : fitsS5 c) : mvdValue pred (mvdKey c pred) = c := by
  unfold mvdValue mvdKey low5 sext5
  obtain ⟨h1, h2⟩ := h
  split <;> omega

/-- The predictor that the rules name, and a component as `LASTMV` holds it. -/
theorem mv5Of_eq (h v : Int) : mv5Of h v = ⟨BitVec.ofInt 5 h, BitVec.ofInt 5 v⟩ := rfl

/-! The checks of PUTMB -/

/-- The checks of PUTMB in their order, in one equation (46_framing.md R243). -/
theorem putmbCheck_run (mba mtype mquant : Nat) (mvh mvv : Int) (cbp : Nat) (s : State) :
    putmbCheck mba mtype mquant mvh mvv cbp s =
      if mtype > 9 then .error .headerFramingError s
      else if mba < 1 ∨ mba > 33 ∨ s.mbaddr.toNat + mba > 33 then .error .boundsError s
      else if strayField (mtypeAttr s.par mtype) mquant mvh mvv cbp then .error .headerFramingError s
      else if (mtypeAttr s.par mtype).quant = true ∧ mquant = 0 then .error .argumentError s
      else if (mtypeAttr s.par mtype).cbp = true ∧ cbp = 0 then .error .unencodableSymbol s
      else .ok () s := by
  unfold putmbCheck
  rw [M.look_bind, M.look_bind]
  simp only [M.raiseIf_bind, M.raiseIf_run]

theorem putmbCheck_inv {mba mtype mquant : Nat} {mvh mvv : Int} {cbp : Nat} {s t : State} {u : Unit}
    (h : putmbCheck mba mtype mquant mvh mvv cbp s = .ok u t) : t = s ∧ s.mbaddr.toNat + mba ≤ 33 := by
  rw [putmbCheck_run] at h
  split_ifs at h
  cases h
  exact ⟨rfl, by omega⟩

theorem putmbCheck_error {mba mtype mquant : Nat} {mvh mvv : Int} {cbp : Nat} {s t : State} {c : Cause}
    (h : putmbCheck mba mtype mquant mvh mvv cbp s = .error c t) :
    t = s ∧ c ∈ [Cause.headerFramingError, .boundsError, .argumentError, .unencodableSymbol] := by
  rw [putmbCheck_run] at h
  split_ifs at h <;> cases h <;> exact ⟨rfl, by decide⟩

theorem putmbCheck_ok {mba mtype mquant : Nat} {mvh mvv : Int} {cbp : Nat} {s : State}
    (h : headerOk s.par mba mtype mquant mvh mvv cbp) (ha : s.mbaddr.toNat + mba ≤ 33) :
    putmbCheck mba mtype mquant mvh mvv cbp s = .ok () s := by
  obtain ⟨h1, h2, h3, -, -, -, -, h4, h5, h6⟩ := h
  rw [putmbCheck_run, if_neg (by omega), if_neg (by omega), if_neg h4, if_neg (by tauto), if_neg (by tauto)]

/-! The extension tail -/

theorem putTail_emits (e : Bool) (ext : Byte) :
    Emits (putTail e ext) ((if e then true :: bits 8 ext.toNat else []) ++ [false]) := by
  have h0 := Emits.putbits 1 0
  unfold putTail
  cases e with
  | true =>
    have h := Emits.seq (Emits.putbits 1 1) (Emits.seq (Emits.putbits 8 ext.toNat) h0)
    simpa [show bits 1 1 = [true] from rfl, show bits 1 0 = [false] from rfl] using h
  | false => exact h0

/-- The tail is read whatever its length, and its bytes are counted (46_framing.md R249). -/
theorem getTail_reads (l : List Byte) (fuel n : Nat) (h : l.length < fuel) :
    Reads (getTail fuel n) (tailBits l) (n + l.length) := by
  induction l generalizing fuel n with
  | nil =>
    obtain ⟨fuel, rfl⟩ := Nat.exists_eq_succ_of_ne_zero (show fuel ≠ 0 by simp at h; omega)
    have h0 : Reads (getbits 1) [false] 0 := Reads.getbits [false]
    have hb := Reads.bind h0 (f := fun more => if more = 1 then (do
      let _ ← getbits 8
      getTail fuel (n + 1)) else pure n) (Reads.pure n)
    exact hb
  | cons e l ih =>
    obtain ⟨fuel, rfl⟩ := Nat.exists_eq_succ_of_ne_zero (show fuel ≠ 0 by simp at h; omega)
    have h1 : Reads (getbits 1) [true] 1 := Reads.getbits [true]
    have h8 := Reads.getbits (bits 8 e.toNat)
    rw [bits_length] at h8
    have hr := ih fuel (n + 1) (by simpa using h)
    have hb := Reads.bind h1 (f := fun more => if more = 1 then (do
      let _ ← getbits 8
      getTail fuel (n + 1)) else pure n) (Reads.bind h8 hr)
    have e1 : tailBits (e :: l) = [true] ++ (bits 8 e.toNat ++ tailBits l) := by simp [tailBits]
    have e2 : n + (e :: l).length = n + 1 + l.length := by simp; omega
    rw [e1, e2]
    exact hb

/-- Where the source ends inside the tail: past the bytes that are whole, and past a bit that announces one
(60_exceptions.md R326(b)). -/
theorem getTail_stops (l : List Byte) (fuel n : Nat) (h : l.length < fuel) :
    StopsAt (getTail fuel n) (tailBits l) (fun k => 9 * (k / 9) + min 1 (k % 9)) := by
  induction l generalizing fuel n with
  | nil =>
    intro s pre hp hl he
    obtain rfl : pre = [] := List.eq_nil_of_length_eq_zero (by
      have : (tailBits []).length = 1 := rfl
      omega)
    obtain ⟨fuel, rfl⟩ := Nat.exists_eq_succ_of_ne_zero (show fuel ≠ 0 by simp at h; omega)
    rw [getTail, M.bind_error (getbits_eof 1 s (by have := he.2; simp at this; omega))]
    simp [State.consumed_zero]
  | cons e l ih =>
    obtain ⟨fuel, rfl⟩ := Nat.exists_eq_succ_of_ne_zero (show fuel ≠ 0 by simp at h; omega)
    have h1 : Reads (getbits 1) [true] 1 := Reads.getbits [true]
    have h8 := Reads.getbits (bits 8 e.toNat)
    have s8 := StopsAt.getbits (bits 8 e.toNat)
    rw [bits_length] at h8 s8
    have hb := StopsAt.bind h1 (StopsAt.getbits [true]) (f := fun more => if more = 1 then (do
      let _ ← getbits 8
      getTail fuel (n + 1)) else pure n) (StopsAt.bind h8 s8 (ih fuel (n + 1) (by simpa using h)))
    have e1 : tailBits (e :: l) = [true] ++ (bits 8 e.toNat ++ tailBits l) := by simp [tailBits]
    intro s pre hp hl he
    rw [e1] at hp hl
    have hx := hb s pre hp hl he
    simp only [List.length_singleton, bits_length] at hx
    rw [getTail]
    refine hx.trans ?_
    congr 2
    show _ = 9 * (pre.length / 9) + min 1 (pre.length % 9)
    split
    · omega
    · split <;> omega

theorem tailBits_length (l : List Byte) : (tailBits l).length = 1 + 9 * l.length := by
  induction l with
  | nil => rfl
  | cons e l ih => simp [tailBits] at *; omega

/-- The fuel of a read is more than the bits that the source holds (log 19). -/
theorem SourceHolds.fuel {s : State} {bs : List Bool} (h : s.SourceHolds bs) : bs.length < s.readFuel := by
  have := h.2.1
  simp only [State.readFuel]
  omega

/-! The macroblock header -/

theorem whenCarried_emits (c : Bool) {x : M Unit} {bs : List Bool} (h : c = true → Emits x bs) :
    Emits (whenCarried c () x) (if c then bs else []) := by
  cases c with
  | true => exact h rfl
  | false => exact Emits.done

theorem whenCarried_reads {α : Type} (c : Bool) {x : M α} {absent a : α} {bs : List Bool}
    (h : c = true → Reads x bs a) (h0 : c = false → a = absent) :
    Reads (whenCarried c absent x) (if c then bs else []) a := by
  cases c with
  | true => exact h rfl
  | false => rw [h0 rfl]; exact Reads.pure _

theorem whenCarried_stops {α : Type} (c : Bool) {x : M α} (absent : α) {bs : List Bool} (h : c = true → Stops x bs) :
    Stops (whenCarried c absent x) (if c then bs else []) := by
  cases c with
  | true => exact h rfl
  | false => exact Stops.nil _

theorem putHeader_emits {p : Params} (hp : p.wf = true) {kh kv mba mtype mquant cbp : Nat} (hh : kh < 32) (hv : kv < 32)
    (h1 : 1 ≤ mba) (h2 : mba ≤ 33) (h3 : mtype ≤ 9) (hc : cbp < 64) (h6 : (mtypeAttr p mtype).cbp = true → cbp ≠ 0) :
    Emits (putHeader p kh kv mba mtype mquant cbp) (headerBits p kh kv mba mtype mquant cbp) := by
  have e1 := vlcEnc_emits (codeWord_some (mba_entry hp mba h1 (by omega)))
  have e2 := vlcEnc_emits (codeWord_some (mtype_entry hp mtype h3))
  have e3 := whenCarried_emits (mtypeAttr p mtype).quant (fun _ => Emits.putbits 5 mquant)
  have e4 := whenCarried_emits (mtypeAttr p mtype).mv (fun _ =>
    Emits.seq (vlcEnc_emits (codeWord_some (mvd_entry hp _ hh))) (vlcEnc_emits (codeWord_some (mvd_entry hp _ hv))))
  have e5 := whenCarried_emits (mtypeAttr p mtype).cbp (fun ht =>
    vlcEnc_emits (codeWord_some (cbp_entry hp cbp (by have := h6 ht; omega) hc)))
  have := Emits.seq e1 (Emits.seq e2 (Emits.seq e3 (Emits.seq e4 e5)))
  simp only [headerBits, List.append_assoc]
  exact this

/-- PUTMB in three parts: the checks, the bits, the state of the session. -/
theorem putmbBody_run {mba mtype mquant : Nat} {mvh mvv : Int} {cbp : Nat} {s : State}
    (h : putmbCheck mba mtype mquant mvh mvv cbp s = .ok () s) :
    putmbBody mba mtype mquant mvh mvv cbp s = (do
      putHeader s.par (mvdKey mvh (mvPredictor s.par s.lastMv mba (s.mbaddr.toNat + mba)).h)
        (mvdKey mvv (mvPredictor s.par s.lastMv mba (s.mbaddr.toNat + mba)).v) mba mtype mquant cbp
      M.change (fun t => t.afterHeader (if (mtypeAttr s.par mtype).mv then mv5Of mvh mvv else Mv5.zero)
        (s.mbaddr.toNat + mba)) : M Unit) s := by
  unfold putmbBody
  rw [M.bind_ok h, M.look_bind, M.look_bind, M.look_bind]

/-- The symbols of a vector as R244 writes them. -/
theorem mvdKey_eq (c : Int) (pred : BitVec 5) : mvdKey c pred = ((c - pred.toInt) % 32).toNat := rfl

/-- The predictor as R244 writes it. -/
theorem mvPredictor_eq (p : Params) (last : Mv5) (mba addr : Nat) :
    ((mvPredictor p last mba addr).h.toInt, (mvPredictor p last mba addr).v.toInt) =
      if p.mvdResetH261 = true ∧ (mba ≠ 1 ∨ addr ∈ [1, 12, 23]) then (0, 0) else (last.h.toInt, last.v.toInt) := by
  unfold mvPredictor
  have hc : (p.mvdResetH261 && (decide (mba ≠ 1) || addr == 1 || addr == 12 || addr == 23)) = true ↔
      p.mvdResetH261 = true ∧ (mba ≠ 1 ∨ addr ∈ [1, 12, 23]) := by
    simp [or_assoc]
  by_cases h : p.mvdResetH261 = true ∧ (mba ≠ 1 ∨ addr ∈ [1, 12, 23])
  · rw [if_pos (hc.mpr h), if_pos h]
    rfl
  · rw [if_neg (fun e => h (hc.mp e)), if_neg h]

/-- The bits of a vector. -/
theorem readVector_reads {p : Params} (hp : p.wf = true) (pred : Mv5) {mvh mvv : Int} (hh : fitsS5 mvh) (hv : fitsS5 mvv) :
    Reads (readVector p pred) (codeWord p.tblMvd (mvdKey mvh pred.h) ++ codeWord p.tblMvd (mvdKey mvv pred.v))
      ⟨mvh, mvv⟩ ∧
    Stops (readVector p pred) (codeWord p.tblMvd (mvdKey mvh pred.h) ++ codeWord p.tblMvd (mvdKey mvv pred.v)) := by
  have hw : vlcOk p.tblMvd = true := vlcOk_tableOf hp .mvd
  have hx := fun c (q : BitVec 5) => codeWord_some (mvd_entry hp _ (mvdKey_lt c q))
  have hb := fun c q => vlcDec_reads hw (hx c q)
  have hs := fun c q => vlcDec_stops hw (hx c q)
  have e : (⟨mvh, mvv⟩ : Mv) = ⟨mvdValue pred.h (mvdKey mvh pred.h), mvdValue pred.v (mvdKey mvv pred.v)⟩ := by
    rw [mvdValue_mvdKey _ _ hh, mvdValue_mvdKey _ _ hv]
  constructor
  · have := Reads.bind (hb mvh pred.h) (f := fun kh => (do
        let kv ← vlcDec p.tblMvd
        pure (⟨mvdValue pred.h kh, mvdValue pred.v kv⟩ : Mv)))
      (Reads.bind (hb mvv pred.v)
        (f := fun kv => (pure ⟨mvdValue pred.h (mvdKey mvh pred.h), mvdValue pred.v kv⟩ : M Mv)) (Reads.pure _))
    rw [List.append_nil] at this
    rw [e]
    exact this
  · have := Stops.bind (hb mvh pred.h) (hs mvh pred.h) (f := fun kh => (do
        let kv ← vlcDec p.tblMvd
        pure (⟨mvdValue pred.h kh, mvdValue pred.v kv⟩ : Mv)))
      (Stops.bind (hb mvv pred.v) (hs mvv pred.v)
        (f := fun kv => (pure ⟨mvdValue pred.h (mvdKey mvh pred.h), mvdValue pred.v kv⟩ : M Mv)) (Stops.nil _))
    rw [List.append_nil] at this
    exact this

/-- The bits of a header after its address. -/
def fieldBits (p : Params) (kh kv mtype mquant cbp : Nat) : List Bool :=
  codeWord p.tblMtype mtype ++ ((if (mtypeAttr p mtype).quant then bits 5 mquant else []) ++
    ((if (mtypeAttr p mtype).mv then codeWord p.tblMvd kh ++ codeWord p.tblMvd kv else []) ++
      ((if (mtypeAttr p mtype).cbp then codeWord p.tblCbp cbp else []) ++ [])))

theorem headerBits_eq (p : Params) (kh kv mba mtype mquant cbp : Nat) :
    headerBits p kh kv mba mtype mquant cbp = codeWord p.tblMba mba ++ fieldBits p kh kv mtype mquant cbp := by
  simp only [headerBits, fieldBits, List.append_assoc, List.append_nil]

/-- The fields of a header after its address are read back exactly (46_framing.md R248, R252), and a source that ends
inside them raises `UnexpectedEof` (60_exceptions.md R326(b)). -/
theorem readHeader_reads {p : Params} (hp : p.wf = true) (pred : Mv5) {mtype mquant : Nat} {mvh mvv : Int} {cbp : Nat}
    (h3 : mtype ≤ 9) (hq : mquant < 32) (hc : cbp < 64) (hh : fitsS5 mvh) (hv : fitsS5 mvv)
    (hs : ¬ strayField (mtypeAttr p mtype) mquant mvh mvv cbp) (h6 : (mtypeAttr p mtype).cbp = true → cbp ≠ 0) :
    Reads (readHeader p pred) (fieldBits p (mvdKey mvh pred.h) (mvdKey mvv pred.v) mtype mquant cbp)
      (mtype, mquant, ⟨mvh, mvv⟩, cbp) ∧
    Stops (readHeader p pred) (fieldBits p (mvdKey mvh pred.h) (mvdKey mvv pred.v) mtype mquant cbp) := by
  have x1 := codeWord_some (mtype_entry hp mtype h3)
  have x5 := fun ht => codeWord_some (cbp_entry hp cbp (by have := h6 ht; omega) hc)
  have hv' := readVector_reads hp pred hh hv
  have r1 := vlcDec_reads (vlcOk_tableOf hp .mtype) x1
  have r2 : Reads (getbits 5) (bits 5 mquant) mquant := by
    have := Reads.getbits_bits 5 mquant
    rwa [Nat.mod_eq_of_lt (by simpa using hq)] at this
  have c2 := whenCarried_reads (mtypeAttr p mtype).quant (absent := 0) (fun _ => r2)
    (by intro e; by_contra hne; exact hs (.inl ⟨e, hne⟩))
  have c3 := whenCarried_reads (mtypeAttr p mtype).mv (absent := Mv.zero) (fun _ => hv'.1) (by
    intro e
    have : ¬ (mvh ≠ 0 ∨ mvv ≠ 0) := fun hne => hs (.inr (.inl ⟨e, hne⟩))
    simp only [Mv.zero, Mv.mk.injEq]
    omega)
  have c4 := whenCarried_reads (mtypeAttr p mtype).cbp (absent := 0)
    (fun ht => vlcDec_reads (vlcOk_tableOf hp .cbp) (x5 ht))
    (by intro e; by_contra hne; exact hs (.inr (.inr ⟨e, hne⟩)))
  constructor
  · exact Reads.bind r1 (f := fun t => _) (Reads.bind c2 (f := fun mq => _) (Reads.bind c3 (f := fun mv => _)
      (Reads.bind c4 (f := fun cbp => _) (Reads.pure _))))
  · exact Stops.bind r1 (vlcDec_stops (vlcOk_tableOf hp .mtype) x1) (f := fun t => _)
      (Stops.bind c2 (whenCarried_stops _ _ (fun _ => Stops.getbits_bits 5 mquant)) (f := fun mq => _)
        (Stops.bind c3 (whenCarried_stops _ _ (fun _ => hv'.2)) (f := fun mv => _)
          (Stops.bind c4 (whenCarried_stops _ _ (fun ht => vlcDec_stops (vlcOk_tableOf hp .cbp) (x5 ht)))
            (f := fun cbp => _) (Stops.nil _))))

/-- Stuffing is skipped, however much of it there is (46_framing.md R248), and a source that ends inside it or inside
the code word after it raises `UnexpectedEof`. -/
theorem skipStuffing_reads {p : Params} (hp : p.wf = true) (n a fuel : Nat) (h1 : 1 ≤ a) (h2 : a ≤ 35)
    (ha : a ≠ mbaStuffing) (hf : n < fuel) :
    Reads (skipStuffing p fuel) ((List.replicate n (codeWord p.tblMba 34)).flatten ++ codeWord p.tblMba a) a ∧
    Stops (skipStuffing p fuel) ((List.replicate n (codeWord p.tblMba 34)).flatten ++ codeWord p.tblMba a) := by
  have hx := fun x (e1 : 1 ≤ x) (e2 : x ≤ 35) => codeWord_some (mba_entry hp x e1 e2)
  have hw : vlcOk p.tblMba = true := vlcOk_tableOf hp .mba
  have hd := fun x (e1 : 1 ≤ x) (e2 : x ≤ 35) => vlcDec_reads hw (hx x e1 e2)
  have hs := fun x (e1 : 1 ≤ x) (e2 : x ≤ 35) => vlcDec_stops hw (hx x e1 e2)
  induction n generalizing fuel with
  | zero =>
    obtain ⟨fuel, rfl⟩ := Nat.exists_eq_succ_of_ne_zero (show fuel ≠ 0 by omega)
    have hr := Reads.bind (hd a h1 h2) (f := fun a => if a = mbaStuffing then skipStuffing p fuel else pure a)
      (by rw [if_neg ha]; exact Reads.pure a)
    have ht := Stops.bind (hd a h1 h2) (hs a h1 h2)
      (f := fun a => if a = mbaStuffing then skipStuffing p fuel else pure a) (Stops.nil _)
    rw [List.append_nil] at hr ht
    exact ⟨hr, ht⟩
  | succ n ih =>
    obtain ⟨fuel, rfl⟩ := Nat.exists_eq_succ_of_ne_zero (show fuel ≠ 0 by omega)
    rw [List.replicate_succ, List.flatten_cons, List.append_assoc]
    have hi := ih fuel (by omega)
    exact ⟨Reads.bind (hd 34 (by decide) (by decide))
        (f := fun a => if a = mbaStuffing then skipStuffing p fuel else pure a) (by rw [if_pos (by decide)]; exact hi.1),
      Stops.bind (hd 34 (by decide) (by decide)) (hs 34 (by decide) (by decide))
        (f := fun a => if a = mbaStuffing then skipStuffing p fuel else pure a) (by rw [if_pos (by decide)]; exact hi.2)⟩

/-- The code word of stuffing has at least one bit, so the fuel of a read is more than the stuffing (log 19). -/
theorem stuffing_length {p : Params} (hp : p.wf = true) (n : Nat) :
    n ≤ (List.replicate n (codeWord p.tblMba 34)).flatten.length := by
  have hw := codeWord_some (mba_entry hp 34 (by omega) (by omega))
  simp only [vlcWord?, Option.map_eq_some_iff] at hw
  obtain ⟨e, he, hw⟩ := hw
  have hs := vlcOk_tableOf hp .mba
  simp only [vlcOk, Bool.and_eq_true] at hs
  have hl := (vlcSized_mem hs.1 e (List.mem_of_find?_eq_some he)).2
  have hc : 1 ≤ (codeWord p.tblMba 34).length := by rw [← hw, bits_length]; exact hl
  simp only [List.length_flatten, List.map_replicate, List.sum_replicate, smul_eq_mul]
  exact Nat.le_mul_of_pos_right n hc

/-- A source that ends inside a stream with stuffing in front ends inside one with less stuffing than the fuel of a read
(log 19). -/
theorem endsInside_lessStuffing {s : State} {w x : List Bool} (n : Nat) (hw : w ≠ []) (hx : x ≠ [])
    (h : s.SourceEndsInside ((List.replicate n w).flatten ++ x)) :
    ∃ m < s.readFuel, s.SourceEndsInside ((List.replicate m w).flatten ++ x) := by
  by_cases hn : n < s.readFuel
  · exact ⟨n, hn, h⟩
  obtain ⟨pre, h1, h2, h3⟩ := h
  have hf : s.readFuel = 8 * s.src.length + 1 := rfl
  have hl : pre.length ≤ 8 * s.src.length := by have := h3.2; omega
  have hm : 8 * s.src.length ≤ (List.replicate (8 * s.src.length) w).flatten.length := by
    simp only [List.length_flatten, List.map_replicate, List.sum_replicate, smul_eq_mul]
    exact Nat.le_mul_of_pos_right _ (List.length_pos_iff.mpr hw)
  have hp : pre <+: (List.replicate (8 * s.src.length) w).flatten := by
    refine List.prefix_of_prefix_length_le (l₃ := (List.replicate n w).flatten ++ x) h1 ?_ (by omega)
    obtain ⟨m, rfl⟩ := Nat.exists_eq_add_of_le (show 8 * s.src.length ≤ n by omega)
    rw [← List.replicate_append_replicate, List.flatten_append, List.append_assoc]
    exact List.prefix_append _ _
  refine ⟨8 * s.src.length, by omega, pre, hp.trans (List.prefix_append _ _), ?_, h3⟩
  have := List.length_pos_iff.mpr hx
  rw [List.length_append]
  omega

/-- A source that ends inside a stream with an extension tail ends inside one whose tail has fewer bytes than the fuel
of a read (log 19). -/
theorem ends_lessTail {s : State} {pre xs : List Bool} (ext : List Byte) (h1 : pre <+: xs ++ tailBits ext)
    (h2 : pre.length < (xs ++ tailBits ext).length) (h3 : s.SourceEnds pre) :
    ∃ l : List Byte, l.length < s.readFuel ∧ pre <+: xs ++ tailBits l ∧ pre.length < (xs ++ tailBits l).length := by
  by_cases hn : ext.length < s.readFuel
  · exact ⟨ext, hn, h1, h2⟩
  have hf : s.readFuel = 8 * s.src.length + 1 := rfl
  have hl : pre.length ≤ 8 * s.src.length := by have := h3.2; omega
  have hb : 8 * s.src.length ≤ ((ext.take (8 * s.src.length)).flatMap (fun e => true :: bits 8 e.toNat)).length := by
    simp [List.length_flatMap]
    omega
  have hp : pre <+: xs ++ (ext.take (8 * s.src.length)).flatMap (fun e => true :: bits 8 e.toNat) := by
    refine List.prefix_of_prefix_length_le h1 ?_ (by rw [List.length_append]; omega)
    rw [List.prefix_append_right_inj, tailBits]
    conv_rhs => rw [← List.take_append_drop (8 * s.src.length) ext, List.flatMap_append, List.append_assoc]
    exact List.prefix_append _ _
  refine ⟨ext.take (8 * s.src.length), by rw [List.length_take]; omega, hp.trans ?_, ?_⟩
  · rw [List.prefix_append_right_inj]
    exact List.prefix_append _ _
  · rw [List.length_append, tailBits_length, List.length_take]
    omega

end Sys2Proof.Machine
end

