-- ==== Sys2Proof/Laws/Memory.lean ====
section
/-!
SUPPORT. Laws of the plane memories: a read after a write, and the canonical form (log 7).
-/

namespace Sys2Proof.Machine

/-- Addresses of a canonical memory rise. -/
theorem Memory.wf_cons {c : Host.Cell} {m : Memory} :
    Memory.wf (c :: m) = true ↔
      c.2 ≠ Memory.unlisted ∧ (∀ d, m.head? = some d → c.1 < d.1) ∧ Memory.wf m = true := by
  cases m with
  | nil => simp [Memory.wf]
  | cons d m => simp [Memory.wf, and_assoc]

/-- Beyond its first address a canonical memory lists nothing lower. -/
theorem Memory.read_below {m : Memory} (h : Memory.wf m = true) (a : Nat) (ha : ∀ d, m.head? = some d → a < d.1) :
    Memory.read m a = Memory.unlisted := by
  induction m with
  | nil => rfl
  | cons c m ih =>
    obtain ⟨-, h2, h3⟩ := Memory.wf_cons.mp h
    have hc := ha c rfl
    rw [Memory.read, if_neg (by omega)]
    exact ih h3 (fun d hd => lt_trans hc (h2 d hd))

/-- A read of the address written gives the value written, of any other what it gave before. -/
theorem Memory.read_write {m : Memory} (h : Memory.wf m = true) (a b : Nat) (v : Byte) :
    Memory.read (Memory.write m a v) b = if b = a then v else Memory.read m b := by
  induction m with
  | nil =>
    simp only [Memory.write]
    split
    · rename_i hv
      simp [Memory.read, hv]
    · by_cases hb : a = b
      · simp [Memory.read, hb]
      · simp [Memory.read, hb, Ne.symm hb]
  | cons c m ih =>
    obtain ⟨-, h2, h3⟩ := Memory.wf_cons.mp h
    simp only [Memory.write]
    split
    · rename_i hlt
      have hb : Memory.read (c :: m) a = Memory.unlisted := Memory.read_below h a (by simp; omega)
      split
      · rename_i hv
        split
        · rename_i hba; rw [hba, hb, hv]
        · rfl
      · rw [Memory.read]
        split
        · rename_i hba; rw [if_pos hba.symm]
        · rename_i hba; rw [if_neg (fun e => hba e.symm)]
    · split
      · rename_i heq
        have hb : Memory.read m a = Memory.unlisted := Memory.read_below h3 a (by rw [heq]; exact h2)
        split
        · rename_i hv
          split
          · rename_i hba; rw [hba, hb, hv]
          · rename_i hba; rw [Memory.read, if_neg (by omega)]
        · rw [Memory.read]
          split
          · rename_i hba; rw [if_pos hba.symm]
          · rename_i hba
            rw [if_neg (fun e => hba e.symm), Memory.read, if_neg (by omega)]
      · rename_i hne
        rw [Memory.read]
        split
        · rename_i hcb
          rw [if_neg (by omega), Memory.read, if_pos hcb]
        · rename_i hcb
          rw [ih h3]
          split
          · rfl
          · rw [Memory.read, if_neg hcb]

/-- Every head of a written memory is the address written or the old head. -/
theorem Memory.write_head {m : Memory} {a : Nat} {v : Byte} {lo : Nat} (h : Memory.wf m = true) (ha : lo < a)
    (hm : ∀ d, m.head? = some d → lo < d.1) : ∀ d, (Memory.write m a v).head? = some d → lo < d.1 := by
  cases m with
  | nil =>
    intro d hd
    simp only [Memory.write] at hd
    split at hd
    · simp at hd
    · simp at hd; subst hd; exact ha
  | cons c m =>
    obtain ⟨-, h2, -⟩ := Memory.wf_cons.mp h
    have hc := hm c rfl
    intro d hd
    simp only [Memory.write] at hd
    split at hd
    · split at hd <;> (simp at hd; subst hd; assumption)
    · split at hd
      · split at hd
        · exact lt_trans hc (h2 d hd)
        · simp at hd; subst hd; exact ha
      · simp at hd; subst hd; exact hc

/-- A write keeps the canonical form. -/
theorem Memory.write_wf {m : Memory} (h : Memory.wf m = true) (a : Nat) (v : Byte) :
    Memory.wf (Memory.write m a v) = true := by
  induction m with
  | nil =>
    simp only [Memory.write]
    split
    · rfl
    · simp [Memory.wf, *]
  | cons c m ih =>
    obtain ⟨h1, h2, h3⟩ := Memory.wf_cons.mp h
    simp only [Memory.write]
    split
    · split
      · exact h
      · exact Memory.wf_cons.mpr ⟨by assumption, by simpa, h⟩
    · split
      · split
        · exact h3
        · rename_i heq hv
          exact Memory.wf_cons.mpr ⟨hv, by rw [heq]; exact h2, h3⟩
      · exact Memory.wf_cons.mpr ⟨h1, Memory.write_head h3 (by omega) h2, ih h3⟩

/-- Reset memory is in canonical form. -/
theorem Memory.reset_wf : Memory.wf State.reset.cur = true ∧ Memory.wf State.reset.ref = true := ⟨rfl, rfl⟩

end Sys2Proof.Machine
end

