-- ==== Sys2Proof/Laws/Motion.lean ====
section
/-!
SUPPORT. Laws of the motion estimator (45_motion.md): the shared checks, the AE as the rule writes it, valid
candidates, what a search can return, and what the type decision can be.
-/

namespace Sys2Proof.Machine

/-! The shared checks -/

/-- The checks that MEAE, MESEARCH and MEMTYPE share, in one equation (45_motion.md R216 to R218). -/
theorem checkMacroblock_run (mbx mby : Nat) (s : State) :
    checkMacroblock mbx mby s =
      if s.planeW = 0 ∨ s.planeH = 0 then .error .argumentError s
      else if mbx ≥ s.mbCols ∨ mby ≥ s.mbRows then .error .boundsError s
      else .ok () s := by
  unfold checkMacroblock
  rw [M.look_bind, M.raiseIf_bind, M.raiseIf_run]
  rfl

theorem checkMacroblock_ok {mbx mby : Nat} {s : State} (h : inPlane s mbx mby) :
    checkMacroblock mbx mby s = .ok () s := by
  obtain ⟨h1, h2, h3, h4⟩ := h
  rw [checkMacroblock_run, if_neg (by tauto), if_neg]
  simp only [State.mbCols, State.mbRows]
  omega

theorem checkMacroblock_unset {mbx mby : Nat} {s : State} (h : s.planeW = 0 ∨ s.planeH = 0) :
    checkMacroblock mbx mby s = .error .argumentError s := by rw [checkMacroblock_run, if_pos h]

theorem checkMacroblock_out {mbx mby : Nat} {s : State} (h1 : s.planeW ≠ 0) (h2 : s.planeH ≠ 0)
    (h : ¬ inPlane s mbx mby) : checkMacroblock mbx mby s = .error .boundsError s := by
  rw [checkMacroblock_run, if_neg (by tauto), if_pos]
  simp only [State.mbCols, State.mbRows]
  by_contra hc
  exact h ⟨h1, h2, by omega, by omega⟩

/-- The converse: a check that passed. -/
theorem checkMacroblock_inv {mbx mby : Nat} {s t : State} {u : Unit} (h : checkMacroblock mbx mby s = .ok u t) :
    t = s ∧ inPlane s mbx mby := by
  rw [checkMacroblock_run] at h
  split at h
  · cases h
  · rename_i h1
    split at h
    · cases h
    · rename_i h2
      simp only [State.mbCols, State.mbRows] at h2
      cases h
      exact ⟨rfl, fun e => h1 (.inl e), fun e => h1 (.inr e), by omega, by omega⟩

theorem checkMacroblock_error {mbx mby : Nat} {s t : State} {c : Cause}
    (h : checkMacroblock mbx mby s = .error c t) : t = s ∧ (c = .argumentError ∨ c = .boundsError) := by
  rw [checkMacroblock_run] at h
  split at h
  · cases h; exact ⟨rfl, .inl rfl⟩
  · split at h
    · cases h; exact ⟨rfl, .inr rfl⟩
    · cases h

/-! Matching cost and candidates -/

/-- The AE is the sum of the rule. -/
theorem ae_eq (s : State) (mbx mby : Nat) (d : Mv) : ae s mbx mby d = aeSum s mbx mby d := rfl

theorem validMv_iff (s : State) (mbx mby : Nat) (d : Mv) : validMv s mbx mby d = true ↔ inWindow s mbx mby d := by
  simp only [validMv, validComp, searchRange, Bool.and_eq_true, decide_eq_true_eq, inWindow, abs_le]
  tauto

theorem inWindow_zero {s : State} {mbx mby : Nat} (h : inPlane s mbx mby) : inWindow s mbx mby Mv.zero := by
  obtain ⟨-, -, h3, h4⟩ := h
  simp only [inWindow, Mv.zero, abs_zero]
  omega

/-- `clampwin` of any vector is a valid candidate (45_motion.md R202). -/
theorem clampWin_inWindow {s : State} {mbx mby : Nat} (h : inPlane s mbx mby) (d : Mv) :
    inWindow s mbx mby (clampWin s mbx mby d) := by
  obtain ⟨-, -, h3, h4⟩ := h
  have hx := clamp_bounds (max (-15) (-16 * (mbx : Int))) (min 15 ((s.planeW.toNat : Int) - 16 - 16 * mbx)) d.h (by omega)
  have hy := clamp_bounds (max (-15) (-16 * (mby : Int))) (min 15 ((s.planeH.toNat : Int) - 16 - 16 * mby)) d.v (by omega)
  simp only [inWindow, clampWin, clampComp, searchRange, abs_le]
  omega

/-- A scored candidate that is valid and carries its own AE. -/
structure Scored.Ok (s : State) (mbx mby : Nat) (b : Scored) : Prop where
  valid : inWindow s mbx mby b.mv
  own : b.ae = aeSum s mbx mby b.mv

theorem scored_ok {s : State} {mbx mby : Nat} {d : Mv} (h : inWindow s mbx mby d) :
    (scored s mbx mby d).Ok s mbx mby := ⟨h, rfl⟩

theorem improve_ok {s : State} {mbx mby : Nat} {b : Scored} (h : b.Ok s mbx mby) (d : Mv) :
    (improve s mbx mby b d).Ok s mbx mby := by
  unfold improve
  split
  · rename_i hc
    simp only [Bool.and_eq_true] at hc
    exact scored_ok ((validMv_iff _ _ _ _).mp hc.1)
  · exact h

theorem foldl_improve_ok {s : State} {mbx mby : Nat} (ds : List Mv) {b : Scored} (h : b.Ok s mbx mby) :
    (ds.foldl (improve s mbx mby) b).Ok s mbx mby := by
  induction ds generalizing b with
  | nil => exact h
  | cons d ds ih => exact ih (improve_ok h d)

theorem stepSearch_ok {s : State} {mbx mby : Nat} {c : Mv} (h : inWindow s mbx mby c) :
    (stepSearch s mbx mby c).Ok s mbx mby := by
  unfold stepSearch
  generalize [(8 : Int), 4, 2, 1] = steps
  generalize hb : scored s mbx mby c = b
  have hok : b.Ok s mbx mby := hb ▸ scored_ok h
  clear hb
  induction steps generalizing b with
  | nil => exact hok
  | cons x xs ih => exact ih _ (foldl_improve_ok _ hok)

/-- The contract of every search: a valid displacement and its own AE (45_motion.md R204). -/
theorem search_ok {s : State} {mbx mby : Nat} (h : inPlane s mbx mby) (alg : Fin 4) (seed : Mv) :
    (search s alg mbx mby seed).Ok s mbx mby := by
  unfold search
  split
  · unfold defaultSearch
    split
    · exact foldl_improve_ok _ (scored_ok (inWindow_zero h))
    · exact stepSearch_ok (inWindow_zero h)
    · exact stepSearch_ok (clampWin_inWindow h _)
    · exact foldl_improve_ok _ (scored_ok (inWindow_zero h))
  · exact scored_ok (clampWin_inWindow h _)

/-! The full search -/

/-- The candidates of the full search are the displacements within the bound other than zero. -/
theorem windowRange_mem (x : Int) (h1 : -15 ≤ x) (h2 : x ≤ 15) : x ∈ windowRange := by interval_cases x <;> decide
theorem fullCandidates_mem (d : Mv) (h1 : -15 ≤ d.h ∧ d.h ≤ 15) (h2 : -15 ≤ d.v ∧ d.v ≤ 15) (h3 : d ≠ Mv.zero) : d ∈ fullCandidates := by
  unfold fullCandidates
  simp only [List.mem_filter, List.mem_flatMap, List.mem_map, decide_eq_true_eq]
  exact ⟨⟨d.v, windowRange_mem _ h2.1 h2.2, d.h, windowRange_mem _ h1.1 h1.2, rfl⟩, h3⟩

/-- The order of the full search: rows, then columns (45_motion.md R205). -/
def Mv.before (a b : Mv) : Prop := a.v < b.v ∨ (a.v = b.v ∧ a.h < b.h)

theorem fullCandidates_sorted : fullCandidates.Pairwise Mv.before := by
  unfold fullCandidates
  apply List.Pairwise.filter
  have hw : windowRange.Pairwise (· < ·) := by decide
  rw [List.pairwise_flatMap]
  constructor
  · intro y _
    rw [List.pairwise_map]
    exact hw.imp (fun h => .inr ⟨rfl, h⟩)
  · refine hw.imp ?_
    intro a b hab x hx y hy
    obtain ⟨_, _, rfl⟩ := List.mem_map.mp hx
    obtain ⟨_, _, rfl⟩ := List.mem_map.mp hy
    exact .inl hab

/-- What a fold of `improve` over candidates in order finds: nothing worse than the start or than a valid candidate,
and among equals the first (45_motion.md R203). -/
theorem foldl_improve_best (s : State) (mbx mby : Nat) (l : List Mv) (hs : l.Pairwise Mv.before) (z : Scored) :
    let r := l.foldl (improve s mbx mby) z
    r.ae ≤ z.ae ∧ (r = z ∨ (r.ae < z.ae ∧ r.ae = ae s mbx mby r.mv ∧ r.mv ∈ l)) ∧
    (∀ d ∈ l, inWindow s mbx mby d → r.ae ≤ ae s mbx mby d) ∧
    (r ≠ z → ∀ d ∈ l, inWindow s mbx mby d → ae s mbx mby d = r.ae → r.mv = d ∨ Mv.before r.mv d) := by
  induction l generalizing z with
  | nil => simp
  | cons d l ih =>
    intro r
    have hl := List.pairwise_cons.mp hs
    obtain ⟨i1, i2, i3, i4⟩ := ih hl.2 (improve s mbx mby z d)
    change r.ae ≤ _ at i1
    change r = _ ∨ _ at i2
    have hr : (l.foldl (improve s mbx mby) (improve s mbx mby z d)) = r := rfl
    simp only [hr] at i1 i2 i3 i4
    by_cases hv : inWindow s mbx mby d ∧ ae s mbx mby d < z.ae
    · have him : improve s mbx mby z d = scored s mbx mby d := by
        unfold improve; rw [if_pos]; simp [(validMv_iff _ _ _ _).mpr hv.1, hv.2]
      rw [him] at i1 i2 i4
      have i1' : r.ae ≤ ae s mbx mby d := i1
      refine ⟨by omega, .inr ?_, ?_, ?_⟩
      · rcases i2 with e | ⟨e1, e2, e3⟩
        · rw [e]; exact ⟨hv.2, rfl, by simp [scored]⟩
        · exact ⟨by omega, e2, by simp [e3]⟩
      · intro d' hd' hw
        rcases List.mem_cons.mp hd' with rfl | h
        · exact i1'
        · exact i3 d' h hw
      · intro _ d' hd' hw he
        by_cases heq : r = scored s mbx mby d
        · rcases List.mem_cons.mp hd' with rfl | h
          · left; rw [heq]; rfl
          · right; rw [heq]; exact hl.1 d' h
        · rcases List.mem_cons.mp hd' with rfl | h
          · rcases i2 with e | ⟨e1, e2, e3⟩
            · exact absurd e heq
            · have : r.ae < ae s mbx mby d' := e1
              omega
          · exact i4 heq d' h hw he
    · have him : improve s mbx mby z d = z := by
        unfold improve; rw [if_neg]
        intro hc
        simp only [Bool.and_eq_true, decide_eq_true_eq] at hc
        exact hv ⟨(validMv_iff _ _ _ _).mp hc.1, hc.2⟩
      rw [him] at i1 i2 i4
      refine ⟨i1, ?_, ?_, ?_⟩
      · rcases i2 with e | ⟨e1, e2, e3⟩
        · exact .inl e
        · exact .inr ⟨e1, e2, by simp [e3]⟩
      · intro d' hd' hw
        rcases List.mem_cons.mp hd' with rfl | h
        · have : ¬ ae s mbx mby d' < z.ae := fun h => hv ⟨hw, h⟩
          omega
        · exact i3 d' h hw
      · intro hne d' hd' hw he
        rcases List.mem_cons.mp hd' with rfl | h
        · have : ¬ ae s mbx mby d' < z.ae := fun h => hv ⟨hw, h⟩
          rcases i2 with e | ⟨e1, e2, e3⟩
          · exact absurd e hne
          · omega
        · exact i4 hne d' h hw he

/-- The same as the rule says it (45_motion.md R203, R205). -/
theorem foldl_improve_bestFrom (s : State) (mbx mby : Nat) (P : Mv → Prop) (l : List Mv) (hl : l.Pairwise Mv.before)
    (c : Mv) (hP : ∀ d ∈ l, P d) (hm : ∀ d, P d → inWindow s mbx mby d → d ≠ c → d ∈ l) (hc : c ∉ l) {r : Scored}
    (hr : r = l.foldl (improve s mbx mby) (scored s mbx mby c)) (hok : r.Ok s mbx mby) :
    BestFrom s mbx mby P c r.mv := by
  obtain ⟨i1, i2, i3, i4⟩ := foldl_improve_best s mbx mby l hl (scored s mbx mby c)
  simp only [← hr] at i1 i2 i3 i4
  have hz : (scored s mbx mby c).ae = aeSum s mbx mby c := rfl
  have hown := hok.own
  refine ⟨?_, ?_, ?_, ?_, ?_⟩
  · rcases i2 with e | ⟨-, -, e⟩
    · left; rw [e]; rfl
    · exact .inr ⟨hP _ e, hok.valid⟩
  · intro d hd hw
    by_cases hdc : d = c
    · rw [hdc]; omega
    · have := i3 d (hm d hd hw hdc) hw
      rw [ae_eq] at this
      omega
  · omega
  · intro e
    rcases i2 with h | ⟨h, -, -⟩
    · rw [h]; rfl
    · omega
  · intro hne d hd hw he
    have hrne : r ≠ scored s mbx mby c := fun e => hne (by rw [e]; rfl)
    have hlt : r.ae < (scored s mbx mby c).ae := by
      rcases i2 with h | ⟨h, -, -⟩
      · exact absurd h hrne
      · exact h
    have hdc : d ≠ c := by rintro rfl; omega
    rcases i4 hrne d (hm d hd hw hdc) hw (by rw [ae_eq]; omega) with h | h | h
    · right; rw [h]; exact ⟨rfl, le_rfl⟩
    · exact .inl h
    · exact .inr ⟨h.1, h.2.le⟩

/-- The full search and its restriction to even coordinate sums (45_motion.md R205, R208). -/
theorem fullSearch_best {s : State} {mbx mby : Nat} (h : inPlane s mbx mby) :
    BestFrom s mbx mby (fun _ => True) Mv.zero (fullSearch s mbx mby).mv ∧
    BestFrom s mbx mby (fun d => (d.h + d.v) % 2 = 0) Mv.zero (checkerSearch s mbx mby).mv := by
  have hz := scored_ok (inWindow_zero h)
  have hf := fun (d : Mv) (hw : inWindow s mbx mby d) (hd : d ≠ Mv.zero) =>
    fullCandidates_mem d (abs_le.mp hw.1) (abs_le.mp hw.2.1) hd
  constructor
  · refine foldl_improve_bestFrom s mbx mby _ _ fullCandidates_sorted _ (fun _ _ => trivial) (fun d _ hw hd => hf d hw hd)
      (by decide +kernel) rfl (foldl_improve_ok _ hz)
  · refine foldl_improve_bestFrom s mbx mby _ _ (fullCandidates_sorted.filter _) _
      (fun d hd => by simpa using (List.mem_filter.mp hd).2)
      (fun d he hw hd => List.mem_filter.mpr ⟨hf d hw hd, by simpa using he⟩)
      (by decide +kernel) rfl (foldl_improve_ok _ hz)

/-- One step size (45_motion.md R206). -/
theorem neighbours_best {s : State} {mbx mby : Nat} {b : Scored} (h : b.Ok s mbx mby) (step : Int) (hs : 0 < step) :
    BestFrom s mbx mby (nearby b.mv step) b.mv ((neighbours b.mv step).foldl (improve s mbx mby) b).mv := by
  have hb : b = scored s mbx mby b.mv := by
    obtain ⟨a, m⟩ := b
    simp only [scored, ae_eq, Scored.mk.injEq, and_true]
    exact h.own
  refine foldl_improve_bestFrom s mbx mby _ (neighbours b.mv step) ?_ _ ?_ ?_ ?_ (by rw [← hb]) (foldl_improve_ok _ h)
  · simp only [neighbours, Mv.before, List.pairwise_cons, List.mem_cons, List.not_mem_nil, forall_eq_or_imp, or_false,
      forall_eq, List.Pairwise.nil, IsEmpty.forall_iff, implies_true, and_true, true_and]
    omega
  · intro d hd
    simp only [neighbours, List.mem_cons, List.not_mem_nil, or_false] at hd
    rcases hd with rfl | rfl | rfl | rfl | rfl | rfl | rfl | rfl <;> exact ⟨by tauto, by tauto⟩
  · rintro ⟨x, y⟩ ⟨hx, hy⟩ - hne
    simp only [neighbours, List.mem_cons, List.not_mem_nil, or_false, Mv.mk.injEq]
    have : ¬ (x = b.mv.h ∧ y = b.mv.v) := fun e => hne (by rw [e.1, e.2])
    simp only at hx hy
    tauto
  · have hm : b.mv = ⟨b.mv.h, b.mv.v⟩ := rfl
    simp only [neighbours, List.mem_cons, List.not_mem_nil, or_false]
    rw [hm]
    simp only [Mv.mk.injEq]
    omega

/-- The step search (45_motion.md R206). -/
theorem stepSearch_steps {s : State} {mbx mby : Nat} {c : Mv} (h : inWindow s mbx mby c) :
    StepsFrom s mbx mby c (stepSearch s mbx mby c).mv := by
  have h8 := scored_ok h
  have hn := fun (b : Scored) (hb : b.Ok s mbx mby) step => foldl_improve_ok (neighbours b.mv step) hb
  have h4 := hn _ h8 8
  have h2 := hn _ h4 4
  have h1 := hn _ h2 2
  simp only [StepsFrom, stepSearch, List.foldl_cons, List.foldl_nil]
  exact ⟨_, _, _, neighbours_best h8 8 (by decide), neighbours_best h4 4 (by decide), neighbours_best h2 2 (by decide),
    neighbours_best h1 1 (by decide)⟩

/-! The type decision -/

theorem withPredictor_ok {s : State} {mbx mby : Nat} {z : Scored} (h : z.Ok s mbx mby) (p : Mv) :
    (withPredictor s mbx mby p z).Ok s mbx mby := by
  unfold withPredictor
  split
  · rename_i hc
    simp only [Bool.and_eq_true] at hc
    exact scored_ok ((validMv_iff _ _ _ _).mp hc.1)
  · exact h

theorem withSearch_ok {s : State} {mbx mby : Nat} (hp : inPlane s mbx mby) {b : Scored} (h : b.Ok s mbx mby) (p : Mv) :
    (withSearch s mbx mby p b).Ok s mbx mby := by
  unfold withSearch
  split
  · dsimp only
    split
    · exact search_ok hp _ _
    · exact h
  · exact h

/-- The best candidate is valid and carries its own AE (45_motion.md R210, R211). -/
theorem bestCandidate_ok {s : State} {mbx mby : Nat} (h : inPlane s mbx mby) :
    (bestCandidate s mbx mby).Ok s mbx mby :=
  withSearch_ok h (withPredictor_ok (scored_ok (inWindow_zero h)) _) _

/-- The best candidate is never worse than no motion. -/
theorem bestCandidate_le (s : State) (mbx mby : Nat) :
    (bestCandidate s mbx mby).ae ≤ aeSum s mbx mby Mv.zero := by
  unfold bestCandidate withSearch withPredictor
  dsimp only
  split
  · rename_i hc
    simp only [Bool.and_eq_true, decide_eq_true_eq] at hc
    have : (scored s mbx mby (s.prevMvAt (s.mbIndex mbx mby))).ae ≤ aeSum s mbx mby Mv.zero := hc.2
    split
    · split
      · omega
      · exact this
    · exact this
  · have : (scored s mbx mby Mv.zero).ae ≤ aeSum s mbx mby Mv.zero := le_rfl
    split
    · split
      · omega
      · exact this
    · exact this

/-- The vector of a decision is a valid candidate (45_motion.md R214). -/
theorem obtainMtype_valid {s : State} {mbx mby : Nat} (h : inPlane s mbx mby) :
    inWindow s mbx mby (obtainMtype s mbx mby).mv := by
  have hz := inWindow_zero h
  have hb := (bestCandidate_ok h).valid
  unfold obtainMtype
  dsimp only
  split
  · exact hz
  · split
    · exact hz
    · unfold classify
      split
      · exact hb
      · split
        · split
          · exact hz
          · exact hb
        · exact hz

end Sys2Proof.Machine
end

