-- ==== Sys2Proof/Laws/Quantizer.lean ====
section
/-!
SUPPORT. Laws of the quantizer (42_quantizer.md): truncating division between its bounds, what the offset quantizer
leaves of a value, and the sum of the magnitudes.
-/

namespace Sys2Proof.Machine

theorem tdiv_nonneg_bounds (a d : Int) (ha : 0 ≤ a) (hd : 0 < d) :
    0 ≤ Int.tdiv a d ∧ d * Int.tdiv a d ≤ a ∧ a < d * Int.tdiv a d + d := by
  rw [Int.tdiv_eq_ediv_of_nonneg ha]
  have h1 := Int.mul_ediv_add_emod a d
  have h2 := Int.emod_nonneg a (show d ≠ 0 by omega)
  have h3 := Int.emod_lt_of_pos a hd
  exact ⟨Int.ediv_nonneg ha (by omega), by omega, by omega⟩

theorem tdiv_nonpos_bounds (a d : Int) (ha : a ≤ 0) (hd : 0 < d) :
    Int.tdiv a d ≤ 0 ∧ a ≤ d * Int.tdiv a d ∧ d * Int.tdiv a d - d < a := by
  have h := tdiv_nonneg_bounds (-a) d (by omega) hd
  rw [Int.neg_tdiv] at h
  refine ⟨by omega, ?_, ?_⟩
  · have h2 := h.2.1
    rw [mul_neg] at h2
    omega
  · have h3 := h.2.2
    rw [mul_neg] at h3
    omega

/-- The level of a value under the offset quantizer, between its bounds (42_quantizer.md R145). -/
theorem quantOffset_bounds (v : Int) (q : Nat) (hq : 1 ≤ q) :
    (0 < v → 0 ≤ quantOffset v q ∧ 2 * q * quantOffset v q ≤ v + 1 ∧ v < 2 * q * quantOffset v q + 2 * q) ∧
    (v < 0 → quantOffset v q ≤ 0 ∧ v - 1 ≤ 2 * q * quantOffset v q ∧ 2 * q * quantOffset v q - 2 * q < v) ∧
    (v = 0 → quantOffset v q = 0) := by
  unfold quantOffset tdiv
  refine ⟨fun h => ?_, fun h => ?_, fun h => ?_⟩
  · rw [if_pos h]
    have := tdiv_nonneg_bounds (v + 1) (2 * q) (by omega) (by omega)
    omega
  · rw [if_neg (by omega), if_pos h]
    have := tdiv_nonpos_bounds (v - 1) (2 * q) (by omega) (by omega)
    omega
  · subst h
    simp

/-- The sum of the quantized magnitudes, as the rule writes it (42_quantizer.md R144). -/
theorem quantSum_eq (w : Vector Int 64) : ((quantSum w : Nat) : Int) = ∑ k : Fin 64, |w[k]| := by
  have h : w.toList.map absNat = List.ofFn (fun k : Fin 64 => absNat (w[k])) := by
    apply List.ext_getElem
    · simp
    · intro i h1 h2
      rw [List.getElem_map, List.getElem_ofFn]
      simp
  unfold quantSum
  rw [h, List.sum_ofFn]
  push_cast
  simp [absNat]

theorem deqAdjust_eq (p : Params) (q : Nat) :
    deqAdjust p q = if q % 2 = 0 ∨ p.deqEvenOnly = false then 1 else 0 := by
  unfold deqAdjust
  rcases Nat.mod_two_eq_zero_or_one q with h | h <;> cases p.deqEvenOnly <;> simp [h]

end Sys2Proof.Machine
end

