-- ==== Sys2Proof/Laws/Raises.lean ====
section
/-!
SUPPORT. Which causes a piece of pseudocode can raise (60_exceptions.md R322): one lemma for each piece.
-/

namespace Sys2Proof.Machine

/-- Every cause that `x` raises is in `cs`. -/
def Raises (cs : List Cause) {α : Type} (x : M α) : Prop := ∀ s c t, x s = .error c t → c ∈ cs

variable {cs : List Cause}

theorem Raises.pure {α : Type} (a : α) : Raises cs (pure a : M α) := fun _ _ _ h => by cases h

theorem Raises.look {α : Type} (f : State → α) : Raises cs (M.look f) := fun _ _ _ h => by cases h

theorem Raises.change (f : State → State) : Raises cs (M.change f) := fun _ _ _ h => by cases h

theorem Raises.raise {α : Type} {c : Cause} (h : c ∈ cs) : Raises cs (M.raise c : M α) := by
  intro s d t e
  cases e
  exact h

theorem Raises.raiseIf (p : Prop) [Decidable p] {c : Cause} (h : c ∈ cs) : Raises cs (M.raiseIf p c) := by
  unfold M.raiseIf
  split
  · exact Raises.raise h
  · exact Raises.pure ()

theorem Raises.bind {α β : Type} {x : M α} {f : α → M β} (hx : Raises cs x) (hf : ∀ a, Raises cs (f a)) :
    Raises cs (x >>= f) := by
  intro s c t h
  rw [M.bind_run] at h
  cases hxs : x s with
  | ok a u =>
    rw [hxs] at h
    exact hf a u c t h
  | error d u =>
    rw [hxs] at h
    cases h
    exact hx s _ _ hxs

theorem Raises.ite {α : Type} {p : Prop} [Decidable p] {x y : M α} (hx : Raises cs x) (hy : Raises cs y) :
    Raises cs (if p then x else y) := by
  split
  · exact hx
  · exact hy

/-! The channels -/

theorem Raises.putcode (h : Cause.sinkIoError ∈ cs) (l : List Bool) : Raises cs (putcode l) := by
  induction l with
  | nil => exact Raises.pure ()
  | cons b l ih =>
    refine Raises.bind (fun s c t e => ?_) (fun _ => ih)
    unfold putbit at e
    split at e
    · split at e
      · cases e; exact h
      · cases e
    · cases e

theorem Raises.putbits (h : Cause.sinkIoError ∈ cs) (n v : Nat) : Raises cs (putbits n v) := Raises.putcode h _

theorem Raises.getbits (h : Cause.unexpectedEof ∈ cs) (n : Nat) : Raises cs (getbits n) := by
  intro s c t e
  unfold Machine.getbits at e
  split at e
  · cases e; exact h
  · cases e

theorem Raises.flushLoop (h : Cause.sinkIoError ∈ cs) (n : Nat) : Raises cs (flushLoop n) := by
  induction n with
  | zero => exact Raises.pure ()
  | succ n ih =>
    refine Raises.bind (Raises.look _) (fun k => Raises.ite ?_ (Raises.pure ()))
    exact Raises.bind (Raises.look _) (fun b => Raises.bind (fun s c t e =>
      Raises.putcode h [b] s c t (by rw [Machine.putcode, M.bind_error e])) (fun _ => ih))

theorem Raises.putTail (h : Cause.sinkIoError ∈ cs) (e : Bool) (x : Byte) : Raises cs (putTail e x) := by
  have hp := Raises.putbits h
  refine Raises.ite (p := e = true) ?_ (hp 1 0)
  exact Raises.bind (hp 1 1) (fun _ => Raises.bind (hp 8 _) (fun _ => hp 1 0))

theorem Raises.getTail (h : Cause.unexpectedEof ∈ cs) (fuel n : Nat) : Raises cs (getTail fuel n) := by
  induction fuel generalizing n with
  | zero => exact Raises.raise h
  | succ fuel ih =>
    exact Raises.bind (Raises.getbits h 1) (fun b => Raises.ite (Raises.bind (Raises.getbits h 8) (fun _ => ih _))
      (Raises.pure _))

/-! The tables -/

theorem Raises.vlcEnc (h1 : Cause.unencodableSymbol ∈ cs) (h2 : Cause.sinkIoError ∈ cs) (t : VlcTable) (x : Nat) :
    Raises cs (vlcEnc t x) := by
  unfold Machine.vlcEnc
  split
  · exact Raises.putcode h2 _
  · exact Raises.raise h1

theorem Raises.vlcDec (h1 : Cause.unexpectedEof ∈ cs) (h2 : Cause.corruptHuffmanCode ∈ cs) (t : VlcTable) :
    Raises cs (vlcDec t) := by
  suffices h : ∀ fuel n v, Raises cs (vlcDecLoop t fuel n v) from h _ _ _
  intro fuel
  induction fuel with
  | zero => intro n v; exact Raises.raise h2
  | succ fuel ih =>
    intro n v
    refine Raises.bind (Raises.getbits h1 1) (fun b => ?_)
    split
    · exact Raises.pure _
    · exact Raises.ite (ih _ _) (Raises.raise h2)

theorem Raises.decLoop (h1 : Cause.unexpectedEof ∈ cs) (h2 : Cause.corruptHuffmanCode ∈ cs) (p : Params)
    (fuel : Nat) (first : Bool) (k : Nat) (b : Block) : Raises cs (decLoop p fuel first k b) := by
  have hc : ∀ sym, Raises cs (readCoef sym) := fun sym => Raises.ite
    (Raises.bind (Raises.getbits h1 6) (fun _ => Raises.bind (Raises.getbits h1 8) (fun _ => Raises.pure _)))
    (Raises.bind (Raises.getbits h1 1) (fun _ => Raises.pure _))
  induction fuel generalizing first k b with
  | zero => exact Raises.raise h2
  | succ fuel ih =>
    exact Raises.bind (Raises.vlcDec h1 h2 _) (fun sym => Raises.ite (Raises.pure _) (Raises.bind (hc _)
      (fun c => Raises.bind (Raises.raiseIf _ h2) (fun _ => ih _ _ _))))

theorem Raises.skipStuffing (h1 : Cause.unexpectedEof ∈ cs) (h2 : Cause.corruptHuffmanCode ∈ cs) (p : Params)
    (fuel : Nat) :
    Raises cs (skipStuffing p fuel) := by
  induction fuel with
  | zero => exact Raises.raise h1
  | succ fuel ih => exact Raises.bind (Raises.vlcDec h1 h2 _) (fun a => Raises.ite ih (Raises.pure _))

theorem Raises.whenCarried {α : Type} (c : Bool) (absent : α) {x : M α} (hx : Raises cs x) :
    Raises cs (whenCarried c absent x) := Raises.ite hx (Raises.pure _)

theorem Raises.readHeader (h1 : Cause.unexpectedEof ∈ cs) (h2 : Cause.corruptHuffmanCode ∈ cs) (p : Params)
    (pred : Mv5) : Raises cs (readHeader p pred) := by
  have hd := fun t => Raises.vlcDec h1 h2 t
  exact Raises.bind (hd _) (fun _ => Raises.bind (Raises.whenCarried _ _ (Raises.getbits h1 5)) (fun _ => Raises.bind
    (Raises.whenCarried _ _ (Raises.bind (hd _) (fun _ => Raises.bind (hd _) (fun _ => Raises.pure _))))
    (fun _ => Raises.bind (Raises.whenCarried _ _ (hd _)) (fun _ => Raises.pure _))))

theorem Raises.putHeader (h1 : Cause.unencodableSymbol ∈ cs) (h2 : Cause.sinkIoError ∈ cs) (p : Params)
    (kh kv mba mtype mquant cbp : Nat) : Raises cs (putHeader p kh kv mba mtype mquant cbp) := by
  have hv := Raises.vlcEnc h1 h2
  exact Raises.bind (hv _ _) (fun _ => Raises.bind (hv _ _) (fun _ => Raises.bind
    (Raises.whenCarried _ _ (Raises.putbits h2 _ _)) (fun _ => Raises.bind
      (Raises.whenCarried _ _ (Raises.bind (hv _ _) (fun _ => hv _ _))) (fun _ => Raises.whenCarried _ _ (hv _ _)))))

/-! The checks -/

theorem Raises.checkMacroblock (h1 : Cause.argumentError ∈ cs) (h2 : Cause.boundsError ∈ cs) (mbx mby : Nat) :
    Raises cs (checkMacroblock mbx mby) :=
  Raises.bind (Raises.look _) (fun _ => Raises.bind (Raises.raiseIf _ h1) (fun _ => Raises.raiseIf _ h2))

/-! From a body to its command -/

/-- A gated command that ends in a fault took it from its body, with its own opcode. -/
theorem gated_fault {op : Opcode} {body : M Unit} {s t : State} (hb : Raises cs body)
    (hk : ∀ s u, body s = .ok () u → u.status = s.status) (he : ∀ s c u, body s = .error c u → u.status = s.status)
    (hf : s.status.fault = false) (h : gated op body s = .next t) (ht : t.status.fault = true) :
    t.status.cause ∈ cs ∧ t.status.fop = op.code := by
  simp only [gated, hf, Bool.false_eq_true, if_false, Host.Outcome.next.injEq] at h
  cases hbs : body s with
  | ok a u =>
    rw [hbs] at h
    subst h
    have := hk s u hbs
    simp only [finish] at ht
    rw [this, hf] at ht
    cases ht
  | error c u =>
    rw [hbs] at h
    have hu := he s c u hbs
    simp only [finish, State.raiseFault, hu, hf, Bool.false_eq_true, if_false] at h
    subst h
    exact ⟨hb s c u hbs, rfl⟩

end Sys2Proof.Machine
end

