-- ==== Sys2Proof/Laws/Transform.lean ====
section
/-!
SUPPORT. Laws of the transform (41_transform.md): the lanes of a row pass and of a column pass, the final rounding,
and the range of the forward network on pixels and pixel differences.
-/

namespace Sys2Proof.Machine

theorem rowPass_get (f : Vector Int 8 → Vector Int 8) (t : Block) (r c : Fin 8) :
    (rowPass f t)[8 * r.val + c.val]'(by omega) = wrap16 ((f (rowOf t r))[c]) := by
  have h1 : (8 * r.val + c.val) / 8 = r.val := by omega
  have h2 : (8 * r.val + c.val) % 8 = c.val := by omega
  simp only [rowPass, Vector.getElem_ofFn, h1, h2]
  rfl

theorem colPass_get (f : Vector Int 8 → Vector Int 8) (t : Block) (r c : Fin 8) :
    (colPass f t)[8 * r.val + c.val]'(by omega) = wrap16 ((f (colOf t c))[r]) := by
  have h1 : (8 * r.val + c.val) / 8 = r.val := by omega
  have h2 : (8 * r.val + c.val) % 8 = c.val := by omega
  simp only [colPass, Vector.getElem_ofFn, h1, h2]
  rfl

theorem roundLanes_get (d : Int) (t : Block) (k : Fin 64) : (roundLanes d t)[k] = wrap16 (rhaz (t[k]).toInt d) := by
  simp [roundLanes]

theorem rhaz_eight (x : Int) : rhaz x 8 = if x < 0 then Int.tdiv (x - 4) 8 else Int.tdiv (x + 4) 8 := by
  unfold rhaz tdiv
  norm_num

theorem rhaz_sixteen (x : Int) : rhaz x 16 = if x < 0 then Int.tdiv (x - 8) 16 else Int.tdiv (x + 8) 16 := by
  unfold rhaz tdiv
  norm_num

/-- The forward network of pass 1 on lanes in -256..255 (41_transform.md R126). -/
theorem fwd1d_first_range (u : Vector Int 8) (h : ∀ k : Fin 8, -256 ≤ u[k] ∧ u[k] ≤ 255) (k : Fin 8) :
    -5792 ≤ (fwd1d cosines .first u)[k] ∧ (fwd1d cosines .first u)[k] ≤ 5792 := by
  have h0 : -256 ≤ u[0] ∧ u[0] ≤ 255 := h 0
  have h1 : -256 ≤ u[1] ∧ u[1] ≤ 255 := h 1
  have h2 : -256 ≤ u[2] ∧ u[2] ≤ 255 := h 2
  have h3 : -256 ≤ u[3] ∧ u[3] ≤ 255 := h 3
  have h4 : -256 ≤ u[4] ∧ u[4] ≤ 255 := h 4
  have h5 : -256 ≤ u[5] ∧ u[5] ≤ 255 := h 5
  have h6 : -256 ≤ u[6] ∧ u[6] ≤ 255 := h 6
  have h7 : -256 ≤ u[7] ∧ u[7] ≤ 255 := h 7
  fin_cases k <;>
    simp [fwd1d, fwdPre, rescale, asr, cosines] <;>
    generalize u[0] = x0 at * <;> generalize u[1] = x1 at * <;> generalize u[2] = x2 at * <;>
    generalize u[3] = x3 at * <;> generalize u[4] = x4 at * <;> generalize u[5] = x5 at * <;>
    generalize u[6] = x6 at * <;> generalize u[7] = x7 at * <;> omega

/-- The forward network of pass 2 on what pass 1 leaves (41_transform.md R126). -/
theorem fwd1d_second_range (u : Vector Int 8) (h : ∀ k : Fin 8, -5792 ≤ u[k] ∧ u[k] ≤ 5792) (k : Fin 8) :
    -16399 ≤ (fwd1d cosines .second u)[k] ∧ (fwd1d cosines .second u)[k] ≤ 16399 := by
  have h0 : -5792 ≤ u[0] ∧ u[0] ≤ 5792 := h 0
  have h1 : -5792 ≤ u[1] ∧ u[1] ≤ 5792 := h 1
  have h2 : -5792 ≤ u[2] ∧ u[2] ≤ 5792 := h 2
  have h3 : -5792 ≤ u[3] ∧ u[3] ≤ 5792 := h 3
  have h4 : -5792 ≤ u[4] ∧ u[4] ≤ 5792 := h 4
  have h5 : -5792 ≤ u[5] ∧ u[5] ≤ 5792 := h 5
  have h6 : -5792 ≤ u[6] ∧ u[6] ≤ 5792 := h 6
  have h7 : -5792 ≤ u[7] ∧ u[7] ≤ 5792 := h 7
  fin_cases k <;>
    simp [fwd1d, fwdPre, rescale, asr, cosines] <;>
    generalize u[0] = x0 at * <;> generalize u[1] = x1 at * <;> generalize u[2] = x2 at * <;>
    generalize u[3] = x3 at * <;> generalize u[4] = x4 at * <;> generalize u[5] = x5 at * <;>
    generalize u[6] = x6 at * <;> generalize u[7] = x7 at * <;> omega

end Sys2Proof.Machine
end

