-- ==== Sys2Proof/Tests/Slice0.lean ====
section
/-!
SUPPORT. The model's own tests. Expected values are the spec's: the vectors of 95_test_vectors.md and
96_test_vectors_2.md, named at each test. After them, for every statement with hypotheses, a witness that meets them.
-/

namespace Sys2Proof.Tests

open Sys2Proof Sys2Proof.Machine

set_option Elab.async false

/-! Well-formedness: for each check an ill-formed command, which the check refuses -/

theorem test_wf_csrr : ¬ (Instr.csrr 256).WellFormed := by decide
theorem test_wf_csrw : ¬ (Instr.csrw 256 0).WellFormed := by decide
theorem test_wf_wrbits : ¬ (Instr.wrbits 64 0).WellFormed := by decide
theorem test_wf_rdbits : ¬ (Instr.rdbits 64).WellFormed := by decide
theorem test_wf_quant : ¬ (Instr.quant 0 .intra 32).WellFormed := by decide
theorem test_wf_dequant : ¬ (Instr.dequant 0 .inter 32).WellFormed := by decide
theorem test_wf_vlcenc : ¬ (Instr.vlcenc .t1 65536).WellFormed := by decide
theorem test_wf_meae : ¬ (Instr.meae 32 0 0 0).WellFormed ∧ ¬ (Instr.meae 0 32 0 0).WellFormed ∧
    ¬ (Instr.meae 0 0 16 0).WellFormed ∧ ¬ (Instr.meae 0 0 0 (-17)).WellFormed := by decide
theorem test_wf_mesearch : ¬ (Instr.mesearch 32 0).WellFormed ∧ ¬ (Instr.mesearch 0 32).WellFormed := by decide
theorem test_wf_memtype : ¬ (Instr.memtype 32 0).WellFormed ∧ ¬ (Instr.memtype 0 32).WellFormed := by decide
theorem test_wf_putpic : ¬ (Instr.putpic 32 0 false 0).WellFormed := by decide
theorem test_wf_putgob : ¬ (Instr.putgob 16 0 false 0).WellFormed ∧ ¬ (Instr.putgob 0 32 false 0).WellFormed := by decide
theorem test_wf_putmb : ¬ (Instr.putmb 64 0 0 0 0 0).WellFormed ∧ ¬ (Instr.putmb 0 16 0 0 0 0).WellFormed ∧
    ¬ (Instr.putmb 0 0 32 0 0 0).WellFormed ∧ ¬ (Instr.putmb 0 0 0 16 0 0).WellFormed ∧
    ¬ (Instr.putmb 0 0 0 0 (-17) 0).WellFormed ∧ ¬ (Instr.putmb 0 0 0 0 0 64).WellFormed := by decide

/-! Decoding: the words of vector V-ENC-1, written from the formats -/

theorem test_dec_nop : decode [0x00000000] = .instr .nop [] := by decide
theorem test_dec_reset : decode [0x01000000] = .instr .reset [] := by decide
theorem test_dec_csrr : decode [0x02050000] = .instr (.csrr 5) [] := by decide
theorem test_dec_csrw : decode [0x030200B0] = .instr (.csrw 2 176) [] := by decide
theorem test_dec_blkwr : decode (0x08400000 :: List.replicate 32 0x00020001 ++ [7]) =
    .instr (.blkwr 2 (Vector.ofFn (fun k => if k.val % 2 = 0 then 1 else 2))) [7] := by decide +kernel
theorem test_dec_blkrd : decode [0x09A00000] = .instr (.blkrd 5) [] := by decide
theorem test_dec_wrbits : decode [0x10000014, 0x00000010] = .instr (.wrbits 20 0x10) [] := by decide
theorem test_dec_rdbits : decode [0x11000009] = .instr (.rdbits 9) [] := by decide
theorem test_dec_bitpos : decode [0x12000000, 0x12000001] = .instr (.bitpos .wr) [0x12000001] ∧
    decode [0x12000001] = .instr (.bitpos .rd) [] := by decide
theorem test_dec_atend : decode [0x13000000] = .instr .atend [] := by decide
theorem test_dec_flush : decode [0x14000000] = .instr .flush [] := by decide
theorem test_dec_fdct : decode [0x20200000] = .instr (.fdct 1 0) [] := by decide
theorem test_dec_idct : decode [0x21FC0000] = .instr (.idct 7 7) [] := by decide
theorem test_dec_quant : decode [0x28220008] = .instr (.quant 1 .intra 8) [] := by decide
theorem test_dec_dequant : decode [0x2940001F] = .instr (.dequant 2 .inter 31) [] := by decide
theorem test_dec_encblk : decode [0x30220000] = .instr (.encblk 1 .intra) [] := by decide
theorem test_dec_decblk : decode [0x31600000] = .instr (.decblk 3 .inter) [] := by decide
theorem test_dec_vlcenc : decode [0x3260003C] = .instr (.vlcenc .cbp 60) [] ∧
    decode [0x32801B01] = .instr (.vlcenc .t1 0x1B01) [] := by decide
theorem test_dec_vlcdec : decode [0x33400000] = .instr (.vlcdec .mvd) [] := by decide
theorem test_dec_meae : decode [0x400F0C21] = .instr (.meae 1 1 3 (-2)) [] := by decide
theorem test_dec_mesearch : decode [0x4100010A] = .instr (.mesearch 10 8) [] := by decide
theorem test_dec_memtype : decode [0x42000021] = .instr (.memtype 1 1) [] := by decide
theorem test_dec_meclr : decode [0x43000000] = .instr .meclr [] := by decide
theorem test_dec_putpic : decode [0x500000E3] = .instr (.putpic 3 7 false 0) [] ∧
    decode [0x500A587F] = .instr (.putpic 31 3 true 0xA5) [] := by decide
theorem test_dec_putgob : decode [0x51000081] = .instr (.putgob 1 8 false 0) [] ∧
    decode [0x5103FFFC] = .instr (.putgob 12 31 true 0xFF) [] := by decide
theorem test_dec_putmb : decode [0x52000141, 0x001E0BA0] = .instr (.putmb 1 5 0 (-3) 2 60) [] ∧
    decode [0x520000C1, 0x0000800C] = .instr (.putmb 1 3 12 0 0 1) [] := by decide
theorem test_dec_getsc : decode [0x58000000] = .instr .getsc [] := by decide
theorem test_dec_getpic : decode [0x59000000] = .instr .getpic [] := by decide
theorem test_dec_getgob : decode [0x5A000000] = .instr .getgob [] := by decide
theorem test_dec_getmb : decode [0x5B000000] = .instr .getmb [] := by decide

/-- Vector V-ENC-2: illegal head words. -/
theorem test_dec_illegal :
    decode [0x04000000] = .illegal .unknownOpcode 0x04 [] ∧ decode [0x00000001] = .illegal .mustBeZero 0x00 [] ∧
    decode [0x32C00001] = .illegal .reservedTable 0x32 [] ∧ decode [0x33E00000] = .illegal .reservedTable 0x33 [] ∧
    decode [0x28040008] = .illegal .mustBeZero 0x28 [] ∧
    decode [0x52000041, 0x00200000] = .illegal .mustBeZero 0x52 [] := by decide

/-- Vector V-ENC-3: legal words that look odd. -/
theorem test_dec_odd : decode [0x10000021, 0] = .instr (.wrbits 33 0) [] ∧
    decode [0x5100000D] = .instr (.putgob 13 0 false 0) [] := by decide

/-- The first extension word is bits 63:32 of a table word (log 17). -/
theorem test_table_word : decodeTableWord 64 0x001E0BA052000141 = some (.putmb 1 5 0 (-3) 2 60) := by decide +kernel

/-! One step of each command, on small states -/

/-- A block of zeros. -/
def zeros : Block := Vector.replicate 64 0

/-- A block with these lanes and zeros elsewhere. -/
def lanes (l : List (Nat × Int)) : Block := l.foldl (fun b c => b.setIfInBounds c.1 (BitVec.ofInt 16 c.2)) zeros

/-- The reset state with zeros in every block register. -/
def base : State := { State.reset with blk := Vector.replicate 8 zeros }

/-- `base` with a source. -/
def reading (src : List Byte) : State := { base with src := src }

/-- `base` with planes of one macroblock. -/
def small : State := { base with planeW := 16, planeH := 16 }

/-- The state that a command leaves. -/
def ran (i : Instr) (s : State) : State :=
  match exec i s with
  | .next t => t
  | .fault _ => s
  | .refused _ => s

/-- The word of `STATUS`. -/
def st (s : State) : Nat := s.status.word

theorem test_reset : st (ran .reset { base with status := ⟨true, .boundsError, 0x40⟩, mbaddr := 5 }) = 0 := by
  decide +kernel

/-- 47_system.md R283: `CSRR LASTMV` of (-3, 2) reads `0x021D`. -/
theorem test_csrr : (ran (.csrr 4) { base with lastMv := ⟨-3, 2⟩ }).res[0] = 0x021D := by decide +kernel

/-- 10_state.md R28: 368 is beyond the largest width. -/
theorem test_csrw : (ran (.csrw 2 176) base).planeW = 176 ∧ st (ran (.csrw 2 368) base) = 0x0311 := by decide +kernel

theorem test_blkwr : (ran (.blkwr 3 (lanes [(9, -5)])) base).blk[3][9] = -5 := by decide +kernel

/-- 20_memory.md R53: the even lane is in the low half. -/
theorem test_blkrd : (ran (.blkrd 0) { base with blk := base.blk.set 0 (lanes [(0, 1), (1, -1)]) }).resp.head? =
    some 0xFFFF0001 := by decide +kernel

/-- 40_bitchannel.md R105: three bits, then five. -/
theorem test_wrbits : (ran (.wrbits 5 6) (ran (.wrbits 3 5) base)).sink = [0xA6] := by decide +kernel

theorem test_wrbits_range : st (ran (.wrbits 33 0) base) = 0x1011 := by decide +kernel

theorem test_rdbits : (ran (.rdbits 12) (reading [0xA5, 0x0F])).res[0] = 0xA50 ∧
    st (ran (.rdbits 17) (reading [0xA5, 0x0F])) = 0x1131 := by decide +kernel

theorem test_bitpos : (ran (.bitpos .wr) { base with wpos := 0x500000003 }).res[1] = 5 := by decide +kernel

theorem test_atend : (ran .atend base).res[0] = 1 ∧ (ran .atend (reading [0])).res[0] = 0 := by decide +kernel

theorem test_flush : (ran .flush (ran (.wrbits 1 1) base)).sink = [0x80] := by decide +kernel

/-- 41_transform.md: a block of 255 has the single coefficient 2039. -/
theorem test_fdct : (ran (.fdct 1 0) { base with blk := base.blk.set 0 (Vector.replicate 64 255) }).blk[1] =
    lanes [(0, 2039)] := by decide +kernel

/-- The row pass comes first: a horizontal and a vertical ramp differ in their last lane. -/
theorem test_fdct_order : (ran (.fdct 1 0)
    { base with blk := base.blk.set 0 (Vector.ofFn (fun k => BitVec.ofNat 16 (16 * (k.val / 8)))) }).blk[1] =
    lanes [(0, 448), (8, -292), (24, -31), (40, -9), (56, -2)] := by decide +kernel

theorem test_idct : (ran (.idct 0 0) { base with blk := base.blk.set 0 (lanes [(0, -4)]) }).blk[0] =
    Vector.replicate 64 (-1) := by decide +kernel

theorem test_quant : (ran (.quant 1 .inter 8)
    { base with blk := base.blk.set 1 (lanes [(0, 100), (1, -17), (8, 14)]) }).blk[1] =
    lanes [(0, 6), (1, -1)] := by decide +kernel

theorem test_quant_flag : (ran (.quant 0 .inter 8)
    { base with res := base.res.set 0 9, blk := base.blk.set 0 (lanes [(0, 14), (5, -14), (63, 9)]) }).res[0] = 0 := by
  decide +kernel

theorem test_dequant : (ran (.dequant 0 .inter 31)
    { base with blk := base.blk.set 0 (lanes [(0, 255), (1, 16384), (2, -16384), (3, -32768)]) }).blk[0] =
    lanes [(0, 15841), (1, -32737), (2, 32737), (3, -31)] := by decide +kernel

theorem test_dequant_even : (ran (.dequant 0 .intra 8)
    { base with blk := base.blk.set 0 (lanes [(0, 3), (3, 3), (4, -127)]) }).blk[0] =
    lanes [(0, 24), (3, 55), (4, -2039)] := by decide +kernel

/-- An intra block: DC 128 is sent as 255. -/
theorem test_encblk : (ran (.encblk 0 .intra)
    { base with blk := base.blk.set 0 (lanes [(0, 128), (1, 3), (8, -1)]) }).sink = [0xFF, 0x2B] := by decide +kernel

/-- An escape in an inter block. -/
theorem test_encblk_escape : (ran (.encblk 0 .inter) { base with blk := base.blk.set 0 (lanes [(6, 1)]) }).sink =
    [0x05, 0xB0] := by decide +kernel

/-- An escaped level of -128. -/
theorem test_decblk : (ran (.decblk 0 .intra) (reading [0x00, 0x04, 0x08, 0x00, 0x41, 0x00, 0x80])).blk[0] =
    lanes [(1, -128)] := by decide +kernel

theorem test_decblk_corrupt : st (ran (.decblk 0 .inter) (reading [0x00, 0x00])) = 0x3141 ∧
    (ran (.decblk 0 .inter) (reading [0x00, 0x00])).rpos = 9 := by decide +kernel

theorem test_vlcenc : (ran (.vlcenc .mba 34) base).sink = [0x01] ∧ st (ran (.vlcenc .t2 0) base) = 0x3271 := by
  decide +kernel

theorem test_vlcdec : (ran (.vlcdec .mba) (reading [0x00, 0x01])).res[0] = 35 ∧
    st (ran (.vlcdec .mba) (reading [0x00, 0x00])) = 0x3341 := by decide +kernel

/-- A sink that fails at the completing byte: the completing bit is not placed, the seven before it are
(20_memory.md R65, 60_exceptions.md R326(c); log 10). -/
theorem test_wrbits_sink_fails :
    (ran (.wrbits 9 0x155) { base with sinkScript := [true] }).wpend = [true, false, true, false, true, false, true] ∧
    st (ran (.wrbits 9 0x155) { base with sinkScript := [true] }) = 0x1091 := by decide +kernel

theorem test_nop : (ran .nop { base with mbaddr := 7 }).mbaddr = 7 := by decide +kernel

/-- Planes of two macroblocks in a row: one nonzero sample each, that of `REF` four columns to the right. -/
def pair (c : Byte) : State :=
  { base with planeW := 32, planeH := 16, cur := [(0, c)], ref := [(4, 9)] }

/-- 45_motion.md R201: at displacement (0,0) both samples count, at (4,0) they meet. -/
theorem test_meae : (ran (.meae 0 0 0 0) (pair 9)).res[0] = 18 ∧ (ran (.meae 0 0 4 0) (pair 9)).res[0] = 0 := by
  decide +kernel

/-- 45_motion.md R202: left of the plane; no planes. -/
theorem test_meae_faults : st (ran (.meae 0 0 (-1) 0) small) = 0x4021 ∧ st (ran (.meae 0 0 0 0) base) = 0x4011 := by
  decide +kernel

theorem test_mesearch : (ran (.mesearch 0 0) (pair 9)).res = #v[0, 4, 0, 0] := by decide +kernel

/-- The checkerboard variant scores even coordinate sums only (45_motion.md R208). -/
theorem test_mesearch_even : (ran (.mesearch 0 0) { pair 9 with cfg := 3, ref := [(6, 9)] }).res = #v[0, 6, 0, 0] := by
  decide +kernel

/-- Vector V-ME-5: below 128 not transmitted, at 128 and above with the zero vector `INTER`. -/
theorem test_memtype :
    (ran (.memtype 0 0) { small with cur := [(0, 127)] }).res = #v[10, 0, 0, 127] ∧
    (ran (.memtype 0 0) { small with cur := [(0, 128)] }).res = #v[2, 0, 0, 128] := by decide +kernel

/-- Vector V-ME-5 g: a stale macroblock is refreshed and its counter cleared. -/
theorem test_memtype_refresh :
    (ran (.memtype 0 0) { small with cur := [(0, 192)], stale := small.stale.set 0 5209 }).res = #v[0, 0, 0, 192] ∧
    (ran (.memtype 0 0) { small with cur := [(0, 192)], stale := small.stale.set 0 5209 }).stale[0] = 0 := by
  decide +kernel

theorem test_meclr : (ran .meclr { base with prevMv := base.prevMv.set 5 ⟨3, -2⟩ }).prevMv[5] = ⟨0, 0⟩ := by
  decide +kernel

/-- Vectors V-HDR-1, V-HDR-2. -/
theorem test_putpic : (ran (.putpic 3 7 false 0) base).sink = [0x00, 0x01, 0x01, 0x8E] ∧
    (ran (.putpic 31 3 true 0xA5) base).sink = [0x00, 0x01, 0x0F, 0x87, 0xA5] := by decide +kernel

/-- Vectors V-HDR-4, V-HDR-6. -/
theorem test_putgob : (ran .flush (ran (.putgob 1 8 false 0) base)).sink = [0x00, 0x01, 0x14, 0x00] ∧
    st (ran (.putgob 13 8 false 0) base) = 0x5121 := by decide +kernel

/-- Vector V-HDR-7, type 5. -/
theorem test_putmb : (ran .flush (ran (.putmb 1 5 0 (-3) 2 60) base)).sink = [0x80, 0x8C, 0xB8] ∧
    (ran (.putmb 1 5 0 (-3) 2 60) base).lastMv = ⟨-3, 2⟩ := by decide +kernel

/-- Vector V-HDR-11: the type is checked before the field that does not belong to it. -/
theorem test_putmb_faults : st (ran (.putmb 11 10 0 0 0 0) base) = 0x5251 ∧
    st (ran (.putmb 1 2 0 0 0 0) base) = 0x5271 := by decide +kernel

/-- Vector V-HDR-12. -/
theorem test_getsc : (ran .getsc (reading [0x00, 0x01, 0x20])).res[0] = 2 ∧
    st (ran .getsc (reading [0x00, 0x02, 0x00])) = 0x5851 := by decide +kernel

/-- The header fields of vector V-HDR-10, TR 3 and PTYPE 7. -/
theorem test_getpic : (ran .getpic (reading [0x18, 0xE0])).res = #v[3, 7, 0, 0] ∧
    st (ran .getpic (reading [0x1F, 0xFF])) = 0x5931 := by decide +kernel

/-- Vector V-HDR-14. -/
theorem test_getgob : (ran .getgob (reading [0x44, 0x46, 0x45, 0x33, 0x00])).res = #v[8, 3, 0, 0] ∧
    (ran .getgob (reading [0x44, 0x46, 0x45, 0x33, 0x00])).rpos = 33 := by decide +kernel

/-- Vector V-HDR-15: the predictor (15, -16) is read back with the wrapped difference. -/
theorem test_getmb : (ran .getmb { reading [0x80, 0x53] with lastMv := ⟨15, -16⟩ }).res = #v[1, 4, -16, 15] := by
  decide +kernel

/-- Vector V-HDR-13: stuffing. -/
theorem test_getmb_stuffing : (ran .getmb (reading [0x01, 0xE0, 0x3D, 0x08])).rpos = 29 ∧
    (ran .getmb (reading [0x01, 0xE0, 0x3D, 0x08])).mbaddr = 3 := by decide +kernel

/-! One step takes the words, advances the index, and a fault stops it. -/

/-- The state that a step leaves. -/
def stepped (s : State) : State :=
  match step s with
  | .next t => t
  | .fault _ => s
  | .refused _ => s

theorem test_step : (stepped { base with queue := [0x10000008, 0xAB, 0] }).queue = [0] ∧
    (stepped { base with queue := [0x10000008, 0xAB, 0] }).pc = 1 ∧
    (stepped { base with queue := [0x10000008, 0xAB, 0] }).sink = [0xAB] := by decide +kernel

/-- Vector V-FLT-3: an illegal word. -/
theorem test_step_illegal : st (stepped { base with queue := [0x07000000] }) = 0x07A1 ∧
    (stepped { base with queue := [0x07000000] }).pc = 0 := by decide +kernel

theorem test_fetch_word : (stepped (base.withFetchWord 64 0x000000AB10000008)).sink = [0xAB] := by decide +kernel

/-! The parameters (00_scope.md R6): another value changes what the commands do. -/

/-- REFCFG passes the check of the parameters. -/
theorem test_refcfg_wf : refCfg.wf = true := by decide +kernel

/-- What the check refuses: a scan that is no permutation, a code word that is a prefix of another, a value without a
code word. -/
theorem test_params_wf : ({ refCfg with zigzag := Vector.replicate 64 0 } : Params).wf = false ∧
    ({ refCfg with tblMtype := ⟨10, 1, 0⟩ :: tblMtype } : Params).wf = false ∧
    ({ refCfg with tblCbp := tblCbp.drop 1 } : Params).wf = false := by decide +kernel

/-- With the raster order as the scan, lane 8 stands at position 8: run 8, level 1 (43_entropy.md R163, R194). -/
theorem test_zigzag : (ran (.encblk 0 .inter) { base with
    par := { refCfg with zigzag := Vector.ofFn (fun k => k.val) }, blk := base.blk.set 0 (lanes [(8, 1)]) }).sink = [0x0E] ∧
    (ran (.decblk 0 .inter) { reading [0x0E, 0x80] with
      par := { refCfg with zigzag := Vector.ofFn (fun k => k.val) } }).blk[0] = lanes [(8, 1)] := by decide +kernel

/-- Another code word for CBP 63. -/
theorem test_table : (ran .flush (ran (.vlcenc .cbp 63) { base with
    par := { refCfg with tblCbp := [⟨63, 3, 0b101⟩] } })).sink = [0xA0] := by decide +kernel

/-- Another start code, written and recognised. -/
theorem test_start_code : (ran (.putgob 1 8 false 0) { base with par := { refCfg with gbsc := 0xBEEF } }).sink.take 2 =
      [0xBE, 0xEF] ∧
    (ran .getsc { reading [0xBE, 0xEF, 0x50] with par := { refCfg with gbsc := 0xBEEF } }).res[0] = 5 := by
  decide +kernel

/-- With `C1D4 = 0` a constant block has no coefficient. -/
theorem test_cos : (ran (.fdct 1 0) { base with
    par := { refCfg with cos := { cosines with c1d4 := 0 } }
    blk := base.blk.set 0 (Vector.replicate 64 255) }).blk[1] = zeros := by decide +kernel

/-! Witnesses: concrete states and operands that meet the hypotheses of each statement, clause by clause -/

/-- `base` in the faulted state. -/
def faultedBase : State := { base with status := ⟨true, .argumentError, 0x10⟩ }

/-- `base` with seven pending bits. -/
def seven : State := { base with wpend := List.replicate 7 true, wpos := 7 }

/-- A state that meets the invariant and is not the reset state. -/
def busy : State := { seven with
  queue := [0x52000141, 0x001E0BA0], mbaddr := 33, cfg := 3, planeW := 352, planeH := 288, src := [1, 2], rpos := 16,
  cur := [(3, 1), (9, 255)], prevMv := base.prevMv.set 395 ⟨15, -15⟩ }

theorem witness_DecodeInvertsEncode : (Instr.putmb 63 15 31 15 (-16) 63).WellFormed ∧
    (Instr.meae 31 31 15 (-16)).WellFormed ∧ (Instr.putpic 31 63 false 0).WellFormed ∧
    (Instr.putgob 15 31 true 255).WellFormed ∧ (Instr.csrw 255 65535).WellFormed := by decide

theorem witness_EncodeInvertsDecode : decode [0x520003C1, 0x001FFFFF, 5] = .instr (.putmb 1 15 31 (-1) (-1) 63) [5] := by
  decide

theorem witness_DecoderFollowsOpcodeTable : decodeHead 0x10000021 [0] = .ok (.wrbits 33 0) ∧
    (∃ r ∈ opcodeTable, ∃ r' ∈ opcodeTable, (0x10000021 : Word) &&& r.mask = r.pattern ∧
      (0x10000021 : Word) &&& r'.mask = r'.pattern) := by decide +kernel

/-- An unknown opcode in front of two words, and a known one whose extension word goes with it. -/
theorem witness_IllegalCommandTakesFault :
    base.status.fault = false ∧ decode [0xFF000000, 1] = .illegal .unknownOpcode 0xFF [1] ∧
    decode [0x10000040, 9, 1] = .illegal .mustBeZero 0x10 [1] := by decide

theorem witness_StepRunsDecodedCommand : decode busy.queue = .instr (.putmb 1 5 0 (-3) 2 60) [] ∧
    decode base.queue = .incomplete := by decide

theorem witness_StepTakesOneCommand : ∃ s : State, s.queue ≠ [] ∧
    ∀ h tail, s.queue = h :: tail → extWordsOf h ≤ tail.length := by
  refine ⟨{ base with queue := [0x00000000] }, by decide, ?_⟩
  intro h tail e
  cases e
  decide

theorem witness_FaultedEngineGates : faultedBase.status.fault = true ∧ Instr.meclr ≠ .reset ∧
    (∀ csr, Instr.meclr ≠ .csrr csr) ∧
    decode [0x43000000] = .instr .meclr [] ∧ decode [0x07000000] = .illegal .unknownOpcode 0x07 [] ∧
    ∃ t, exec (.csrr 0) faultedBase = .next t := by
  refine ⟨rfl, by decide, (fun c h => by cases h), by decide, by decide, _, rfl⟩

/-- A state that meets the invariant, at several of its bounds, with a whole command issued. -/
theorem witness_StepKeepsInvariant : busy.Inv ∧ ∃ t, step busy = .next t := by
  refine ⟨⟨by decide +kernel, by decide +kernel, by decide +kernel, by decide +kernel, by decide +kernel,
    by decide +kernel, by decide +kernel, by decide +kernel⟩, ?_⟩
  cases h : step busy with
  | next t => exact ⟨t, rfl⟩
  | fault r => cases r
  | refused r => exact absurd h (by unfold busy step; exact fun k => by cases k)

theorem witness_InvariantHoldsAtReset :
    buildEngine { refCfg with padBit := true } = some (State.resetWith { refCfg with padBit := true }) ∧
    ¬ ({ refCfg with zigzag := Vector.replicate 64 0 } : Params).zigzag.toList.Perm (List.range 64) ∧
    (∃ e ∈ tableOf { refCfg with tblMba := [⟨1, 1, 1⟩, ⟨2, 2, 3⟩] } .mba,
      ∃ f ∈ tableOf { refCfg with tblMba := [⟨1, 1, 1⟩, ⟨2, 2, 3⟩] } .mba,
      e ≠ f ∧ bits e.len e.code <+: bits f.len f.code) :=
  ⟨if_pos (by decide +kernel), by decide +kernel, ⟨⟨1, 1, 1⟩, by decide, ⟨2, 2, 3⟩, by decide, by decide, by decide⟩⟩

theorem witness_FaultCauseIsListed : base.status.fault = false ∧
    ∃ t, exec (.rdbits 1) base = .next t ∧ t.status.fault = true := ⟨rfl, _, rfl, rfl⟩

theorem witness_ChecksComeFirst : (Instr.putmb 1 2 0 0 0 0).WellFormed ∧ checksFirst (.putmb 1 2 0 0 0 0) = true ∧
    base.status.fault = false ∧ ∃ t, exec (.putmb 1 2 0 0 0 0) base = .next t ∧ t.status.fault = true ∧
      t.status.cause ≠ .sinkIoError :=
  ⟨by decide, rfl, rfl, _, rfl, rfl, by decide⟩

/-- The second clause: a GETGOB cut off in its tail, a GETSC cut off after the code, in states that meet `ReadInv`. -/
theorem witness_ChecksComeFirst_inside : readsStructure .getgob = true ∧ (reading [0xFF]).ReadInv ∧
    (∃ t, exec .getgob (reading [0xFF]) = .next t ∧ t.status.fault = true) ∧
    (∃ t, exec .getsc (reading [0, 1]) = .next t ∧ t.status.fault = true) ∧ refCfg.wf = true ∧
    checksFirst (.rdbits 1) = true :=
  ⟨rfl, by decide, ⟨_, rfl, by decide +kernel⟩, ⟨_, rfl, by decide +kernel⟩, test_refcfg_wf, rfl⟩

theorem witness_CsrrReadsRegister : (6 ≤ 6) ∧ (7 > 6) ∧ base.status.fault = false ∧ faultedBase.status.fault = true ∧
    (0x02050001 : Word).toNat / 2 ^ 24 = 0x02 ∧ (0x02050001 : Word).toNat % 2 ^ 16 ≠ 0 := by decide

theorem witness_CsrwWritesRegister : base.status.fault = false := rfl

theorem witness_BlkwrLoadsLanes : base.status.fault = false ∧ (List.replicate 32 (0x80007FFF : Word)).length = 32 ∧
    (0x08E00000 : Word).toNat = 0x08 * 2 ^ 24 + (7 : Fin 8).val * 2 ^ 21 := by decide

theorem witness_BlkrdReturnsWords : base.status.fault = false ∧ (List.replicate 32 (0 : Word)).length = 32 ∧
    (0x08000000 : Word).toNat = 0x08 * 2 ^ 24 + (0 : Fin 8).val * 2 ^ 21 ∧
    (∃ i rest, decode (0x08000000 :: List.replicate 32 0 ++ []) = .instr i rest ∧ ∃ t, exec i base = .next t) :=
  ⟨rfl, by decide, by decide, .blkwr 0 zeros, [], by decide +kernel, _, rfl⟩

theorem witness_WrbitsAppendsLowBits : seven.status.fault = false ∧ (32 ≤ 32 ∧ seven.wpend.length < 8) ∧ (33 > 32) ∧
    seven.SinkAccepts := by decide

theorem witness_RdbitsReturnsNextBits : base.status.fault = false ∧
    (reading [0xA5, 0, 0, 0x81]).SourceHolds (bits 32 0xA5000081) ∧ (bits 32 0xA5000081).length = 32 ∧
    (reading [0xA5]).rpos.toNat + 9 > 8 * (reading [0xA5]).src.length := by decide +kernel

theorem witness_BitposReturnsPosition : base.status.fault = false := rfl

theorem witness_AtendTestsForUnreadBits : base.status.fault = false := rfl

theorem witness_FlushCompletesByte : seven.status.fault = false ∧ seven.wpend.length < 8 ∧ base.wpend = [] ∧
    ∃ t, exec .flush seven = .next t ∧ t.status.fault = false := ⟨rfl, by decide, rfl, _, rfl, rfl⟩

theorem witness_SourceHoldsWhatSinkGot : seven.wpend.length < 8 ∧
    (reading [0xAB]).src = ({ seven with sink := [0xAB] } : State).sink ∧ (reading [0xAB]).rpos = 0 ∧
    8 * (reading [0xAB]).src.length < 2 ^ 64 := by decide

theorem witness_FdctRunsRowsThenColumns : base.status.fault = false ∧ refCfg.chenNetwork = .default := ⟨rfl, rfl⟩

theorem witness_IdctRunsColumnsThenRows : base.status.fault = false ∧ refCfg.chenNetwork = .default := ⟨rfl, rfl⟩

theorem witness_FdctPixelsStayInRange : base.status.fault = false ∧ base.par.chenNetwork = .default ∧
    base.par.cos = ⟨362, 473, 196, 502, 426, 284, 100⟩ ∧
    ∀ k : Fin 64, -256 ≤ ((lanes [(0, -256), (1, 255)])[k]).toInt ∧ ((lanes [(0, -256), (1, 255)])[k]).toInt ≤ 255 := by
  decide +kernel

theorem witness_QuantLanesAndFlag : base.status.fault = false ∧ (31 : Nat) ≠ 0 ∧
    base.par.intraDcQuant = .default := by decide

theorem witness_QuantNeverGrows : refCfg.intraDcQuant = .default ∧ (1 : Nat) ≠ 0 := by decide

theorem witness_DequantReconstructs : base.status.fault = false ∧ (31 : Nat) ≠ 0 ∧ base.par.deqClip = none := by decide

theorem witness_DequantClipsToRange : base.status.fault = false ∧ (31 : Nat) ≠ 0 ∧
    ({ base with par := { refCfg with deqClip := some (-2048, 2047) } } : State).par.deqClip = some (-2048, 2047) := by
  decide

theorem witness_ReconstructionIsClose : (1 ≤ 31) ∧ (31 ≤ 31) ∧ refCfg.deqEvenOnly = true ∧
    quantLane refCfg .inter 31 0 2047 ≠ 0 ∧ quantLane refCfg .inter 31 0 61 = 0 ∧
    (Coding.intra = .intra → (63 : Nat) ≠ 0) := by decide

theorem witness_VlcencWritesCodeWord : base.status.fault = false ∧ base.par.wf = true ∧
    (∀ tbl, tableOf base.par tbl ≠ []) ∧ seven.wpend.length < 8 ∧ ∀ e ∈ tableOf base.par .cbp, e.value ≠ 0 := by
  refine ⟨rfl, test_refcfg_wf, ?_, by decide, by decide +kernel⟩
  intro tbl
  cases tbl <;> decide +kernel

theorem witness_VlcdecReturnsValue : base.status.fault = false ∧ base.par.wf = true ∧
    ∃ e ∈ tableOf refCfg .mtype, (reading [0x80]).SourceHolds (bits e.len e.code) := by decide +kernel

theorem witness_VlcdecOutcomes : base.status.fault = false ∧ base.par.wf = true ∧ base.ReadInv := by decide +kernel

theorem witness_DcMapRoundTrip : (1 : Int) ≤ 1 ∧ (254 : Int) ≤ 254 := by decide

/-- A block that is sent, and a block of zeros that is not. -/
theorem witness_EncblkWritesBlock : base.status.fault = false ∧ seven.wpend.length < 8 ∧ refCfg.wf = true ∧
    (¬ (Coding.inter = .inter ∧ ∀ k : Fin 64, (lanes [(63, 1)])[k] = 0)) ∧ (∀ k : Fin 64, base.blk[0][k] = 0) := by
  decide +kernel

/-- The first clause: one coefficient; the second: the source ends inside it. -/
theorem witness_DecblkReadsBlock : base.status.fault = false ∧ base.par.wf = true ∧ (255 : Nat) < 256 ∧
    (Coef.mk 0 1 false).ok (firstTable refCfg .inter) ∧ (Coef.mk 63 (-128) true).ok refCfg.tblT1 ∧
    positionAfter 0 [⟨62, 1, true⟩, ⟨0, 1, false⟩] ≤ 64 ∧
    (reading [0xA0]).SourceHolds (blockStream refCfg .inter 0 [⟨0, 1, false⟩]) ∧
    (reading [0x04]).SourceEndsInside (blockStream refCfg .inter 0 [⟨0, -128, true⟩]) := by
  refine ⟨rfl, test_refcfg_wf, by decide, ?_, ?_, by decide, by decide +kernel, bits 8 0x04, by decide +kernel,
    by decide +kernel, by decide +kernel⟩
  · unfold Coef.ok; decide +kernel
  · unfold Coef.ok; decide +kernel

/-- An intra block with no coefficient, whole and cut off. -/
theorem witness_DecblkReadsBlock_empty : (reading [0x80, 0x80]).SourceHolds (blockStream refCfg .intra 128 []) ∧
    (reading [0x80]).SourceEndsInside (blockStream refCfg .intra 128 []) := by
  refine ⟨by decide +kernel, bits 8 0x80, by decide +kernel, by decide +kernel, by decide +kernel⟩

/-- The third clause: the second coefficient is the 65th position. -/
theorem witness_DecblkReadsBlock_beyond :
    [Coef.mk 63 1 true, ⟨0, 1, false⟩].dropLast = [⟨63, 1, true⟩] ∧
    positionAfter (firstPosition .inter) [⟨63, 1, true⟩] ≤ 64 ∧
    positionAfter (firstPosition .inter) [⟨63, 1, true⟩, ⟨0, 1, false⟩] > 64 ∧
    (reading [0x07, 0xF0, 0x1C]).SourceHolds
      ([] ++ coefStream refCfg (firstTable refCfg .inter) [⟨63, 1, true⟩, ⟨0, 1, false⟩]) := by decide +kernel

theorem witness_EntropyRoundTrip : base.status.fault = false ∧ seven.wpend.length < 8 ∧ seven.SinkAccepts ∧
    base.par.wf = true ∧ base.par.zigzag[0] = 0 ∧
    (¬ (Coding.inter = .inter ∧ ∀ k : Fin 64, (lanes [(63, 1)])[k] = 0)) ∧
    (reading [0xA0]).SourceHolds (blockStream refCfg .inter 0 [⟨0, 1, false⟩]) := by decide +kernel

/-- The second clause: an intra block at the bounds of its ranges. -/
theorem witness_EntropyRoundTrip_inside : ∀ k : Fin 64, if Coding.intra = .intra ∧ k.val = 0
    then 1 ≤ ((lanes [(0, 254), (1, -127), (2, 127)])[k]).toInt ∧ ((lanes [(0, 254), (1, -127), (2, 127)])[k]).toInt ≤ 254
    else -127 ≤ ((lanes [(0, 254), (1, -127), (2, 127)])[k]).toInt ∧
      ((lanes [(0, 254), (1, -127), (2, 127)])[k]).toInt ≤ 127 := by decide +kernel

theorem witness_MeaeScoresCandidate : small.status.fault = false ∧ inPlane (pair 9) 0 0 ∧
    inWindow (pair 9) 0 0 ⟨15, 0⟩ ∧ base.planeW = 0 ∧ small.planeW ≠ 0 ∧ small.planeH ≠ 0 ∧
    ¬ (inPlane small 0 0 ∧ inWindow small 0 0 ⟨1, 0⟩) ∧ ¬ (inPlane small 1 0 ∧ inWindow small 1 0 ⟨-15, 0⟩) := by
  decide +kernel

theorem witness_AeIsBounded_refCfg : base.par = refCfg := rfl

theorem witness_AeIsBounded : refCfg.wf = true ∧
    ∀ i < 16, ∀ j < 16, planeByte small.cur small.planeW.toNat (16 * (0 : Nat) + (i : Nat)) (16 * (0 : Nat) + (j : Nat)) =
      planeByte small.ref small.planeW.toNat (16 * (0 : Nat) + 0 + (i : Nat)) (16 * (0 : Nat) + 0 + (j : Nat)) := by
  decide +kernel

theorem witness_MesearchKeepsContract : small.status.fault = false ∧ inPlane small 0 0 ∧ base.planeW = 0 ∧
    small.planeW ≠ 0 ∧ small.planeH ≠ 0 ∧ ¬ inPlane small 1 0 := by decide +kernel

/-- Each variant, by `CFG`. -/
theorem witness_FullSearchFindsBest : small.status.fault = false ∧ inPlane (pair 9) 1 0 ∧ (pair 9).cfg.toNat % 4 = 0 ∧
    (∀ a : Fin 4, (pair 9).par.searchImpl[a] = .default) ∧ inWindow (pair 9) 1 0 ⟨-15, 0⟩ ∧
    (∀ a : Fin 4, ({ pair 9 with cfg := BitVec.ofNat 16 a.val } : State).cfg.toNat % 4 = a.val) ∧
    (pair 9).prevMv[0 * ((pair 9).planeW.toNat / 16) + 1]? = some ⟨0, 0⟩ := by decide +kernel

theorem witness_MemtypeResultSet : small.status.fault = false ∧ inPlane (pair 9) 1 0 ∧ base.planeH = 0 ∧
    small.planeW ≠ 0 ∧ small.planeH ≠ 0 ∧ ¬ inPlane small 0 1 := by decide +kernel

theorem witness_MemtypeFollowsSteps : (pair 255).status.fault = false ∧ inPlane (pair 255) 0 0 ∧
    (0 : Nat) = 0 * ((pair 255).planeW.toNat / 16) + 0 ∧ (pair 255).prevMv[0]? = some ⟨0, 0⟩ ∧
    (aeSum (pair 255) 0 0 ⟨0, 0⟩ : Int) ≥ (pair 255).par.aeTcoeffThreshold := by decide +kernel

theorem witness_MeclrClearsMemory : base.status.fault = false := rfl

theorem witness_PutpicWritesHeader : seven.status.fault = false ∧ seven.wpend.length < 8 := by decide

theorem witness_PutgobWritesHeader : seven.status.fault = false ∧ seven.wpend.length < 8 ∧
    (1 ≤ 1 ∧ 12 ≤ 12) ∧ (13 < 1 ∨ 13 > 12) := by decide

/-- `base` with the extra predictor resets of ITU-T H.261. -/
def resetting : State := { base with par := { refCfg with mvdResetH261 := true }, lastMv := ⟨3, -2⟩ }

/-- Without the resets and with them: address 12 by a difference of 1 has the zero predictor, 13 has `LASTMV`. -/
theorem witness_PutmbWritesHeader : seven.status.fault = false ∧ seven.wpend.length < 8 ∧ seven.par.wf = true ∧
    headerOk refCfg 33 9 31 15 (-16) 63 ∧ base.mbaddr.toNat + 33 ≤ 33 ∧ resetting.par.wf = true ∧
    ((0, 0) = if resetting.par.mvdResetH261 = true ∧ ((1 : Nat) ≠ 1 ∨ 11 + 1 ∈ [1, 12, 23]) then (0, 0)
      else (resetting.lastMv.h.toInt, resetting.lastMv.v.toInt)) ∧
    ((3, -2) = if resetting.par.mvdResetH261 = true ∧ ((1 : Nat) ≠ 1 ∨ 12 + 1 ∈ [1, 12, 23]) then (0, 0)
      else (resetting.lastMv.h.toInt, resetting.lastMv.v.toInt)) := by decide +kernel

theorem witness_PutmbChecksInOrder : base.status.fault = false ∧ (10 > 9) ∧ (33 + 1 > 33) ∧
    strayField (mtypeAttr refCfg 0) 1 0 0 0 ∧ ¬ strayField (mtypeAttr refCfg 1) 0 0 0 0 ∧
    (mtypeAttr refCfg 1).quant = true ∧ ¬ strayField (mtypeAttr refCfg 2) 0 0 0 0 ∧
    (mtypeAttr refCfg 2).quant = false ∧ (mtypeAttr refCfg 2).cbp = true := by decide +kernel

theorem witness_GetscReadsStartCode : (reading [0, 1, 0xC0]).status.fault = false ∧
    (reading [0, 1, 0xC0]).SourceHolds (bits 16 refCfg.gbsc.toNat ++ bits 4 12) ∧
    ({ reading [0xF0] with scseen := true }).SourceHolds (bits 4 15) ∧ 0xFFFF ≠ refCfg.gbsc.toNat ∧
    (reading [0xFF, 0xFF]).SourceHolds (bits 16 0xFFFF) ∧ (reading [0]).rpos.toNat + 16 > 8 * (reading [0]).src.length ∧
    ((reading [0, 1]).SourceHolds (bits 16 refCfg.gbsc.toNat) ∧
      (reading [0, 1]).rpos.toNat + 20 > 8 * (reading [0, 1]).src.length) ∧
    base.rpos.toNat + 4 > 8 * base.src.length := by decide +kernel

/-- A whole header, and sources that end before, between and inside its fields and in its tail. -/
theorem witness_GetpicReadsHeader : (reading [0xFF, 0xF8, 0x10]).status.fault = false ∧
    (reading [0xFF, 0xF8, 0x10]).SourceHolds (bits 5 31 ++ bits 6 63 ++ tailBits [0x81]) ∧
    ([] <+: bits 5 31 ++ bits 6 63 ++ tailBits [0x81] ∧ base.SourceEnds []) ∧
    (bits 8 0xFF <+: bits 5 31 ++ bits 6 63 ++ tailBits [0x81] ∧ (reading [0xFF]).SourceEnds (bits 8 0xFF)) ∧
    (bits 16 0xFFF8 <+: bits 5 31 ++ bits 6 63 ++ tailBits [0x81] ∧
      (reading [0xFF, 0xF8]).SourceEnds (bits 16 0xFFF8)) := by decide +kernel

theorem witness_GetgobReadsHeader : (reading [0xF8]).status.fault = false ∧
    (reading [0xF8]).SourceHolds (bits 5 31 ++ tailBits []) ∧
    (bits 8 0xFF <+: bits 5 31 ++ tailBits [0xFF] ∧ (bits 8 0xFF).length < 6 + 9 * [(0xFF : Byte)].length ∧
      (reading [0xFF]).SourceEnds (bits 8 0xFF)) := by decide +kernel

/-- The clauses: a header after one stuffing word, whole and cut off, the start code, an address beyond 33. -/
theorem witness_GetmbReadsHeader : base.status.fault = false ∧ base.par.wf = true ∧ (0 : Nat) + 1 ≤ 33 ∧
    ¬ strayField (mtypeAttr refCfg 5) 0 (-3) 2 60 ∧ fitsS5 (-3) ∧
    (reading [0x01, 0xF0, 0x11, 0x97, 0x00]).SourceHolds ((List.replicate 1 (codeWord refCfg.tblMba 34)).flatten ++
      headerBits refCfg ((-3 - 0) % 32 : Int).toNat ((2 - 0) % 32 : Int).toNat 1 5 0 60) ∧
    (reading [0x01, 0xF0]).SourceEndsInside ((List.replicate 1 (codeWord refCfg.tblMba 34)).flatten ++
      headerBits refCfg ((-3 - 0) % 32 : Int).toNat ((2 - 0) % 32 : Int).toNat 1 5 0 60) ∧
    (reading [0x00, 0x01]).SourceHolds ((List.replicate 0 (codeWord refCfg.tblMba 34)).flatten ++
      codeWord refCfg.tblMba 35) ∧
    ({ reading [0x80] with mbaddr := 33 } : State).mbaddr.toNat + 1 > 33 ∧
    (reading [0x80]).SourceHolds ((List.replicate 0 (codeWord refCfg.tblMba 34)).flatten ++ codeWord refCfg.tblMba 1) := by
  refine ⟨rfl, test_refcfg_wf, by decide, by decide +kernel, by decide, by decide +kernel,
    ⟨bits 16 0x01F0, by decide +kernel, by decide +kernel, by decide +kernel⟩, by decide +kernel, by decide +kernel,
    by decide +kernel⟩

/-- The start code cut off after one byte. -/
theorem witness_GetmbReadsHeader_start : (reading [0x00]).SourceEndsInside
    ((List.replicate 0 (codeWord refCfg.tblMba 34)).flatten ++ codeWord refCfg.tblMba 35) :=
  ⟨bits 8 0x00, by decide +kernel, by decide +kernel, by decide +kernel⟩

theorem witness_MacroblockHeaderRoundTrip : seven.status.fault = false ∧ seven.wpend.length < 8 ∧ seven.SinkAccepts ∧
    seven.par.wf = true ∧ headerOk refCfg 1 5 0 (-3) 2 60 ∧ seven.mbaddr.toNat + 1 ≤ 33 ∧
    ((reading [0x80, 0x8C, 0xB8]).lastMv = seven.lastMv ∧ (reading [0x80, 0x8C, 0xB8]).mbaddr = seven.mbaddr ∧
      (reading [0x80, 0x8C, 0xB8]).SourceHolds (headerBits refCfg 29 2 1 5 0 60)) := by decide +kernel

theorem witness_MacroblockHeaderRoundTrip_par : (reading [0x80, 0x8C, 0xB8]).par = seven.par := rfl

theorem witness_OtherResultsUnchanged : (∃ t, exec (.quant 0 .inter 8) base = .next t) ∧
    (1 : Fin 4) ∉ resultsOf (.quant 0 .inter 8) := ⟨⟨_, rfl⟩, by decide⟩

theorem witness_OtherBlocksUnchanged : (∃ t, exec (.fdct 1 0) base = .next t) ∧ blockOf (.fdct 1 0) ≠ some 0 ∧
    Instr.fdct 1 0 ≠ .reset := ⟨⟨_, rfl⟩, by decide, by decide⟩

theorem witness_ChannelSidesAreIndependent : (∃ t, exec .getsc base = .next t) ∧ Instr.getsc ≠ .reset ∧
    writesStream .getsc = false ∧ readsStream .flush = false := ⟨⟨_, rfl⟩, by decide, rfl, rfl⟩

theorem witness_ControlStateUnchanged : (∃ t, exec .meclr base = .next t) ∧ Instr.meclr ≠ .reset ∧
    Instr.meclr.opcode ≠ .csrw ∧ Instr.meclr.opcode ∉ [Opcode.putgob, .getgob, .putmb, .getmb] ∧
    Instr.meclr.opcode ∉ [Opcode.getsc, .getmb] ∧ Instr.nop.opcode ∉ [Opcode.memtype, .meclr] :=
  ⟨⟨_, rfl⟩, by decide, by decide, by decide, by decide, by decide⟩

theorem witness_HostMemoriesUnchanged : (∃ t, exec (.memtype 0 0) small = .next t) ∧
    (Instr.memtype 0 0).opcode ≠ .blkrd ∧ Instr.memtype 0 0 ≠ .reset := ⟨⟨_, rfl⟩, by decide, by decide⟩

end Sys2Proof.Tests
end

section
/-!
The step and reset (10_state.md R22, R37; 40_bitchannel.md R109): what a step does in each case of the decoder, the
values that reset leaves, and that they meet the invariant.
-/

namespace Sys2Proof.Machine

/-! The step -/

theorem State.advance_eq (s : State) : s.advance = { s with pc := if s.status.fault then s.pc else s.pc + 1 } := by
  unfold State.advance
  split <;> rfl

theorem step_instr {s t : State} {i : Instr} {rest : List Word} (hd : decode s.queue = .instr i rest)
    (h : exec i (s.withQueue rest) = .next t) : step s = .next t.advance := by
  simp only [step, hd, h]

theorem step_illegal {s : State} {why : Illegal} {opc : BitVec 8} {rest : List Word}
    (hd : decode s.queue = .illegal why opc rest) :
    step s = .next ((s.withQueue rest).raiseFault .illegalCommand opc) := by
  simp only [step, hd]

theorem step_incomplete {s : State} (hd : decode s.queue = .incomplete) : step s = .next s := by
  simp only [step, hd]

/-- Everything a step can do: be idle, refuse an illegal command, or run the decoded one. -/
theorem step_cases {s t : State} (h : step s = .next t) :
    (decode s.queue = .incomplete ∧ t = s) ∨
    (∃ why opc rest, decode s.queue = .illegal why opc rest ∧
      t = (s.withQueue rest).raiseFault .illegalCommand opc) ∨
    ∃ i rest u, decode s.queue = .instr i rest ∧ exec i (s.withQueue rest) = .next u ∧ t = u.advance := by
  cases hd : decode s.queue with
  | incomplete =>
    rw [step_incomplete hd] at h
    cases h
    exact .inl ⟨rfl, rfl⟩
  | illegal why opc rest =>
    rw [step_illegal hd] at h
    cases h
    exact .inr (.inl ⟨why, opc, rest, rfl, rfl⟩)
  | instr i rest =>
    obtain ⟨u, hu⟩ := exec_next i (s.withQueue rest)
    rw [step_instr hd hu] at h
    cases h
    exact .inr (.inr ⟨i, rest, u, rfl, hu, rfl⟩)

/-- Settles O6, from the equations of `step` in each case of the decoder. -/
theorem stepRunsDecodedCommand : Obligations.StepRunsDecodedCommand := by
  intro s
  refine ⟨fun i rest hd => ?_, step_incomplete⟩
  obtain ⟨t, ht⟩ := exec_next i (s.withQueue rest)
  exact ⟨t, ht, by rw [step_instr hd ht, State.advance_eq]⟩

/-! Reset -/

theorem exec_reset (s : State) : exec .reset s = .next s.resetEngine := rfl

theorem State.resetWith_resetValues (p : Params) : (State.resetWith p).ResetValues := by
  constructor
  case prevMv => exact fun k => Vector.getElem_replicate k.isLt
  case stale => exact fun k => Vector.getElem_replicate k.isLt
  case res => exact fun j => Vector.getElem_replicate j.isLt
  all_goals rfl

/-- RESET leaves the items of the engine as hardware reset does. -/
theorem State.resetEngine_resetValues (s : State) : s.resetEngine.ResetValues := by
  obtain ⟨h1, h2, h3, h4, h5, h6, h7, h8, h9, h10, h11, h12, h13, h14⟩ := State.resetWith_resetValues s.par
  exact ⟨h1, h2, h3, h4, h5, h6, h7, h8, h9, h10, h11, h12, h13, h14⟩

/-- Settles O11, by the reset values of both ways into the reset state. -/
theorem resetLeavesStatedValues : Obligations.ResetLeavesStatedValues :=
  ⟨State.resetWith_resetValues refCfg, fun s => ⟨_, exec_reset s, s.resetEngine_resetValues, rfl, rfl, rfl⟩⟩

theorem State.motionInv_of_zero {s : State} (h : ∀ k : Fin 396, s.prevMv[k] = ⟨0, 0⟩) : s.MotionInv := by
  intro m hm
  obtain ⟨k, hk, rfl⟩ := List.getElem_of_mem hm
  have hz : s.prevMv.toList[k] = ⟨0, 0⟩ := by simpa using h ⟨k, by simpa using hk⟩
  rw [hz]
  decide

/-- The reset values meet the invariant, whatever legal contents the host's memories and the parameters have. -/
theorem State.ResetValues.inv {s : State} (h : s.ResetValues) (hsrc : 8 * s.src.length < 2 ^ 64) (hmem : s.MemoryInv)
    (hpar : s.par.wf = true) : s.Inv where
  write := by simp [State.WriteInv, h.sink, h.wpend, h.wpos]
  read := ⟨hsrc, by simp [h.rpos]⟩
  status := by simp [State.StatusInv, h.status, Status.clear]
  config := by rw [State.ConfigInv, h.cfg, h.planeW, h.planeH]; decide
  framing := by simp [State.FramingInv, h.mbaddr]
  motion := State.motionInv_of_zero h.prevMv
  memory := hmem
  params := hpar

theorem State.resetWith_inv {p : Params} (hp : p.wf = true) : (State.resetWith p).Inv :=
  (State.resetWith_resetValues p).inv (by simp [State.resetWith]) ⟨rfl, rfl⟩ hp

theorem refCfg_wf : refCfg.wf = true := by decide +kernel

theorem buildEngine_eq_some {p : Params} {s : State} (h : buildEngine p = some s) :
    p.wf = true ∧ s = State.resetWith p := by
  unfold buildEngine at h
  split at h
  · cases h
    exact ⟨‹_›, rfl⟩
  · cases h

theorem buildEngine_of_wf {p : Params} (hp : p.wf = true) : buildEngine p = some (State.resetWith p) := if_pos hp

theorem buildEngine_of_not_wf {p : Params} (hp : ¬ p.wf = true) : buildEngine p = none := if_neg hp

/-- Settles O9: the reset values meet the invariant, and parameters that fail a check are refused. -/
theorem invariantHoldsAtReset : Obligations.InvariantHoldsAtReset := by
  refine ⟨State.resetWith_inv refCfg_wf, buildEngine_of_wf refCfg_wf, fun p s h => ?_, fun p hz => ?_,
    fun p tbl e he f hf hne hpre => ?_⟩
  · obtain ⟨hp, rfl⟩ := buildEngine_eq_some h
    exact ⟨rfl, State.resetWith_resetValues p, State.resetWith_inv hp⟩
  · exact buildEngine_of_not_wf (fun hp => hz (scan_perm hp))
  · exact buildEngine_of_not_wf (fun hp => hne (vlcOk_unique (vlcOk_tableOf hp tbl) he hf (.inr hpre)))

end Sys2Proof.Machine
end

section
/-!
What a command leaves alone (10_state.md R21 to R34, R38; 20_memory.md R50, R57): parts of the state outside `STATUS`
and the bit channels, each unchanged by the commands whose rules do not name it.
-/

namespace Sys2Proof.Machine

/-- `f` is a part of the state outside `STATUS` and the two bit channels. -/
def OutsideChannels {α : Type} (f : State → α) : Prop :=
  ∀ (s : State) (u : Status) (a : List Byte) (b : List Bool) (c : BitVec 64) (d : List Bool) (r : BitVec 64),
    f { s with status := u, sink := a, wpend := b, wpos := c, sinkScript := d, rpos := r } = f s

/-- `exec_keeps` for such a part: it stays as it is if every named change that the command makes leaves it. A change
that leaves it by definition needs no proof. -/
theorem exec_same {α : Type} (f : State → α) {i : Instr} (hi : i ≠ .reset) {s t : State} (h : exec i s = .next t)
    (hf : OutsideChannels f := by intro _ _ _ _ _ _ _; rfl)
    (hres : ∀ j ∈ resultsOf i, ∀ v s, f (s.setRes j v) = f s := by intros; rfl)
    (hblk : ∀ b, blockOf i = some b → ∀ v s, f (s.setBlock b v) = f s := by intros; rfl)
    (hcsr : i.opcode = .csrw → (∀ v s, f { s with cfg := v } = f s) ∧ (∀ v s, f { s with planeW := v } = f s) ∧
      ∀ v s, f { s with planeH := v } = f s := by exact fun _ => ⟨fun _ _ => rfl, fun _ _ => rfl, fun _ _ => rfl⟩)
    (hhdr : i.opcode ∈ [Opcode.putgob, .getgob, .putmb, .getmb] → ∀ mv a s, f (s.afterHeader mv a) = f s :=
      by intros; rfl)
    (hsc : i.opcode ∈ [Opcode.getsc, .getmb] → ∀ b s, f { s with scseen := b } = f s := by intros; rfl)
    (hrec : i.opcode = .memtype → ∀ mb d s, f (s.recordDecision mb d) = f s := by intros; rfl)
    (hclr : i.opcode = .meclr → ∀ s, f s.clearMotion = f s := by intros; rfl)
    (hresp : i.opcode = .blkrd → ∀ w s, f { s with resp := w } = f s := by intros; rfl) : f t = f s :=
  exec_keeps (Composes.same f) (raiseFault_same f (fun u s => hf s u s.sink s.wpend s.wpos s.sinkScript s.rpos)) hi
    (fun _ => putbit_same f (fun s a b c d => hf s s.status a b c d s.rpos))
    (fun _ => getbits_same f (fun s r => hf s s.status s.sink s.wpend s.wpos s.sinkScript r))
    hres hblk hcsr hhdr hsc hrec hclr hresp h

/-- Settles O56: every named change but a write to a result register of the list leaves register `j`. -/
theorem otherResultsUnchanged : Obligations.OtherResultsUnchanged := by
  intro i s t j h hj
  have hi : i ≠ .reset := by
    rintro rfl
    revert j
    decide
  have hres : ∀ k ∈ resultsOf i, ∀ (v : Word) (s : State), (s.setRes k v).res[j] = s.res[j] := by
    intro k hk v s
    exact Vector.getElem_set_ne k.isLt j.isLt (fun e => hj (Fin.ext e ▸ hk))
  exact exec_same (fun s => s.res[j]) hi h (hres := hres)

/-- Settles O57: every named change but a write to the destination leaves block register `b`. -/
theorem otherBlocksUnchanged : Obligations.OtherBlocksUnchanged := by
  intro i s t b hi h hb
  have hblk : ∀ c, blockOf i = some c → ∀ (v : Block) (s : State), (s.setBlock c v).blk[b] = s.blk[b] := by
    intro c hc v s
    exact s.setBlock_block_other c b v (fun e => hb (e ▸ hc))
  exact exec_same (fun s => s.blk[b]) hi h (hblk := hblk)

/-! Control registers, framing state and the estimator's memories -/

section Control

variable {i : Instr} {s t : State} (hi : i ≠ .reset) (h : exec i s = .next t)

include hi h

theorem exec_config_same (hop : i.opcode ≠ .csrw) : t.cfg = s.cfg ∧ t.planeW = s.planeW ∧ t.planeH = s.planeH := by
  simpa using exec_same (fun s => (s.cfg, s.planeW, s.planeH)) hi h (hcsr := fun e => absurd e hop)

theorem exec_framing_same (hop : i.opcode ∉ [Opcode.putgob, .getgob, .putmb, .getmb]) :
    t.lastMv = s.lastMv ∧ t.mbaddr = s.mbaddr := by
  simpa using exec_same (fun s => (s.lastMv, s.mbaddr)) hi h (hhdr := fun e => absurd e hop)

theorem exec_scseen_same (hop : i.opcode ∉ [Opcode.getsc, .getmb]) : t.scseen = s.scseen :=
  exec_same State.scseen hi h (hsc := fun e => absurd e hop)

theorem exec_motion_same (hop : i.opcode ∉ [Opcode.memtype, .meclr]) : t.prevMv = s.prevMv ∧ t.stale = s.stale := by
  simpa using exec_same (fun s => (s.prevMv, s.stale)) hi h (hrec := fun e => absurd (by simp [e]) hop)
    (hclr := fun e => absurd (by simp [e]) hop)

end Control

/-- Settles O59, part by part. -/
theorem controlStateUnchanged : Obligations.ControlStateUnchanged := fun _ _ _ hi h =>
  ⟨exec_config_same hi h, exec_framing_same hi h, exec_scseen_same hi h, exec_motion_same hi h⟩

/-! The host's side -/

/-- No command changes the host's memories, the words issued, the index or the parameters, RESET included. -/
theorem exec_host_same {i : Instr} {s t : State} (h : exec i s = .next t) :
    t.cur = s.cur ∧ t.ref = s.ref ∧ t.src = s.src ∧ t.par = s.par ∧ t.queue = s.queue ∧ t.pc = s.pc := by
  by_cases hi : i = .reset
  · subst hi
    cases h
    exact ⟨rfl, rfl, rfl, rfl, rfl, rfl⟩
  · simpa using exec_same (fun s => (s.cur, s.ref, s.src, s.par, s.queue, s.pc)) hi h

theorem exec_resp_same {i : Instr} {s t : State} (h : exec i s = .next t) (hop : i.opcode ≠ .blkrd) :
    t.resp = s.resp := by
  by_cases hi : i = .reset
  · subst hi
    cases h
    rfl
  · exact exec_same State.resp hi h (hresp := fun e => absurd e hop)

/-- Settles O60: the planes stay as they are, so every byte of them reads as before. -/
theorem hostMemoriesUnchanged : Obligations.HostMemoriesUnchanged := by
  intro i s t h
  obtain ⟨hcur, href, hsrc, hpar, hqueue, hpc⟩ := exec_host_same h
  exact ⟨fun a => by rw [hcur, href]; exact ⟨rfl, rfl⟩, hcur, href, hsrc, hpar, hqueue, hpc, exec_resp_same h,
    fun hi => exec_same State.draws hi h⟩

end Sys2Proof.Machine
end

section
/-!
What a command does to `STATUS` (10_state.md R26; 60_exceptions.md R320 to R323): it leaves it, or takes one fault of
the causes listed for it.
-/

namespace Sys2Proof.Machine

/-! The causes that each body can raise (60_exceptions.md R322) -/

section Causes

variable {cs : List Cause}

theorem Raises.csrrBody (h : Cause.argumentError ∈ cs) (csr : Nat) : Raises cs (csrrBody csr) := by
  refine Raises.bind (Raises.look _) (fun o => ?_)
  split
  · exact Raises.raise h
  · exact Raises.change _

theorem Raises.csrwBody (h : Cause.argumentError ∈ cs) (csr : Nat) (v : BitVec 16) : Raises cs (csrwBody csr v) := by
  unfold Machine.csrwBody
  split
  · exact Raises.bind (Raises.raiseIf _ h) (fun _ => Raises.change _)
  · exact Raises.bind (Raises.raiseIf _ h) (fun _ => Raises.change _)
  · exact Raises.bind (Raises.raiseIf _ h) (fun _ => Raises.change _)
  · exact Raises.raise h

theorem Raises.bitposBody (side : Side) : Raises cs (bitposBody side) :=
  Raises.bind (Raises.look _) (fun _ => Raises.bind (Raises.change _) (fun _ => Raises.change _))

theorem Raises.wrbitsBody (h1 : Cause.argumentError ∈ cs) (h2 : Cause.sinkIoError ∈ cs) (n : Nat) (v : Word) :
    Raises cs (wrbitsBody n v) := Raises.bind (Raises.raiseIf _ h1) (fun _ => Raises.putbits h2 _ _)

theorem Raises.rdbitsBody (h1 : Cause.argumentError ∈ cs) (h2 : Cause.unexpectedEof ∈ cs) (n : Nat) :
    Raises cs (rdbitsBody n) :=
  Raises.bind (Raises.raiseIf _ h1) (fun _ => Raises.bind (Raises.getbits h2 _) (fun _ => Raises.change _))

theorem Raises.fdctBody (bd bs : Fin 8) : Raises cs (fdctBody bd bs) :=
  Raises.bind (Raises.look _) (fun _ => Raises.bind (Raises.look _) (fun _ => Raises.change _))

theorem Raises.idctBody (bd bs : Fin 8) : Raises cs (idctBody bd bs) :=
  Raises.bind (Raises.look _) (fun _ => Raises.bind (Raises.look _) (fun _ => Raises.change _))

theorem Raises.quantBody (h : Cause.argumentError ∈ cs) (b : Fin 8) (i : Coding) (q : Nat) :
    Raises cs (quantBody b i q) :=
  Raises.bind (Raises.raiseIf _ h) (fun _ => Raises.bind (Raises.look _) (fun _ => Raises.bind (Raises.look _)
    (fun _ => Raises.bind (Raises.change _) (fun _ => Raises.change _))))

theorem Raises.dequantBody (h : Cause.argumentError ∈ cs) (b : Fin 8) (i : Coding) (q : Nat) :
    Raises cs (dequantBody b i q) :=
  Raises.bind (Raises.raiseIf _ h) (fun _ => Raises.bind (Raises.look _) (fun _ => Raises.bind (Raises.look _)
    (fun _ => Raises.change _)))

theorem Raises.encblkBody (h1 : Cause.unencodableSymbol ∈ cs) (h2 : Cause.sinkIoError ∈ cs) (b : Fin 8)
    (i : Coding) : Raises cs (encblkBody b i) :=
  Raises.bind (Raises.look _) (fun _ => Raises.bind (Raises.raiseIf _ h1) (fun _ => Raises.bind (Raises.look _)
    (fun _ => Raises.putcode h2 _)))

theorem Raises.decblkBody (h1 : Cause.unexpectedEof ∈ cs) (h2 : Cause.corruptHuffmanCode ∈ cs) (b : Fin 8)
    (i : Coding) : Raises cs (decblkBody b i) := by
  have hloop := Raises.decLoop h1 h2
  refine Raises.bind (Raises.look _) (fun p => ?_)
  cases i with
  | inter => exact Raises.bind (hloop _ _ _ _ _) (fun _ => Raises.change _)
  | intra => exact Raises.bind (Raises.getbits h1 8) (fun _ => Raises.bind (hloop _ _ _ _ _) (fun _ => Raises.change _))

theorem Raises.vlcencBody (h1 : Cause.unencodableSymbol ∈ cs) (h2 : Cause.sinkIoError ∈ cs) (tbl : TableId)
    (x : Nat) : Raises cs (vlcencBody tbl x) := Raises.bind (Raises.look _) (fun _ => Raises.vlcEnc h1 h2 _ _)

theorem Raises.vlcdecBody (h1 : Cause.unexpectedEof ∈ cs) (h2 : Cause.corruptHuffmanCode ∈ cs) (tbl : TableId) :
    Raises cs (vlcdecBody tbl) :=
  Raises.bind (Raises.look _) (fun _ => Raises.bind (Raises.vlcDec h1 h2 _) (fun _ => Raises.change _))

theorem Raises.meaeBody (h1 : Cause.argumentError ∈ cs) (h2 : Cause.boundsError ∈ cs) (mbx mby : Nat)
    (dx dy : Int) : Raises cs (meaeBody mbx mby dx dy) :=
  Raises.bind (Raises.checkMacroblock h1 h2 _ _) (fun _ => Raises.bind (Raises.look _) (fun _ =>
    Raises.bind (Raises.raiseIf _ h2) (fun _ => Raises.change _)))

theorem Raises.mesearchBody (h1 : Cause.argumentError ∈ cs) (h2 : Cause.boundsError ∈ cs) (mbx mby : Nat) :
    Raises cs (mesearchBody mbx mby) :=
  Raises.bind (Raises.checkMacroblock h1 h2 _ _) (fun _ => Raises.bind (Raises.look _) (fun _ =>
    Raises.bind (Raises.change _) (fun _ => Raises.bind (Raises.change _) (fun _ => Raises.change _))))

theorem Raises.memtypeBody (h1 : Cause.argumentError ∈ cs) (h2 : Cause.boundsError ∈ cs) (mbx mby : Nat) :
    Raises cs (memtypeBody mbx mby) :=
  Raises.bind (Raises.checkMacroblock h1 h2 _ _) (fun _ => Raises.bind (Raises.look _) (fun _ =>
    Raises.bind (Raises.change _) (fun _ => Raises.bind (Raises.change _) (fun _ => Raises.bind (Raises.change _)
      (fun _ => Raises.bind (Raises.change _) (fun _ => Raises.change _))))))

theorem Raises.putpicBody (h : Cause.sinkIoError ∈ cs) (tr : Nat) (pt : BitVec 6) (e : Bool) (x : Byte) :
    Raises cs (putpicBody tr pt e x) := by
  have hp := Raises.putbits h
  exact Raises.bind (Raises.look _) (fun _ => Raises.bind (hp _ _) (fun _ => Raises.bind (hp _ _) (fun _ =>
    Raises.bind (hp _ _) (fun _ => Raises.putTail h _ _))))

theorem Raises.putgobBody (h1 : Cause.boundsError ∈ cs) (h2 : Cause.argumentError ∈ cs)
    (h3 : Cause.sinkIoError ∈ cs) (gn gq : Nat) (e : Bool) (x : Byte) : Raises cs (putgobBody gn gq e x) := by
  have hp := Raises.putbits h3
  exact Raises.bind (Raises.raiseIf _ h1) (fun _ => Raises.bind (Raises.raiseIf _ h2) (fun _ =>
    Raises.bind (Raises.look _) (fun _ => Raises.bind (hp _ _) (fun _ => Raises.bind (hp _ _) (fun _ =>
      Raises.bind (hp _ _) (fun _ => Raises.bind (Raises.putTail h3 _ _) (fun _ => Raises.change _)))))))

theorem Raises.putmbCheck (h : [Cause.headerFramingError, .boundsError, .argumentError, .unencodableSymbol] ⊆ cs)
    (mba mtype mquant : Nat) (mvh mvv : Int) (cbp : Nat) :
    Raises cs (putmbCheck mba mtype mquant mvh mvv cbp) := fun _ _ _ e => h (putmbCheck_error e).2

theorem Raises.putmbBody (h1 : [Cause.headerFramingError, .boundsError, .argumentError, .unencodableSymbol] ⊆ cs)
    (h2 : Cause.sinkIoError ∈ cs) (mba mtype mquant : Nat) (mvh mvv : Int) (cbp : Nat) :
    Raises cs (putmbBody mba mtype mquant mvh mvv cbp) :=
  Raises.bind (Raises.putmbCheck h1 _ _ _ _ _ _) (fun _ => Raises.bind (Raises.look _) (fun _ =>
    Raises.bind (Raises.look _) (fun _ => Raises.bind (Raises.look _) (fun _ =>
      Raises.bind (Raises.putHeader (h1 (by decide)) h2 _ _ _ _ _ _ _) (fun _ => Raises.change _)))))

theorem Raises.getscBody (h1 : Cause.headerFramingError ∈ cs) (h2 : Cause.boundsError ∈ cs)
    (h3 : Cause.unexpectedEof ∈ cs) : Raises cs getscBody := by
  have hg := Raises.getbits h3
  have hgn := Raises.bind (Raises.change (fun s => { s with scseen := false })) (fun _ => Raises.bind (hg 4)
    (fun g => Raises.bind (Raises.raiseIf (g > 12) h2) (fun _ => Raises.change (fun s => s.setRes 0 (BitVec.ofNat 32 g)))))
  exact Raises.bind (Raises.look _) (fun _ => Raises.ite hgn (Raises.bind (Raises.look _) (fun _ =>
    Raises.bind (hg 16) (fun _ => Raises.bind (Raises.raiseIf _ h1) (fun _ => hgn)))))

theorem Raises.getpicBody (h : Cause.unexpectedEof ∈ cs) : Raises cs getpicBody :=
  Raises.bind (Raises.getbits h 5) (fun _ => Raises.bind (Raises.getbits h 6) (fun _ => Raises.bind (Raises.look _)
    (fun _ => Raises.bind (Raises.getTail h _ _) (fun _ => Raises.bind (Raises.change _) (fun _ =>
      Raises.bind (Raises.change _) (fun _ => Raises.change _))))))

theorem Raises.getgobBody (h : Cause.unexpectedEof ∈ cs) : Raises cs getgobBody :=
  Raises.bind (Raises.getbits h 5) (fun _ => Raises.bind (Raises.look _) (fun _ => Raises.bind (Raises.getTail h _ _)
    (fun _ => Raises.bind (Raises.change _) (fun _ => Raises.bind (Raises.change _) (fun _ => Raises.change _)))))

theorem Raises.getmbStart : Raises cs getmbStart :=
  Raises.bind (Raises.change _) (fun _ => Raises.bind (Raises.change _) (fun _ => Raises.bind (Raises.change _)
    (fun _ => Raises.bind (Raises.change _) (fun _ => Raises.change _))))

theorem Raises.getmbBody (h1 : Cause.unexpectedEof ∈ cs) (h2 : Cause.corruptHuffmanCode ∈ cs)
    (h3 : Cause.boundsError ∈ cs) : Raises cs getmbBody :=
  Raises.bind (Raises.look _) (fun _ => Raises.bind (Raises.look _) (fun _ =>
    Raises.bind (Raises.skipStuffing h1 h2 _ _) (fun _ => Raises.ite Raises.getmbStart
      (Raises.bind (Raises.look _) (fun _ => Raises.bind (Raises.raiseIf _ h3) (fun _ => Raises.bind (Raises.look _)
        (fun _ => Raises.bind (Raises.readHeader h1 h2 _ _) (fun _ => Raises.bind (Raises.change _) (fun _ =>
          Raises.bind (Raises.change _) (fun _ => Raises.bind (Raises.change _) (fun _ =>
            Raises.bind (Raises.change _) (fun _ => Raises.change _))))))))))))

end Causes

/-! The fault that a command takes -/

/-- Every run of a computation leaves `STATUS`: only the command that runs it writes a fault there. -/
abbrev KeepsStatus {α : Type} (x : M α) : Prop := Keeps (fun s t => t.status = s.status) x

theorem composes_status : Composes (fun s t : State => t.status = s.status) := Composes.same State.status

theorem putbit_keepsStatus (b : Bool) : KeepsStatus (putbit b) := putbit_same State.status (fun _ _ _ _ _ => rfl) b

theorem getbits_keepsStatus (n : Nat) : KeepsStatus (getbits n) := getbits_same State.status (fun _ _ => rfl) n

/-- `gated_fault`, with the two ways a body can end in one hypothesis. -/
theorem gated_fault_listed {cs : List Cause} {op : Opcode} {body : M Unit} {s t : State} (hf : s.status.fault = false)
    (ht : t.status.fault = true) (h : gated op body s = .next t) (hb : Raises cs body) (hk : KeepsStatus body) :
    t.status.cause ∈ cs ∧ t.status.fop = op.code := by
  have hend : ∀ s r, body s = r → (endState r).status = s.status := fun s r e => e ▸ hk s
  exact gated_fault hb (fun s _ e => hend s _ e) (fun s _ _ e => hend s _ e) hf h ht

/-- In the unfaulted state gating makes no difference. -/
theorem gated_of_ungated {op : Opcode} {body : M Unit} {s t : State} (hf : s.status.fault = false)
    (h : ungated op body s = .next t) : gated op body s = .next t := by
  simpa [gated, ungated, hf] using h

/-- A command that faults records its own opcode and a cause listed for it (60_exceptions.md R322, R320(c)). -/
theorem exec_fault_listed {i : Instr} {s t : State} (hf : s.status.fault = false) (h : exec i s = .next t)
    (ht : t.status.fault = true) : t.status.cause ∈ causesOf i ∧ t.status.fop = i.opcode.code := by
  have hP := composes_status
  have hput := putbit_keepsStatus
  have hget := getbits_keepsStatus
  have hchange : ∀ f : State → State, (∀ s, (f s).status = s.status) → KeepsStatus (M.change f) := fun _ hs => hs
  have hres : ∀ js, WritesRes (fun s t : State => t.status = s.status) js := fun _ _ _ _ _ => rfl
  have hblk : ∀ (b : Fin 8) v (s : State), (s.setBlock b v).status = s.status := fun _ _ _ => rfl
  have hhdr : ∀ mv a (s : State), (s.afterHeader mv a).status = s.status := fun _ _ _ => rfl
  have fault : ∀ {op : Opcode} {body : M Unit}, gated op body s = .next t → Raises (causesOf i) body →
      KeepsStatus body → t.status.cause ∈ causesOf i ∧ t.status.fop = op.code := gated_fault_listed hf ht
  cases i with
  | nop => exact fault h (Raises.pure ()) (Keeps.pure hP ())
  | reset => cases h; cases ht
  | csrr csr =>
    exact fault (gated_of_ungated hf h) (Raises.csrrBody (by simp [causesOf]) csr) (Keeps.of_csrrBody hP (hres _) csr)
  | csrw csr v =>
    exact fault h (Raises.csrwBody (by simp [causesOf]) csr v)
      (Keeps.of_csrwBody hP (fun _ _ => rfl) (fun _ _ => rfl) (fun _ _ => rfl) csr v)
  | blkwr b v => exact fault h (Raises.change _) (hchange _ (fun _ => rfl))
  | blkrd b => exact fault h (Raises.change _) (hchange _ (fun _ => rfl))
  | wrbits n v =>
    exact fault h (Raises.wrbitsBody (by simp [causesOf]) (by simp [causesOf]) n v) (Keeps.of_wrbitsBody hP hput n v)
  | rdbits n =>
    exact fault h (Raises.rdbitsBody (by simp [causesOf]) (by simp [causesOf]) n) (Keeps.of_rdbitsBody hP hget (hres _) n)
  | bitpos side => exact fault h (Raises.bitposBody side) (Keeps.of_bitposBody hP (hres _) side)
  | atend => exact fault h (Raises.change _) (hchange _ (fun _ => rfl))
  | flush => exact fault h (Raises.flushLoop (by decide) 8) (Keeps.of_flushLoop hP hput 8)
  | fdct bd bs => exact fault h (Raises.fdctBody bd bs) (Keeps.of_fdctBody hP bd bs (hblk bd))
  | idct bd bs => exact fault h (Raises.idctBody bd bs) (Keeps.of_idctBody hP bd bs (hblk bd))
  | quant b c q =>
    exact fault h (Raises.quantBody (by simp [causesOf]) b c q) (Keeps.of_quantBody hP b (hblk b) (hres _) c q)
  | dequant b c q =>
    exact fault h (Raises.dequantBody (by simp [causesOf]) b c q) (Keeps.of_dequantBody hP b (hblk b) c q)
  | encblk b c =>
    exact fault h (Raises.encblkBody (by simp [causesOf]) (by simp [causesOf]) b c) (Keeps.of_encblkBody hP hput b c)
  | decblk b c =>
    exact fault h (Raises.decblkBody (by simp [causesOf]) (by simp [causesOf]) b c)
      (Keeps.of_decblkBody hP hget b (hblk b) c)
  | vlcenc tbl x =>
    exact fault h (Raises.vlcencBody (by simp [causesOf]) (by simp [causesOf]) tbl x) (Keeps.of_vlcencBody hP hput tbl x)
  | vlcdec tbl =>
    exact fault h (Raises.vlcdecBody (by simp [causesOf]) (by simp [causesOf]) tbl)
      (Keeps.of_vlcdecBody hP hget (hres _) tbl)
  | meae mbx mby dx dy =>
    exact fault h (Raises.meaeBody (by simp [causesOf]) (by simp [causesOf]) mbx mby dx dy)
      (Keeps.of_meaeBody hP (hres _) mbx mby dx dy)
  | mesearch mbx mby =>
    exact fault h (Raises.mesearchBody (by simp [causesOf]) (by simp [causesOf]) mbx mby)
      (Keeps.of_mesearchBody hP (hres _) mbx mby)
  | memtype mbx mby =>
    exact fault h (Raises.memtypeBody (by simp [causesOf]) (by simp [causesOf]) mbx mby)
      (Keeps.of_memtypeBody hP (hres _) (fun _ _ _ => rfl) mbx mby)
  | meclr => exact fault h (Raises.change _) (hchange _ (fun _ => rfl))
  | putpic tr pt e x =>
    exact fault h (Raises.putpicBody (by simp [causesOf]) tr pt e x) (Keeps.of_putpicBody hP hput tr pt e x)
  | putgob gn gq e x =>
    exact fault h (Raises.putgobBody (by simp [causesOf]) (by simp [causesOf]) (by simp [causesOf]) gn gq e x)
      (Keeps.of_putgobBody hP hput hhdr gn gq e x)
  | putmb mba mtype mquant mvh mvv cbp =>
    exact fault h (Raises.putmbBody (by simp [causesOf]) (by simp [causesOf]) mba mtype mquant mvh mvv cbp)
      (Keeps.of_putmbBody hP hput hhdr mba mtype mquant mvh mvv cbp)
  | getsc =>
    exact fault h (Raises.getscBody (by decide) (by decide) (by decide))
      (Keeps.of_getscBody hP hget (hres _) (fun _ => rfl))
  | getpic => exact fault h (Raises.getpicBody (by decide)) (Keeps.of_getpicBody hP hget (hres _))
  | getgob => exact fault h (Raises.getgobBody (by decide)) (Keeps.of_getgobBody hP hget (hres _) hhdr)
  | getmb =>
    exact fault h (Raises.getmbBody (by decide) (by decide) (by decide))
      (Keeps.of_getmbBody hP hget (hres _) (fun _ => rfl) hhdr)

/-- From the faulted state, or into the unfaulted one, `STATUS` stays as it is. -/
abbrev StatusStays (s t : State) : Prop := (s.status.fault = true ∨ t.status.fault = false) → t.status = s.status

theorem composes_statusStays : Composes StatusStays := by
  refine ⟨fun _ _ => rfl, fun s t u hst htu h => ?_⟩
  rcases h with hs | hu
  · have h1 := hst (.inl hs)
    exact (htu (.inl (h1 ▸ hs))).trans h1
  · have h2 := htu (.inr hu)
    exact h2.trans (hst (.inr (h2 ▸ hu)))

theorem raiseFault_statusStays (c : Cause) (o : BitVec 8) (s : State) : StatusStays s (s.raiseFault c o) := by
  intro h
  rw [State.raiseFault_status] at h ⊢
  cases hs : s.status.fault <;> simp [hs] at h ⊢

/-- A fault is sticky: no command but RESET leaves it, and none replaces it (10_state.md R26). -/
theorem exec_statusStays {i : Instr} (hi : i ≠ .reset) {s t : State} (h : exec i s = .next t) : StatusStays s t := by
  have of_same : ∀ {s t : State}, t.status = s.status → StatusStays s t := fun e _ => e
  exact exec_keeps composes_statusStays raiseFault_statusStays hi
    (fun _ b s => of_same (putbit_keepsStatus b s)) (fun _ n s => of_same (getbits_keepsStatus n s))
    (fun _ _ _ _ => of_same rfl) (fun _ _ _ _ => of_same rfl)
    (fun _ => ⟨fun _ _ => of_same rfl, fun _ _ => of_same rfl, fun _ _ => of_same rfl⟩)
    (fun _ _ _ _ => of_same rfl) (fun _ _ _ => of_same rfl) (fun _ _ _ _ => of_same rfl) (fun _ _ => of_same rfl)
    (fun _ _ _ => of_same rfl) h

/-- A command but RESET leaves `STATUS`, or takes a fault of its own causes in the unfaulted state. -/
theorem exec_status_cases {i : Instr} (hi : i ≠ .reset) {s t : State} (h : exec i s = .next t) :
    t.status = s.status ∨ (t.status.fault = true ∧ t.status.cause ∈ causesOf i) := by
  by_cases hst : s.status.fault = true ∨ t.status.fault = false
  · exact .inl (exec_statusStays hi h hst)
  · obtain ⟨hs, ht⟩ : s.status.fault = false ∧ t.status.fault = true := by simpa using hst
    exact .inr ⟨ht, (exec_fault_listed hs h ht).1⟩

end Sys2Proof.Machine
end

section
/-!
The invariant of a good state (10_state.md R26 to R34) is kept by every step: one lemma for each of its clauses, over
all commands, and then the step.
-/

namespace Sys2Proof.Machine

/-- What holds of the state before holds of the state after. -/
abbrev Preserves (Q : State → Prop) (s t : State) : Prop := Q s → Q t

theorem composes_preserves (Q : State → Prop) : Composes (Preserves Q) := ⟨fun _ h => h, fun _ _ _ f g h => g (f h)⟩

theorem raiseFault_preserves {Q : State → Prop} (h : ∀ (u : Status) (s : State), Q s → Q { s with status := u })
    (c : Cause) (o : BitVec 8) (s : State) : Preserves Q s (s.raiseFault c o) := by
  unfold State.raiseFault
  split
  · exact id
  · exact h _ s

/-! The bit channels (10_state.md R31, R32) -/

theorem State.written_length (s : State) : s.written.length = 8 * s.sink.length + s.wpend.length := by
  simp [State.written, Nat.mul_comm]

theorem Appended.writeInv {s t : State} {bs : List Bool} (h : Appended s bs t) (hs : s.WriteInv) : t.WriteInv := by
  refine ⟨h.pending, ?_⟩
  rw [h.position, hs.2, ← State.written_length, ← State.written_length, h.written, List.length_append,
    BitVec.ofNat_add]

/-- Both sides of the bit channel are in order. -/
abbrev State.ChannelInv (s : State) : Prop := s.WriteInv ∧ s.ReadInv

theorem putbit_keeps_channelInv (b : Bool) : Keeps (Preserves State.ChannelInv) (putbit b) := by
  intro s ⟨hw, hr⟩
  by_cases h : s.wpend.length = 7 ∧ s.sinkScript.head? = some true
  · rw [putbit_fail b s h.1 h.2]
    exact ⟨hw, hr⟩
  · obtain ⟨t, ht, ha⟩ := putbit_places b s hw.1 (fun h7 hh => h ⟨h7, hh⟩)
    rw [ht]
    refine ⟨ha.writeInv hw, ?_⟩
    rw [ha.frame]
    exact hr

theorem getbits_keeps_channelInv (n : Nat) : Keeps (Preserves State.ChannelInv) (getbits n) := by
  intro s ⟨hw, h8, hr⟩
  unfold getbits
  split
  · exact ⟨hw, h8, hr⟩
  · have hle : s.rpos.toNat + n ≤ 8 * s.src.length := by omega
    exact ⟨hw, h8, (s.consumed_toNat n h8 hle).trans_le hle⟩

theorem exec_channelInv {i : Instr} (hi : i ≠ .reset) {s t : State} (h : exec i s = .next t) (hs : s.ChannelInv) :
    t.ChannelInv :=
  exec_keeps (composes_preserves State.ChannelInv) (raiseFault_preserves (fun _ _ => id)) hi
    (fun _ => putbit_keeps_channelInv) (fun _ => getbits_keeps_channelInv) (fun _ _ _ _ => id) (fun _ _ _ _ => id)
    (fun _ => ⟨fun _ _ => id, fun _ _ => id, fun _ _ => id⟩) (fun _ _ _ _ => id) (fun _ _ _ => id)
    (fun _ _ _ _ => id) (fun _ _ => id) (fun _ _ _ => id) h hs

/-! `STATUS` (10_state.md R26) -/

/-- The causes that are never raised, and the absent one, are in no command's list (60_exceptions.md R329, R330). -/
theorem causesOf_raisable (i : Instr) :
    Cause.none ∉ causesOf i ∧ Cause.memoryError ∉ causesOf i ∧ Cause.huffmanTableError ∉ causesOf i := by
  cases i <;> simp [causesOf]

theorem State.statusInv_of_fault {s : State} (hf : s.status.fault = true)
    (hc : s.status.cause ≠ .none ∧ s.status.cause ≠ .memoryError ∧ s.status.cause ≠ .huffmanTableError) :
    s.StatusInv := ⟨fun h => absurd hf (by simp [h]), fun _ => hc.1, hc.2⟩

theorem exec_statusInv {i : Instr} (hi : i ≠ .reset) {s t : State} (h : exec i s = .next t) (hs : s.StatusInv) :
    t.StatusInv := by
  rcases exec_status_cases hi h with he | ⟨hf, hc⟩
  · rw [State.StatusInv, he]
    exact hs
  · obtain ⟨h1, h2, h3⟩ := causesOf_raisable i
    exact State.statusInv_of_fault hf
      ⟨fun e => h1 (e ▸ hc), fun e => h2 (e ▸ hc), fun e => h3 (e ▸ hc)⟩

/-! `CFG` and the plane sizes (10_state.md R27, R28) -/

theorem csrwBody_keeps_configInv (csr : Nat) (v : BitVec 16) : Keeps (Preserves State.ConfigInv) (csrwBody csr v) := by
  have hP := composes_preserves State.ConfigInv
  unfold csrwBody
  split
  · exact Keeps.raiseIf_bind hP (fun hv => Keeps.change (fun s ⟨_, hw, hh⟩ => ⟨by simpa using hv, hw, hh⟩))
  · exact Keeps.raiseIf_bind hP (fun hv => Keeps.change (fun s ⟨hc, _, hh⟩ => ⟨hc, by simpa using hv, hh⟩))
  · exact Keeps.raiseIf_bind hP (fun hv => Keeps.change (fun s ⟨hc, hw, _⟩ => ⟨hc, hw, by simpa using hv⟩))
  · exact Keeps.raise hP _

theorem exec_configInv {i : Instr} (hi : i ≠ .reset) {s t : State} (h : exec i s = .next t) (hs : s.ConfigInv) :
    t.ConfigInv := by
  have hother : i.opcode ≠ .csrw → t.ConfigInv := by
    intro hop
    obtain ⟨hc, hw, hh⟩ := exec_config_same hi h hop
    rw [State.ConfigInv, hc, hw, hh]
    exact hs
  cases i with
  | csrw csr v =>
    exact gated_keeps (composes_preserves State.ConfigInv) (raiseFault_preserves (fun _ _ => id))
      (csrwBody_keeps_configInv csr v) h hs
  | _ => exact hother (by simp [Instr.opcode])

/-! `MBADDR` (10_state.md R30) -/

theorem composes_framing : Composes (Preserves State.FramingInv) := composes_preserves _

theorem afterHeader_framingInv (s : State) (mv : Mv5) {addr : Nat} (h : addr ≤ 33) :
    (s.afterHeader mv addr).FramingInv := by
  simp only [State.FramingInv, State.afterHeader, BitVec.toNat_ofNat]
  omega

theorem putbit_keeps_framingInv (b : Bool) : Keeps (Preserves State.FramingInv) (putbit b) := by
  intro s hs
  have h := putbit_same State.mbaddr (fun _ _ _ _ _ => rfl) b s
  rw [State.FramingInv, h]
  exact hs

theorem getbits_keeps_framingInv (n : Nat) : Keeps (Preserves State.FramingInv) (getbits n) := by
  intro s hs
  have h := getbits_same State.mbaddr (fun _ _ => rfl) n s
  rw [State.FramingInv, h]
  exact hs

theorem startGob_keeps_framingInv : Keeps (Preserves State.FramingInv) startGob :=
  fun s _ => afterHeader_framingInv s _ (by decide)

theorem putgobBody_keeps_framingInv (gn gq : Nat) (e : Bool) (x : Byte) :
    Keeps (Preserves State.FramingInv) (putgobBody gn gq e x) := by
  have hP := composes_framing
  have hp := Keeps.of_putbits hP putbit_keeps_framingInv
  exact Keeps.bind hP (Keeps.raiseIf hP _ _) (fun _ => Keeps.bind hP (Keeps.raiseIf hP _ _) (fun _ => Keeps.bind hP
    (Keeps.look hP _) (fun _ => Keeps.bind hP (hp _ _) (fun _ => Keeps.bind hP (hp _ _) (fun _ => Keeps.bind hP (hp _ _)
      (fun _ => Keeps.bind hP (Keeps.of_putTail hP putbit_keeps_framingInv _ _)
        (fun _ => startGob_keeps_framingInv)))))))

theorem getgobBody_keeps_framingInv : Keeps (Preserves State.FramingInv) getgobBody := by
  have hP := composes_framing
  have hr := fun j v => Keeps.change (P := Preserves State.FramingInv) (f := fun s => s.setRes j v) (fun _ => id)
  exact Keeps.bind hP (getbits_keeps_framingInv 5) (fun _ => Keeps.bind hP (Keeps.look hP _) (fun _ =>
    Keeps.bind hP (Keeps.of_getTail hP getbits_keeps_framingInv _ _) (fun _ =>
      Keeps.bind hP startGob_keeps_framingInv (fun _ => Keeps.bind hP (hr _ _) (fun _ => hr _ _)))))

/-- The address that PUTMB stores is the one its check has bounded. -/
theorem putmbBody_keeps_framingInv (mba mtype mquant : Nat) (mvh mvv : Int) (cbp : Nat) :
    Keeps (Preserves State.FramingInv) (putmbBody mba mtype mquant mvh mvv cbp) := by
  intro s
  refine endState_bind (fun c t e => ?_) (fun _ t e => ?_)
  · rw [(putmbCheck_error e).1]
    exact id
  · obtain ⟨rfl, haddr⟩ := putmbCheck_inv e
    exact Keeps.bind composes_framing (Keeps.of_putHeader composes_framing putbit_keeps_framingInv _ _ _ _ _ _ _)
      (fun _ => Keeps.change (fun u _ => afterHeader_framingInv u _ haddr)) t

/-- GETMB stores an address only after its bound is checked. -/
theorem getmbBody_keeps_framingInv : Keeps (Preserves State.FramingInv) getmbBody := by
  have hP := composes_framing
  have hr := fun j v => Keeps.change (P := Preserves State.FramingInv) (f := fun s => s.setRes j v) (fun _ => id)
  refine Keeps.bind hP (Keeps.look hP _) (fun p => Keeps.bind hP (Keeps.look hP _) (fun _ => Keeps.bind hP
    (Keeps.of_skipStuffing hP getbits_keeps_framingInv p _) (fun a => Keeps.ite ?_ ?_)))
  · exact Keeps.bind hP (Keeps.change (fun _ => id)) (fun _ => Keeps.bind hP (hr _ _) (fun _ => Keeps.bind hP (hr _ _)
      (fun _ => Keeps.bind hP (hr _ _) (fun _ => hr _ _))))
  · exact Keeps.bind hP (Keeps.look hP _) (fun addr => Keeps.raiseIf_bind hP (fun haddr => Keeps.bind hP
      (Keeps.look hP _) (fun _ => Keeps.bind hP (Keeps.of_readHeader hP getbits_keeps_framingInv _ _) (fun _ =>
        Keeps.bind hP (Keeps.change (fun u _ => afterHeader_framingInv u _ (Nat.le_of_not_gt haddr))) (fun _ =>
          Keeps.bind hP (hr _ _) (fun _ => Keeps.bind hP (hr _ _) (fun _ => Keeps.bind hP (hr _ _)
            (fun _ => hr _ _))))))))

theorem exec_framingInv {i : Instr} (hi : i ≠ .reset) {s t : State} (h : exec i s = .next t) (hs : s.FramingInv) :
    t.FramingInv := by
  have hother : i.opcode ∉ [Opcode.putgob, .getgob, .putmb, .getmb] → t.FramingInv := by
    intro hop
    rw [State.FramingInv, (exec_framing_same hi h hop).2]
    exact hs
  have hbody : ∀ {op : Opcode} {body : M Unit}, Keeps (Preserves State.FramingInv) body → gated op body s = .next t →
      t.FramingInv := fun hb h => gated_keeps composes_framing (raiseFault_preserves (fun _ _ => id)) hb h hs
  cases i with
  | putgob gn gq e x => exact hbody (putgobBody_keeps_framingInv gn gq e x) h
  | putmb mba mtype mquant mvh mvv cbp => exact hbody (putmbBody_keeps_framingInv mba mtype mquant mvh mvv cbp) h
  | getgob => exact hbody getgobBody_keeps_framingInv h
  | getmb => exact hbody getmbBody_keeps_framingInv h
  | _ => exact hother (by simp [Instr.opcode])

/-! The stored vectors (10_state.md R34) -/

theorem recordDecision_motionInv {s : State} (hs : s.MotionInv) (mb : Nat) {d : MtypeDecision}
    (hd : |d.mv.h| ≤ 15 ∧ |d.mv.v| ≤ 15) : (s.recordDecision mb d).MotionInv := by
  intro m hm
  simp only [State.recordDecision, Vector.toList_setIfInBounds] at hm
  rcases List.mem_or_eq_of_mem_set hm with hm | rfl
  · exact hs m hm
  · obtain ⟨hh, hv⟩ := hd
    rw [abs_le] at hh hv
    exact ⟨hh.1, hh.2, hv.1, hv.2⟩

/-- MEMTYPE stores the vector of its decision, a valid candidate (45_motion.md R214). -/
theorem memtypeBody_keeps_motionInv (mbx mby : Nat) : Keeps (Preserves State.MotionInv) (memtypeBody mbx mby) := by
  intro s
  refine endState_bind (fun c t e => ?_) (fun _ t e => ?_)
  · rw [(checkMacroblock_error e).1]
    exact id
  · obtain ⟨rfl, hin⟩ := checkMacroblock_inv e
    obtain ⟨hh, hv, -⟩ := obtainMtype_valid hin
    exact fun hs => recordDecision_motionInv hs _ ⟨hh, hv⟩

theorem clearMotion_motionInv (s : State) : s.clearMotion.MotionInv :=
  State.motionInv_of_zero (fun k => Vector.getElem_replicate k.isLt)

theorem exec_motionInv {i : Instr} (hi : i ≠ .reset) {s t : State} (h : exec i s = .next t) (hs : s.MotionInv) :
    t.MotionInv := by
  have hother : i.opcode ∉ [Opcode.memtype, .meclr] → t.MotionInv := by
    intro hop
    rw [State.MotionInv, (exec_motion_same hi h hop).1]
    exact hs
  have hbody : ∀ {op : Opcode} {body : M Unit}, Keeps (Preserves State.MotionInv) body → gated op body s = .next t →
      t.MotionInv := fun hb h => gated_keeps (composes_preserves _) (raiseFault_preserves (fun _ _ => id)) hb h hs
  cases i with
  | memtype mbx mby => exact hbody (memtypeBody_keeps_motionInv mbx mby) h
  | meclr => exact hbody (Keeps.change (fun s _ => clearMotion_motionInv s)) h
  | _ => exact hother (by simp [Instr.opcode])

/-! The whole invariant -/

theorem State.Inv.resetEngine {s : State} (hs : s.Inv) : s.resetEngine.Inv :=
  s.resetEngine_resetValues.inv hs.read.1 hs.memory hs.params

/-- Every command keeps the invariant. -/
theorem exec_inv {i : Instr} {s t : State} (h : exec i s = .next t) (hs : s.Inv) : t.Inv := by
  by_cases hi : i = .reset
  · subst hi
    cases h
    exact hs.resetEngine
  · obtain ⟨hcur, href, -, hpar, -, -⟩ := exec_host_same h
    obtain ⟨hwrite, hread⟩ := exec_channelInv hi h ⟨hs.write, hs.read⟩
    exact {
      write := hwrite
      read := hread
      status := exec_statusInv hi h hs.status
      config := exec_configInv hi h hs.config
      framing := exec_framingInv hi h hs.framing
      motion := exec_motionInv hi h hs.motion
      memory := by rw [State.MemoryInv, hcur, href]; exact hs.memory
      params := hpar ▸ hs.params }

theorem State.Inv.withQueue {s : State} (hs : s.Inv) (rest : List Word) : (s.withQueue rest).Inv :=
  ⟨hs.write, hs.read, hs.status, hs.config, hs.framing, hs.motion, hs.memory, hs.params⟩

theorem State.Inv.advance {s : State} (hs : s.Inv) : s.advance.Inv := by
  rw [State.advance_eq]
  exact ⟨hs.write, hs.read, hs.status, hs.config, hs.framing, hs.motion, hs.memory, hs.params⟩

theorem State.Inv.raiseIllegal {s : State} (hs : s.Inv) (opc : BitVec 8) :
    (s.raiseFault .illegalCommand opc).Inv := by
  unfold State.raiseFault
  split
  · exact hs
  · exact ⟨hs.write, hs.read, State.statusInv_of_fault rfl (by simp), hs.config, hs.framing, hs.motion, hs.memory,
      hs.params⟩

/-- Settles O10, by the cases of a step: an idle one, an illegal command, and one that runs. -/
theorem stepKeepsInvariant : Obligations.StepKeepsInvariant := by
  intro s t hs h
  rcases step_cases h with ⟨-, rfl⟩ | ⟨why, opc, rest, -, rfl⟩ | ⟨i, rest, u, -, hu, rfl⟩
  · exact hs
  · exact (hs.withQueue rest).raiseIllegal opc
  · exact (exec_inv hu (hs.withQueue rest)).advance

end Sys2Proof.Machine
end

section
/-!
Decoding and encoding are inverse to each other (30_encoding.md R70, R72, R74, R77): the fields of a command, from the
command to its head word and extension words and back, then whole lists of words.
-/

namespace Sys2Proof

/-! Fields and operands -/

theorem zeroed_ok_iff {fs : List Nat} {i j : Instr} : zeroed fs i = .ok j ↔ (∀ f ∈ fs, f = 0) ∧ i = j :=
  ⟨zeroed_inv, fun ⟨hz, hij⟩ => hij ▸ zeroed_ok hz⟩

theorem Coding.bit_lt (c : Coding) : c.bit < 2 := by cases c <;> decide

theorem Side.bit_lt (b : Side) : b.bit < 2 := by cases b <;> decide

theorem TableId.code_lt (t : TableId) : t.code < 6 := by cases t <;> decide

theorem extField_word {v : Nat} (hv : v < 2 ^ 32) (hi lo : Nat) :
    extField [BitVec.ofNat 32 v] hi lo = field v hi lo := by
  have : (BitVec.ofNat 32 v).toNat = v := by rw [BitVec.toNat_ofNat, Nat.mod_eq_of_lt hv]
  simp only [extField, List.getD_cons_zero, this]

theorem ofNat_of_eq_toNat {n m : Nat} (v : BitVec n) (h : m = v.toNat) : BitVec.ofNat n m = v := by
  rw [h, BitVec.ofNat_toNat, BitVec.setWidth_eq]

theorem sext5_of_eq_low5 {v : Nat} {x : Int} (hx : fitsS5 x) (h : v = low5 x) : sext5 v = x := h ▸ sext5_low5 x hx

/-! From a command to its fields -/

/-- A head word whose low 24 bits are those of a well-formed command has that command's fields. -/
theorem decodeFields_headBits {i : Instr} (hi : i.WellFormed) {h : Nat} (hh : h % 2 ^ 24 = i.headBits) :
    decodeFields i.opcode h i.extension = .ok i := by
  cases i with simp only [Instr.headBits, Instr.WellFormed, Instr.wellFormed, fitsU, Instr.opcode, decodeFields,
      Instr.extension, zeroed_ok_iff, decide_eq_true_eq, List.forall_mem_cons, List.not_mem_nil, IsEmpty.forall_iff,
      implies_true, and_true] at hh hi ⊢
  | nop | reset | atend | flush | meclr | getsc | getpic | getgob | getmb =>
    simpa only [field, pow_zero, Nat.div_one] using hh
  | fdct bd bs | idct bd bs =>
    simp only [Instr.fdct.injEq, Instr.idct.injEq]
    refine ⟨?_, regField_eq _ _ _ bd ?_, regField_eq _ _ _ bs ?_⟩ <;> simp only [field] <;> omega
  | quant b c q | dequant b c q =>
    have := c.bit_lt
    simp only [Instr.quant.injEq, Instr.dequant.injEq]
    refine ⟨?_, regField_eq _ _ _ b ?_, coding_bit c _ ?_, ?_⟩ <;> simp only [field] <;> omega
  | encblk b c | decblk b c =>
    have := c.bit_lt
    simp only [Instr.encblk.injEq, Instr.decblk.injEq]
    refine ⟨?_, regField_eq _ _ _ b ?_, coding_bit c _ ?_⟩ <;> simp only [field] <;> omega
  | blkwr b lanes =>
    simp only [Instr.blkwr.injEq]
    refine ⟨?_, regField_eq _ _ _ b ?_, blockOfWords_words lanes⟩ <;> simp only [field] <;> omega
  | blkrd b =>
    simp only [Instr.blkrd.injEq]
    refine ⟨?_, regField_eq _ _ _ b ?_⟩ <;> simp only [field] <;> omega
  | wrbits n value =>
    simp only [Instr.wrbits.injEq]
    refine ⟨?_, ?_, rfl⟩ <;> simp only [field] <;> omega
  | rdbits n =>
    simp only [Instr.rdbits.injEq]
    refine ⟨?_, ?_⟩ <;> simp only [field] <;> omega
  | bitpos side =>
    have := side.bit_lt
    simp only [Instr.bitpos.injEq]
    refine ⟨?_, sideField_eq _ side ?_⟩ <;> simp only [field] <;> omega
  | csrr csr =>
    simp only [Instr.csrr.injEq]
    refine ⟨?_, ?_⟩ <;> simp only [field] <;> omega
  | csrw csr imm16 =>
    simp only [Except.ok.injEq, Instr.csrw.injEq]
    refine ⟨?_, ofNat_of_eq_toNat imm16 ?_⟩ <;> simp only [field] <;> omega
  | vlcenc tbl val =>
    have := tbl.code_lt
    rw [withTable_eq _ _ tbl (by simp only [field]; omega)]
    simp only [zeroed_ok_iff, List.forall_mem_singleton, Instr.vlcenc.injEq, true_and]
    refine ⟨?_, ?_⟩ <;> simp only [field] <;> omega
  | vlcdec tbl =>
    have := tbl.code_lt
    rw [withTable_eq _ _ tbl (by simp only [field]; omega)]
    simp only [zeroed_ok_iff, List.forall_mem_singleton, and_true, field]
    omega
  | meae mbx mby dx dy =>
    obtain ⟨hmbx, hmby, hdx, hdy⟩ := hi
    have := low5_lt dx
    have := low5_lt dy
    simp only [Instr.meae.injEq]
    refine ⟨?_, ?_, ?_, sext5_of_eq_low5 hdx ?_, sext5_of_eq_low5 hdy ?_⟩ <;> simp only [field] <;> omega
  | mesearch mbx mby | memtype mbx mby =>
    simp only [Instr.mesearch.injEq, Instr.memtype.injEq]
    refine ⟨?_, ?_, ?_⟩ <;> simp only [field] <;> omega
  | putpic tr ptype e ext =>
    have := e.toNat_lt
    simp only [Instr.putpic.injEq]
    refine ⟨?_, ?_, ofNat_of_eq_toNat ptype ?_, flag_eq _ e ?_, ofNat_of_eq_toNat ext ?_⟩ <;> simp only [field] <;>
      omega
  | putgob gn gquant e ext =>
    have := e.toNat_lt
    simp only [Instr.putgob.injEq]
    refine ⟨?_, ?_, ?_, flag_eq _ e ?_, ofNat_of_eq_toNat ext ?_⟩ <;> simp only [field] <;> omega
  | putmb mba mtype mquant mvh mvv cbp =>
    obtain ⟨hmba, hmtype, hmquant, hmvh, hmvv, hcbp⟩ := hi
    have := low5_lt mvh
    have := low5_lt mvv
    simp only [extField_word (show cbp * 2 ^ 15 + low5 mvv * 2 ^ 10 + low5 mvh * 2 ^ 5 + mquant < 2 ^ 32 by omega),
      Instr.putmb.injEq]
    refine ⟨⟨?_, ?_⟩, ?_, ?_, ?_, sext5_of_eq_low5 hmvh ?_, sext5_of_eq_low5 hmvv ?_, ?_⟩ <;> simp only [field] <;>
      omega

/-! From fields to a command -/

/-- The command `i` is what the fields of opcode `op` spell: `h` is the head word as a number, its opcode apart, and
`x` the extension words (30_encoding.md R72). -/
structure Instr.SpelledBy (i : Instr) (op : Opcode) (h : Nat) (x : List Word) : Prop where
  opcode : i.opcode = op
  wellFormed : i.WellFormed
  headBits : i.headBits = h % 2 ^ 24
  extension : x.length = op.extWords → i.extension = x

theorem sext5_field (h hi lo : Nat) (hw : hi + 1 - lo = 5) :
    low5 (sext5 (field h hi lo)) = field h hi lo ∧ fitsS5 (sext5 (field h hi lo)) := by
  have := field_lt h hi lo
  rw [hw] at this
  exact low5_sext5 _ this

theorem flag_field (h k : Nat) : (field h k k == 1).toNat = field h k k := by
  have := field_lt h k k
  rw [Nat.add_sub_cancel_left] at this
  exact flag_val _ this

/-- The extension word of a `PUTMB` whose bits 31:21 are zero is made of its fields. -/
theorem extField_recombine {x : List Word} (hx : x.length = 1) (hz : extField x 31 21 = 0) :
    [BitVec.ofNat 32 (extField x 20 15 * 2 ^ 15 + extField x 14 10 * 2 ^ 10 + extField x 9 5 * 2 ^ 5 +
      extField x 4 0)] = x := by
  obtain ⟨w, rfl⟩ := List.length_eq_one_iff.1 hx
  simp only [extField, List.getD_cons_zero, field] at hz ⊢
  rw [ofNat_of_eq_toNat w (by have := w.isLt; omega)]

/-- What the fields of an opcode decode to is a well-formed command of that opcode, and they are its fields: no bit of
them is ignored (30_encoding.md R76, R77). -/
theorem decodeFields_inv {op : Opcode} {h : Nat} {x : List Word} {i : Instr} (hd : decodeFields op h x = .ok i) :
    i.SpelledBy op h x := by
  have hnil : x.length = 0 → [] = x := fun hx => (List.eq_nil_of_length_eq_zero hx).symm
  cases op with simp only [decodeFields, zeroed_ok_iff, List.forall_mem_cons, List.not_mem_nil, IsEmpty.forall_iff,
      implies_true, and_true] at hd
  | nop | reset | atend | flush | meclr | getsc | getpic | getgob | getmb | fdct | idct | encblk | decblk | blkrd
  | bitpos =>
    obtain ⟨hz, rfl⟩ := hd
    refine ⟨rfl, rfl, ?_, hnil⟩
    simp only [Instr.headBits, regField_val, coding_val, side_val, field] at hz ⊢; omega
  | blkwr =>
    obtain ⟨hz, rfl⟩ := hd
    refine ⟨rfl, rfl, ?_, wordsOfBlock_block x⟩
    simp only [Instr.headBits, regField_val, field] at hz ⊢; omega
  | quant | dequant =>
    obtain ⟨hz, rfl⟩ := hd
    refine ⟨rfl, decide_eq_true (field_lt h 4 0), ?_, hnil⟩
    simp only [Instr.headBits, regField_val, coding_val, field] at hz ⊢; omega
  | wrbits =>
    obtain ⟨hz, rfl⟩ := hd
    refine ⟨rfl, decide_eq_true (field_lt h 5 0), ?_, fun hx => ?_⟩
    · simp only [Instr.headBits, field] at hz ⊢; omega
    · obtain ⟨w, rfl⟩ := List.length_eq_one_iff.1 hx
      rfl
  | rdbits =>
    obtain ⟨hz, rfl⟩ := hd
    refine ⟨rfl, decide_eq_true (field_lt h 5 0), ?_, hnil⟩
    simp only [Instr.headBits, field] at hz ⊢; omega
  | csrr =>
    obtain ⟨hz, rfl⟩ := hd
    refine ⟨rfl, decide_eq_true (field_lt h 23 16), ?_, hnil⟩
    simp only [Instr.headBits, field] at hz ⊢; omega
  | csrw =>
    cases hd
    refine ⟨rfl, decide_eq_true (field_lt h 23 16), ?_, hnil⟩
    simp only [Instr.headBits, BitVec.toNat_ofNat, field]; omega
  | vlcenc =>
    obtain ⟨t, ht, hd⟩ := withTable_inv hd
    obtain ⟨hz, rfl⟩ := zeroed_inv hd
    refine ⟨rfl, decide_eq_true (field_lt h 15 0), ?_, hnil⟩
    simp only [Instr.headBits, List.forall_mem_singleton, ht, field] at hz ⊢; omega
  | vlcdec =>
    obtain ⟨t, ht, hd⟩ := withTable_inv hd
    obtain ⟨hz, rfl⟩ := zeroed_inv hd
    refine ⟨rfl, rfl, ?_, hnil⟩
    simp only [Instr.headBits, List.forall_mem_singleton, ht, field] at hz ⊢; omega
  | meae =>
    obtain ⟨hz, rfl⟩ := hd
    obtain ⟨hdx, fdx⟩ := sext5_field h 14 10 rfl
    obtain ⟨hdy, fdy⟩ := sext5_field h 19 15 rfl
    refine ⟨rfl, decide_eq_true ⟨field_lt h 4 0, field_lt h 9 5, fdx, fdy⟩, ?_, hnil⟩
    rw [Instr.headBits, hdx, hdy]
    simp only [field] at hz ⊢; omega
  | mesearch | memtype =>
    obtain ⟨hz, rfl⟩ := hd
    refine ⟨rfl, decide_eq_true ⟨field_lt h 4 0, field_lt h 9 5⟩, ?_, hnil⟩
    simp only [Instr.headBits, field] at hz ⊢; omega
  | putpic =>
    obtain ⟨hz, rfl⟩ := hd
    refine ⟨rfl, decide_eq_true (field_lt h 4 0), ?_, hnil⟩
    rw [Instr.headBits, flag_field]
    simp only [BitVec.toNat_ofNat, field] at hz ⊢; omega
  | putgob =>
    obtain ⟨hz, rfl⟩ := hd
    refine ⟨rfl, decide_eq_true ⟨field_lt h 3 0, field_lt h 8 4⟩, ?_, hnil⟩
    rw [Instr.headBits, flag_field]
    simp only [BitVec.toNat_ofNat, field] at hz ⊢; omega
  | putmb =>
    obtain ⟨⟨hz, hzx⟩, rfl⟩ := hd
    obtain ⟨hmvh, fmvh⟩ := sext5_field (x.getD 0 0).toNat 9 5 rfl
    obtain ⟨hmvv, fmvv⟩ := sext5_field (x.getD 0 0).toNat 14 10 rfl
    refine ⟨rfl, decide_eq_true ⟨field_lt h 5 0, field_lt h 9 6, field_lt _ 4 0, fmvh, fmvv, field_lt _ 20 15⟩, ?_,
      fun hx => ?_⟩
    · simp only [Instr.headBits, field] at hz ⊢; omega
    · simp only [Instr.extension, extField, hmvh, hmvv]
      exact extField_recombine hx hzx

/-! Whole commands -/

theorem Opcode.ofCode_iff {c : Nat} {op : Opcode} : Opcode.ofCode? c = some op ↔ c = op.code.toNat :=
  ⟨Opcode.ofCode_some, fun h => h ▸ op.ofCode_code⟩

theorem extWordsOf_eq {h : Word} {op : Opcode} (ho : headOpc h = op.code.toNat) : extWordsOf h = op.extWords := by
  simp only [extWordsOf, Opcode.ofCode_iff.2 ho]

theorem decodeHead_eq {h : Nat} {op : Opcode} (ho : h / 2 ^ 24 = op.code.toNat) (x : List Word) :
    decodeHead h x = decodeFields op h x := by
  simp only [decodeHead, Opcode.ofCode_iff.2 ho]

/-- A head word decodes through the fields of the opcode that its bits 31:24 name (30_encoding.md R71). -/
theorem decodeHead_ok_iff {h : Nat} {x : List Word} {i : Instr} :
    decodeHead h x = .ok i ↔ ∃ op : Opcode, h / 2 ^ 24 = op.code.toNat ∧ decodeFields op h x = .ok i := by
  refine ⟨fun hd => ?_, fun ⟨op, ho, hd⟩ => by rwa [decodeHead_eq ho]⟩
  unfold decodeHead at hd
  split at hd
  · cases hd
  · exact ⟨_, Opcode.ofCode_some ‹_›, hd⟩

theorem headWord_toNat (op : Opcode) {n : Nat} (h : n < 2 ^ 24) :
    (BitVec.ofNat 32 (op.code.toNat * 2 ^ 24 + n)).toNat = op.code.toNat * 2 ^ 24 + n := by
  have := op.code.isLt
  rw [BitVec.toNat_ofNat]
  omega

theorem decode_ok {h : Word} {x rest : List Word} {i : Instr} (hx : x.length = extWordsOf h)
    (hd : decodeHead h.toNat x = .ok i) : decode (h :: x ++ rest) = .instr i rest := by
  rw [List.cons_append, decode, if_neg (by rw [List.length_append]; omega), List.take_left' hx, hd,
    List.drop_left' hx]

/-- Settles O2: the head word of a well-formed command names its opcode, and below it stand its fields. -/
theorem decodeInvertsEncode : Obligations.DecodeInvertsEncode := by
  intro i rest hi
  obtain ⟨hbits, hlen⟩ := headWord i hi
  have htoNat := headWord_toNat i.opcode hbits
  have hopc := opc_div i.opcode.code.toNat _ hbits
  refine decode_ok (hlen.trans (extWordsOf_eq ?_).symm) ?_
  · rw [headOpc, htoNat, hopc]
  · rw [htoNat, decodeHead_eq hopc]
    exact decodeFields_headBits hi (by omega)

theorem decode_instr_inv {ws rest : List Word} {i : Instr} (hd : decode ws = .instr i rest) :
    ∃ h x, ws = h :: x ++ rest ∧ x.length = extWordsOf h ∧ decodeHead h.toNat x = .ok i := by
  rcases decode_cases ws with ⟨hinc, -⟩ | ⟨h, tail, rfl, hlen, ⟨j, hj, hok⟩ | ⟨why, -, hill⟩⟩
  · rw [hinc] at hd; cases hd
  · rw [hok] at hd
    cases hd
    exact ⟨h, _, by rw [List.cons_append, List.take_append_drop], List.length_take_of_le hlen, hj⟩
  · rw [hill] at hd; cases hd

/-- Settles O3: a legal command's opcode and fields make up its head word and its extension words. -/
theorem encodeInvertsDecode : Obligations.EncodeInvertsDecode := by
  intro ws i rest hd
  obtain ⟨h, x, rfl, hx, hd⟩ := decode_instr_inv hd
  obtain ⟨op, ho, hd⟩ := decodeHead_ok_iff.1 hd
  obtain ⟨rfl, hi, hbits, hext⟩ := decodeFields_inv hd
  refine ⟨hi, ?_⟩
  rw [encode, hext (hx.trans (extWordsOf_eq ho)), hbits, ofNat_of_eq_toNat h (by omega)]

end Sys2Proof
end

section
/-!
The decoder against the opcode table (30_encoding.md R75 to R77): which fields of an opcode must be zero, fields as
masks of a word, and what a row of the table accepts.
-/

namespace Sys2Proof

open Machine

/-! The fields of a legal command -/

theorem withTable_ok_iff {h : Nat} {f : TableId → Except Illegal Instr} :
    (∃ i, withTable h f = .ok i) ↔ ∃ t : TableId, t.code = field h 23 21 ∧ ∃ i, f t = .ok i := by
  constructor
  · rintro ⟨i, hi⟩
    obtain ⟨t, ht, hf⟩ := withTable_inv hi
    exact ⟨t, ht, i, hf⟩
  · rintro ⟨t, ht, i, hf⟩
    exact ⟨i, by rw [withTable_eq h f t ht.symm, hf]⟩

theorem TableId.exists_code_iff {n : Nat} : (∃ t : TableId, t.code = n) ↔ n < 6 := by
  constructor
  · rintro ⟨t, rfl⟩
    exact t.code_lt
  · intro h
    interval_cases n
    exacts [⟨.mba, rfl⟩, ⟨.mtype, rfl⟩, ⟨.mvd, rfl⟩, ⟨.cbp, rfl⟩, ⟨.t1, rfl⟩, ⟨.t2, rfl⟩]

/-- The fields `(hi, lo)` of a head word that must be zero (30_encoding.md R72). -/
def Opcode.zeroFields : Opcode → List (Nat × Nat)
  | .nop | .reset | .atend | .flush | .meclr | .getsc | .getpic | .getgob | .getmb => [(23, 0)]
  | .fdct | .idct => [(17, 0)]
  | .quant | .dequant => [(20, 18), (16, 5)]
  | .encblk | .decblk => [(20, 18), (16, 0)]
  | .blkwr | .blkrd | .vlcdec => [(20, 0)]
  | .wrbits | .rdbits => [(23, 6)]
  | .bitpos => [(23, 1)]
  | .csrr => [(15, 0)]
  | .csrw => []
  | .vlcenc => [(20, 16)]
  | .meae | .putpic => [(23, 20)]
  | .mesearch | .memtype | .putmb => [(23, 10)]
  | .putgob => [(23, 18)]

/-- The fields `(hi, lo)` of the first extension word that must be zero (30_encoding.md R72). -/
def Opcode.extZeroFields : Opcode → List (Nat × Nat)
  | .putmb => [(31, 21)]
  | _ => []

/-- A head word `h` and an extension word `x0`, as numbers, have nothing that R76 calls illegal for the opcode. -/
def Opcode.LegalFields (op : Opcode) (h x0 : Nat) : Prop :=
  (∀ f ∈ op.zeroFields, field h f.1 f.2 = 0) ∧ (∀ f ∈ op.extZeroFields, field x0 f.1 f.2 = 0) ∧
  (op = .vlcenc ∨ op = .vlcdec → field h 23 21 < 6)

theorem decodeFields_legal {op : Opcode} {h : Nat} {x : List Word} :
    (∃ i, decodeFields op h x = .ok i) ↔ op.LegalFields h (x.getD 0 0).toNat := by
  unfold Opcode.LegalFields
  cases op with
  | vlcenc | vlcdec =>
    simp [decodeFields, withTable_ok_iff, zeroed_ok_iff, Opcode.zeroFields, Opcode.extZeroFields,
      ← TableId.exists_code_iff, and_comm]
  | _ => simp [decodeFields, zeroed_ok_iff, Opcode.zeroFields, Opcode.extZeroFields, extField]

/-! Fields as masks -/

/-- The mask of the bits `hi:lo` of a word. -/
def fieldMask (hi lo : Nat) : Word := BitVec.ofNat 32 ((2 ^ (hi + 1 - lo) - 1) * 2 ^ lo)

theorem toNat_and_fieldMask (w : Word) (hi lo : Nat) :
    (w &&& fieldMask hi lo).toNat = field w.toNat hi lo * 2 ^ lo := by
  apply Nat.eq_of_testBit_eq
  intro k
  have hhigh : 32 ≤ k → w.toNat.testBit k = false := fun hk => BitVec.testBit_toNat w ▸ BitVec.getLsbD_of_ge w k hk
  simp only [fieldMask, field, BitVec.toNat_and, BitVec.toNat_ofNat, Nat.testBit_and, Nat.testBit_mod_two_pow,
    Nat.testBit_mul_two_pow, Nat.testBit_two_pow_sub_one, Nat.testBit_div_two_pow]
  by_cases hk : lo ≤ k
  · by_cases h32 : k < 32
    · simp [hk, h32, Bool.and_comm]
    · simp [hk, hhigh (Nat.le_of_not_lt h32)]
  · simp [hk]

/-- The mask of several fields `(hi, lo)`. -/
def fieldsMask (fs : List (Nat × Nat)) : Word := fs.foldr (fun f m => fieldMask f.1 f.2 ||| m) 0

theorem and_fieldsMask (w : Word) (fs : List (Nat × Nat)) :
    w &&& fieldsMask fs = 0 ↔ ∀ f ∈ fs, field w.toNat f.1 f.2 = 0 := by
  induction fs with
  | nil => simp [fieldsMask]
  | cons f fs ih =>
    have hf : w &&& fieldMask f.1 f.2 = 0 ↔ field w.toNat f.1 f.2 = 0 := by
      rw [← BitVec.toNat_inj, toNat_and_fieldMask]
      simp
    have hcons : fieldsMask (f :: fs) = fieldMask f.1 f.2 ||| fieldsMask fs := rfl
    rw [hcons, BitVec.and_or_distrib_left, List.forall_mem_cons, ← hf, ← ih]
    exact BitVec.or_eq_zero_iff

theorem and_or_eq_iff {w a b p : Word} (hpa : p &&& a = p) (hpb : p &&& b = 0) :
    w &&& (a ||| b) = p ↔ w &&& a = p ∧ w &&& b = 0 := by
  constructor
  · intro h
    have ha : (a ||| b) &&& a = a := by ext i; simpa using Or.inl
    have hb : (a ||| b) &&& b = b := by ext i; simpa using Or.inr
    exact ⟨by rw [← hpa, ← h, BitVec.and_assoc, ha], by rw [← hpb, ← h, BitVec.and_assoc, hb]⟩
  · rintro ⟨h1, h2⟩
    simp [BitVec.and_or_distrib_left, h1, h2]

/-! The rows -/

theorem opcodeTable_ops : opcodeTable.map TableRow.op = Opcode.all := rfl

theorem Opcode.mem_all (op : Opcode) : op ∈ Opcode.all := List.mem_of_find?_eq_some op.ofCode_code

theorem Opcode.all_nodup : Opcode.all.Nodup := by decide

theorem exists_row (op : Opcode) : ∃ row ∈ opcodeTable, row.op = op :=
  List.mem_map.1 (opcodeTable_ops ▸ op.mem_all)

theorem row_unique {r r' : TableRow} (hr : r ∈ opcodeTable) (hr' : r' ∈ opcodeTable) (h : r.op = r'.op) : r = r' :=
  List.inj_on_of_nodup_map (opcodeTable_ops ▸ Opcode.all_nodup) hr hr' h

/-- The table against the formats of 30_encoding.md R72: a row's mask is `OPC` and the must-be-zero fields. -/
theorem row_masks : ∀ row ∈ opcodeTable, row.mask = fieldMask 31 24 ||| fieldsMask row.op.zeroFields ∧
    row.extZero = fieldsMask row.op.extZeroFields ∧ row.pattern = BitVec.ofNat 32 (row.op.code.toNat * 2 ^ 24) ∧
    row.pattern &&& fieldMask 31 24 = row.pattern ∧ row.pattern &&& fieldsMask row.op.zeroFields = 0 := by
  decide

theorem headOpc_iff_mask (w : Word) (op : Opcode) :
    w &&& fieldMask 31 24 = BitVec.ofNat 32 (op.code.toNat * 2 ^ 24) ↔ headOpc w = op.code.toNat := by
  have hw : field w.toNat 31 24 = headOpc w := by
    have := w.isLt
    simp only [field, headOpc]; omega
  have := op.code.isLt
  rw [← BitVec.toNat_inj, toNat_and_fieldMask, hw, BitVec.toNat_ofNat]
  omega

/-- Match and mask of a row: its opcode stands in bits 31:24, and its must-be-zero fields are zero. -/
theorem row_matches_iff {row : TableRow} (hr : row ∈ opcodeTable) (w : Word) :
    w &&& row.mask = row.pattern ↔
      headOpc w = row.op.code.toNat ∧ ∀ f ∈ row.op.zeroFields, field w.toNat f.1 f.2 = 0 := by
  obtain ⟨hmask, -, hpat, hp1, hp2⟩ := row_masks row hr
  rw [hmask, and_or_eq_iff hp1 hp2, hpat, headOpc_iff_mask, and_fieldsMask]

theorem row_accepts_iff {row : TableRow} (hr : row ∈ opcodeTable) (w x0 : Word) :
    row.accepts w x0 ↔ headOpc w = row.op.code.toNat ∧ row.op.LegalFields w.toNat x0.toNat := by
  obtain ⟨-, hext, -⟩ := row_masks row hr
  have htbl : (w >>> 21).toNat % 8 = field w.toNat 23 21 := by
    rw [BitVec.toNat_ushiftRight, Nat.shiftRight_eq_div_pow, field]
    rfl
  rw [TableRow.accepts, row_matches_iff hr, hext, and_fieldsMask, htbl, Opcode.LegalFields, and_assoc]

/-- A row of the table accepts exactly the head words of its opcode whose fields decode (30_encoding.md R77). -/
theorem row_accepts_iff_decodes {row : TableRow} (hr : row ∈ opcodeTable) (w : Word) (x : List Word) :
    row.accepts w (x.getD 0 0) ↔ headOpc w = row.op.code.toNat ∧ ∃ i, decodeFields row.op w.toNat x = .ok i := by
  rw [row_accepts_iff hr, decodeFields_legal]

theorem decodeHead_row {w : Word} {x : List Word} {i : Instr} (hd : decodeHead w.toNat x = .ok i) :
    ∃ row ∈ opcodeTable, row.accepts w (x.getD 0 0) ∧ row.op = i.opcode := by
  obtain ⟨op, ho, hd⟩ := decodeHead_ok_iff.1 hd
  obtain ⟨row, hr, rfl⟩ := exists_row op
  exact ⟨row, hr, (row_accepts_iff_decodes hr w x).2 ⟨ho, i, hd⟩, (decodeFields_inv hd).opcode.symm⟩

theorem decodeHead_of_row {row : TableRow} (hr : row ∈ opcodeTable) {w : Word} {x : List Word}
    (ha : row.accepts w (x.getD 0 0)) : ∃ i, decodeHead w.toNat x = .ok i := by
  obtain ⟨ho, i, hd⟩ := (row_accepts_iff_decodes hr w x).1 ha
  exact ⟨i, decodeHead_ok_iff.2 ⟨row.op, ho, hd⟩⟩

theorem Opcode.code_injective {op op' : Opcode} (h : op.code.toNat = op'.code.toNat) : op = op' :=
  Option.some.inj (by rw [← op.ofCode_code, h, op'.ofCode_code])

/-- Settles O4: a row's mask is `OPC` and the must-be-zero fields of its opcode, and each opcode has one row. -/
theorem decoderFollowsOpcodeTable : Obligations.DecoderFollowsOpcodeTable := by
  refine ⟨fun h x => ⟨⟨?_, ?_⟩, fun i hd => decodeHead_row hd⟩, fun h r hr r' hr' hm hm' => ?_⟩
  · rintro ⟨i, hd⟩
    obtain ⟨row, hr, ha, -⟩ := decodeHead_row hd
    exact ⟨row, hr, ha⟩
  · rintro ⟨row, hr, ha⟩
    exact decodeHead_of_row hr ha
  · obtain ⟨ho, -⟩ := (row_matches_iff hr h).1 hm
    obtain ⟨ho', -⟩ := (row_matches_iff hr' h).1 hm'
    exact row_unique hr hr' (Opcode.code_injective (ho.symm.trans ho'))

end Sys2Proof
end

section
/-!
Illegal commands and the words that a step takes (30_encoding.md R70, R76, R78).
-/

namespace Sys2Proof

open Machine

/-! Why a command is illegal -/

theorem zeroed_error {fs : List Nat} {i : Instr} {why : Illegal} (h : zeroed fs i = .error why) :
    why = .mustBeZero := by
  unfold zeroed at h
  split at h
  · cases h
  · cases h; rfl

theorem withTable_error {h : Nat} {f : TableId → Except Illegal Instr} {why : Illegal}
    (hh : withTable h f = .error why) : why = .reservedTable ∨ ∃ t, f t = .error why := by
  unfold withTable at hh
  split at hh
  · exact .inr ⟨_, hh⟩
  · cases hh; exact .inl rfl

/-- The fields of a known opcode are illegal for another reason than an unknown opcode (30_encoding.md R76). -/
theorem decodeFields_error {op : Opcode} {h : Nat} {x : List Word} {why : Illegal}
    (hd : decodeFields op h x = .error why) : why ≠ .unknownOpcode := by
  cases op with
  | csrw => cases hd
  | vlcenc | vlcdec =>
    rcases withTable_error hd with rfl | ⟨t, ht⟩
    · simp
    · simp [zeroed_error ht]
  | _ => simp [zeroed_error hd]

/-- A head word is refused for an unknown opcode exactly when no command has it (30_encoding.md R75, R76). -/
theorem decodeHead_unknown {h : Nat} {x : List Word} {why : Illegal} (hd : decodeHead h x = .error why) :
    why = .unknownOpcode ↔ Opcode.ofCode? (h / 2 ^ 24) = none := by
  unfold decodeHead at hd
  split at hd
  case h_1 hnone => cases hd; simp only [hnone]
  case h_2 op hsome => simp only [hsome, decodeFields_error hd, reduceCtorEq]

theorem Opcode.ofCode_none_iff {c : Nat} : Opcode.ofCode? c = none ↔ ∀ op : Opcode, op.code.toNat ≠ c :=
  ⟨Opcode.ofCode_none, fun h => Option.eq_none_iff_forall_ne_some.2 fun op hop => h op (Opcode.ofCode_some hop).symm⟩

theorem headOpc_toNat (h : Word) : (BitVec.ofNat 8 (headOpc h)).toNat = headOpc h := by
  have := h.isLt
  rw [BitVec.toNat_ofNat, headOpc]
  omega

theorem decode_illegal_inv {h : Word} {tail rest : List Word} {why : Illegal} {opc : BitVec 8}
    (hd : decode (h :: tail) = .illegal why opc rest) :
    decodeHead h.toNat (tail.take (extWordsOf h)) = .error why ∧ opc = BitVec.ofNat 8 (headOpc h) ∧
      rest = tail.drop (extWordsOf h) := by
  rcases decode_cases (h :: tail) with ⟨hinc, -⟩ | ⟨h', tail', hw, -, ⟨i, -, hok⟩ | ⟨why', herr, hill⟩⟩
  · rw [hinc] at hd; cases hd
  · rw [hok] at hd; cases hd
  · cases hw
    rw [hill] at hd
    cases hd
    exact ⟨herr, rfl, rfl⟩

theorem extWordsOf_unknown {h : Word} (hn : Opcode.ofCode? (headOpc h) = none) : extWordsOf h = 0 := by
  simp only [extWordsOf, hn]

theorem Machine.State.raiseFault_of_unfaulted {s : State} (hf : s.status.fault = false) (c : Cause) (opc : BitVec 8) :
    s.raiseFault c opc = { s with status := ⟨true, c, opc⟩ } := by
  simp [State.raiseFault, hf]

/-- Settles O5: the opcode is unknown exactly when the table lookup fails, which fixes no extension words; taking the
fault in an unfaulted engine writes `STATUS` and nothing else. -/
theorem illegalCommandTakesFault : Obligations.IllegalCommandTakesFault := by
  intro s h tail rest why opc hf hq hd
  have hstep := step_illegal hd
  rw [hq] at hd
  obtain ⟨hhead, rfl, rfl⟩ := decode_illegal_inv hd
  have hopc := headOpc_toNat h
  have hwhy : why = .unknownOpcode ↔ Opcode.ofCode? (headOpc h) = none := decodeHead_unknown hhead
  refine ⟨hopc, rfl, ?_, fun hw => ?_, ?_⟩
  · rw [hwhy, Opcode.ofCode_none_iff]
    exact forall_congr' fun op => not_congr (by rw [← BitVec.toNat_inj, hopc])
  · rw [extWordsOf_unknown (hwhy.1 hw), List.drop_zero]
  · rw [hstep, State.raiseFault_of_unfaulted]
    · rfl
    · exact hf

/-! The words a step takes -/

theorem step_total (s : State) : ∃ t, step s = .next t := by
  cases hd : decode s.queue with
  | incomplete => exact ⟨_, step_incomplete hd⟩
  | illegal why opc rest => exact ⟨_, step_illegal hd⟩
  | instr i rest =>
    obtain ⟨t, ht⟩ := exec_next i (s.withQueue rest)
    exact ⟨_, step_instr hd ht⟩

/-- The words left after a step: all of them when no whole command is there, else those after the first command. -/
theorem step_queue {s t : State} (h : step s = .next t) :
    (t.queue = s.queue ∧ (s.queue = [] ∨ ∃ h tail, s.queue = h :: tail ∧ tail.length < extWordsOf h)) ∨
    ∃ h tail, s.queue = h :: tail ∧ extWordsOf h ≤ tail.length ∧ t.queue = tail.drop (extWordsOf h) := by
  rcases decode_cases s.queue with ⟨hinc, hw⟩ | ⟨w, tail, hq, hlen, ⟨i, -, hok⟩ | ⟨why, -, hill⟩⟩
  · rw [step_incomplete hinc] at h
    cases h
    exact .inl ⟨rfl, hw⟩
  · obtain ⟨u, hu⟩ := exec_next i (s.withQueue (tail.drop (extWordsOf w)))
    obtain ⟨-, -, -, -, hqueue, -⟩ := exec_host_same hu
    rw [step_instr hok hu] at h
    cases h
    exact .inr ⟨w, tail, hq, hlen, by rw [State.advance_queue, hqueue, State.withQueue_queue]⟩
  · rw [step_illegal hill] at h
    cases h
    exact .inr ⟨w, tail, hq, hlen, by rw [State.raiseFault_queue, State.withQueue_queue]⟩

/-- Settles O7: every step has a next state, and its words are those that `step_queue` names. -/
theorem stepTakesOneCommand : Obligations.StepTakesOneCommand := by
  intro s
  obtain ⟨t, ht⟩ := step_total s
  refine ⟨t, ht, ?_⟩
  rcases step_queue ht with ⟨hsame, hnone⟩ | ⟨h, tail, hq, hlen, hrest⟩
  · refine ⟨.inl hsame, fun hne hwhole => ?_⟩
    rcases hnone with hnil | ⟨h, tail, hq, hshort⟩
    · exact absurd hnil hne
    · exact absurd hshort (Nat.not_lt.2 (hwhole h tail hq))
  · refine ⟨.inr ⟨h, tail, hq, hlen, hrest⟩, fun _ _ => ?_⟩
    rw [hrest, hq, List.length_drop, List.length_cons]
    omega

/-! Words written out -/

/-- Settles O1, by running the decoder on the words. -/
theorem sampleWordsDecode : Obligations.SampleWordsDecode := by
  unfold Obligations.SampleWordsDecode
  decide

end Sys2Proof
end

section
/-!
The bit channel (40_bitchannel.md R100 to R108): what WRBITS, RDBITS, BITPOS, ATEND and FLUSH do, the packing law, and
which side of the channel a command can change.
-/

namespace Sys2Proof.Machine

/-! Running a command whose pseudocode is known on one state -/

theorem gated_congr {op : Opcode} {x y : M Unit} {s : State} (h : x s = y s) : gated op x s = gated op y s := by
  rw [gated, gated, h]

/-- A check that refuses in the state the command started in: only `STATUS` changes (60_exceptions.md R320). -/
theorem gated_refuses {op : Opcode} {body : M Unit} {s : State} {c : Cause} (hf : s.status.fault = false)
    (h : body s = .error c s) : gated op body s = .next (s.faulted c op) := by
  rw [gated_error hf h, State.raiseFault_of_clear s c op hf]

/-! Bit strings by position -/

theorem bits_eq_map_range (n v : Nat) : bits n v = (List.range n).map (fun j => v.testBit (n - 1 - j)) := by
  induction n with
  | zero => rfl
  | succ n ih =>
    rw [bits_succ, ih, List.range_succ_eq_map, List.map_cons, List.map_map]
    congr 1
    apply List.map_congr_left
    intro j _
    simp only [Function.comp_apply]
    congr 1
    omega

theorem srcBit_cons_head (b : Byte) (l : List Byte) {j : Nat} (hj : j < 8) :
    srcBit (b :: l) j = b.toNat.testBit (7 - j) := by
  rw [srcBit, Nat.div_eq_of_lt hj, Nat.mod_eq_of_lt hj]
  rfl

theorem srcBit_cons_tail (b : Byte) (l : List Byte) (j : Nat) : srcBit (b :: l) (8 + j) = srcBit l j := by
  rw [srcBit, srcBit, Nat.add_div_left j (by decide), Nat.add_mod_left, List.getD_cons_succ]

/-- Bytes written out bit by bit are the bits of a source that holds these bytes (10_state.md R31, R32). -/
theorem flatMap_bits_eq_srcBits (l : List Byte) :
    l.flatMap (fun b => bits 8 b.toNat) = (List.range (8 * l.length)).map (srcBit l) := by
  induction l with
  | nil => rfl
  | cons b l ih =>
    have hhead : bits 8 b.toNat = (List.range 8).map (srcBit (b :: l)) := by
      rw [bits_eq_map_range]
      exact List.map_congr_left fun j hj => (srcBit_cons_head b l (List.mem_range.1 hj)).symm
    have htail : (List.range (8 * l.length)).map (srcBit l) =
        ((List.range (8 * l.length)).map (8 + ·)).map (srcBit (b :: l)) := by
      rw [List.map_map]
      exact List.map_congr_left fun j _ => (srcBit_cons_tail b l j).symm
    rw [List.flatMap_cons, ih, hhead, htail, ← List.map_append, ← List.range_add, List.length_cons, Nat.mul_succ,
      Nat.add_comm]

/-! The packing law (40_bitchannel.md R107) -/

theorem State.written_eq (s : State) :
    s.written = (List.range (8 * s.sink.length)).map (srcBit s.sink) ++ s.wpend := by
  rw [State.written, flatMap_bits_eq_srcBits]

theorem State.written_bytes {s : State} (h : s.wpend.length < 8) : s.written.length / 8 = s.sink.length := by
  rw [State.written_length]
  omega

/-- The bits in whole bytes are those of `SINK`. -/
theorem State.written_take (s : State) :
    s.written.take (8 * s.sink.length) = (List.range (8 * s.sink.length)).map (srcBit s.sink) := by
  rw [State.written_eq]
  exact List.take_left' (by simp)

theorem State.written_drop (s : State) : s.written.drop (8 * s.sink.length) = s.wpend := by
  rw [State.written_eq]
  exact List.drop_left' (by simp)

theorem State.written_getElem? (s : State) {j : Nat} (hj : j < 8 * s.sink.length) :
    s.written[j]? = some (srcBit s.sink j) := by
  rw [State.written_eq, List.getElem?_append_left (by simpa using hj)]
  simp [hj]

/-- A source holds its own bits from position 0 on. -/
theorem sourceHolds_own {r : State} (h0 : r.rpos = 0) (h8 : 8 * r.src.length < 2 ^ 64) :
    r.SourceHolds ((List.range (8 * r.src.length)).map (srcBit r.src)) := by
  refine ⟨h8, ?_, ?_⟩ <;> simp [h0]

/-- Settles O24: `SINK` written out bit by bit is what a source of the same bytes holds. -/
theorem sourceHoldsWhatSinkGot : Obligations.SourceHoldsWhatSinkGot := by
  intro s hw
  rw [State.written_bytes hw]
  refine ⟨s.written_drop, rfl, fun j hj => s.written_getElem? hj, fun r hr h0 h8 => ?_⟩
  rw [s.written_take, ← hr]
  exact sourceHolds_own h0 h8

/-! Writing -/

theorem Emits.wrbitsBody {n : Nat} (hn : n ≤ 32) (v : Word) : Emits (wrbitsBody n v) (bits n v.toNat) := by
  intro s hw
  rw [Machine.wrbitsBody, M.raiseIf_bind, if_neg (by omega)]
  exact Emits.putbits n v.toNat s hw

theorem wrbitsBody_overlong {n : Nat} (hn : n > 32) (v : Word) (s : State) :
    wrbitsBody n v s = .error .argumentError s := by
  rw [wrbitsBody, M.raiseIf_bind, if_pos hn]

/-- Settles O19: past the check of `n` the command is `putbits`, and the bits of a word are its low bits in order. -/
theorem wrbitsAppendsLowBits : Obligations.WrbitsAppendsLowBits := by
  intro s n v hf
  refine ⟨fun hn hw => ?_, fun hn => ?_, fun hn => gated_refuses hf (wrbitsBody_overlong hn v s)⟩
  · have hbits : bits n v.toNat = (List.range n).map (fun j => v.getLsbD (n - 1 - j)) := bits_eq_map_range n v.toNat
    rw [← hbits]
    exact gated_writes (Emits.wrbitsBody hn v) .wrbits hf hw
  · subst hn
    exact gated_ok hf rfl

/-- After the pad bits that complete the byte no bit is pending (40_bitchannel.md R104). -/
theorem Appended.pad_completes {s t : State} {b : Bool}
    (h : Appended s (List.replicate ((8 - s.wpend.length) % 8) b) t) (hw : s.wpend.length < 8) : t.wpend = [] := by
  have hlen := congrArg List.length h.written
  rw [List.length_append, List.length_replicate, State.written_length, State.written_length] at hlen
  have hpend := h.pending
  exact List.eq_nil_of_length_eq_zero (by omega)

/-- A command that only writes and does not end in a fault has appended all its bits. -/
theorem WritesBits.appended {s t : State} {op : Opcode} {bs : List Bool} {r : Host.Outcome State Fault Refusal}
    (h : WritesBits s op bs id r) (hr : r = .next t) (ht : t.status.fault = false) : Appended s bs t := by
  obtain ⟨-, ⟨u, hu, hru⟩ | ⟨k, u, -, -, -, -, hru⟩⟩ := h
  · cases hr.symm.trans hru
    exact hu
  · cases hr.symm.trans hru
    cases ht

theorem exec_flush_eq {s : State} (hw : s.wpend.length < 8) :
    exec .flush s = gated .flush (putcode (List.replicate ((8 - s.wpend.length) % 8) s.par.padBit)) s :=
  gated_congr (flushLoop_run s 8 hw (Nat.mod_lt _ (by decide)))

/-- Settles O23: the loop of FLUSH is `putcode` of the pad bits that are missing. -/
theorem flushCompletesByte : Obligations.FlushCompletesByte := by
  intro s hf hw
  have hwrites : WritesBits s .flush (List.replicate ((8 - s.wpend.length) % 8) s.par.padBit) id (exec .flush s) := by
    rw [exec_flush_eq hw]
    exact gated_writes (Emits.putcode _) .flush hf hw
  refine ⟨hwrites, fun h0 => ?_, fun t ht hft => (hwrites.appended ht hft).pad_completes hw⟩
  rw [exec_flush_eq hw, h0]
  exact gated_ok hf rfl

/-! Reading -/

theorem rdbitsBody_of_le {n : Nat} (hn : n ≤ 32) (s : State) :
    rdbitsBody n s = (getbits n >>= fun v => writeRes 0 v) s := by
  rw [rdbitsBody, M.raiseIf_bind, if_neg (by omega)]

theorem rdbitsBody_overlong {n : Nat} (hn : n > 32) (s : State) : rdbitsBody n s = .error .argumentError s := by
  rw [rdbitsBody, M.raiseIf_bind, if_pos hn]

/-- Settles O20: past the check of `n` the command is `getbits`, which looks for the end before it consumes. -/
theorem rdbitsReturnsNextBits : Obligations.RdbitsReturnsNextBits := by
  intro s n hf
  refine ⟨fun bs hlen hn hs => ?_, fun hn hend => ?_, fun hn => gated_refuses hf (rdbitsBody_overlong hn s)⟩
  · subst hlen
    exact gated_ok hf (by rw [rdbitsBody_of_le hn, M.bind_ok (getbits_holds bs s hs), writeRes_run]; rfl)
  · exact gated_refuses hf (by rw [rdbitsBody_of_le hn, M.bind_error (getbits_eof n s hend)])

/-! Positions -/

theorem ofNat_low_half (p : BitVec 64) : BitVec.ofNat 32 (p.toNat % 2 ^ 32) = p.setWidth 32 := by
  apply BitVec.eq_of_toNat_eq
  simp

theorem ofNat_high_half (p : BitVec 64) : BitVec.ofNat 32 (p.toNat / 2 ^ 32) = (p >>> 32).setWidth 32 := by
  apply BitVec.eq_of_toNat_eq
  simp [Nat.shiftRight_eq_div_pow]

theorem exec_bitpos {s : State} (hf : s.status.fault = false) (side : Side) :
    exec (.bitpos side) s = .next { s with
      res := #v[(s.position side).setWidth 32, (s.position side >>> 32).setWidth 32, s.res[2], s.res[3]] } :=
  gated_ok hf (by
    rw [bitposBody, M.look_bind, writeRes_bind, writeRes_run, State.setRes_pair, ofNat_low_half, ofNat_high_half])

/-- Settles O21, for each side. -/
theorem bitposReturnsPosition : Obligations.BitposReturnsPosition := fun _ hf =>
  ⟨exec_bitpos hf .wr, exec_bitpos hf .rd⟩

theorem ofNat_boolResult (p : Prop) [Decidable p] : BitVec.ofNat 32 (boolResult (decide p)) = if p then 1 else 0 := by
  by_cases h : p <;> simp [boolResult, h]

/-- Settles O22: the result is the number of the truth value of the test. -/
theorem atendTestsForUnreadBits : Obligations.AtendTestsForUnreadBits := by
  intro s hf
  rw [← ofNat_boolResult]
  exact gated_ok hf rfl

/-! The two sides are independent (40_bitchannel.md R108) -/

/-- Both sides of the bit channel (10_state.md R31, R32). -/
def State.channel (s : State) : List Byte × List Bool × BitVec 64 × BitVec 64 := (s.sink, s.wpend, s.wpos, s.rpos)

theorem State.channel_eq_iff {s t : State} :
    t.channel = s.channel ↔ t.sink = s.sink ∧ t.wpend = s.wpend ∧ t.wpos = s.wpos ∧ t.rpos = s.rpos := by
  simp [State.channel]

/-- A relation that holds wherever both sides of the channel stay as they are is kept by a command but RESET if the
operations of the channel that the command may use keep it. -/
theorem exec_keeps_of_channel {P : State → State → Prop} (hP : Composes P)
    (hrest : ∀ s t : State, t.channel = s.channel → P s t) {i : Instr} (hi : i ≠ .reset)
    (hput : writesStream i = true → ∀ b, Keeps P (putbit b)) (hget : readsStream i = true → ∀ n, Keeps P (getbits n))
    {s t : State} (h : exec i s = .next t) : P s t :=
  exec_keeps hP (fun c o s => hrest _ _ (raiseFault_same State.channel (fun _ _ => rfl) c o s)) hi hput hget
    (fun _ _ _ _ => hrest _ _ rfl) (fun _ _ _ _ => hrest _ _ rfl)
    (fun _ => ⟨fun _ _ => hrest _ _ rfl, fun _ _ => hrest _ _ rfl, fun _ _ => hrest _ _ rfl⟩)
    (fun _ _ _ _ => hrest _ _ rfl) (fun _ _ _ => hrest _ _ rfl) (fun _ _ _ _ => hrest _ _ rfl)
    (fun _ _ => hrest _ _ rfl) (fun _ _ _ => hrest _ _ rfl) h

/-- The sink grows at its end or stays. -/
abbrev SinkGrows (s t : State) : Prop := s.sink <+: t.sink

theorem composes_sinkGrows : Composes SinkGrows := ⟨fun _ => List.prefix_rfl, fun _ _ _ h g => h.trans g⟩

theorem sinkGrows_of_eq {s t : State} (h : t.sink = s.sink) : SinkGrows s t := by
  rw [SinkGrows, h]

theorem putbit_sinkGrows (b : Bool) : Keeps SinkGrows (putbit b) := by
  intro s
  unfold putbit
  split
  · split
    · exact List.prefix_rfl
    · exact List.prefix_append _ _
  · exact List.prefix_rfl

theorem getbits_sinkGrows (n : Nat) : Keeps SinkGrows (getbits n) := fun s =>
  sinkGrows_of_eq (getbits_same State.sink (fun _ _ => rfl) n s)

section Sides

variable {i : Instr} {s t : State} (hi : i ≠ .reset) (h : exec i s = .next t)

include hi h

theorem exec_write_side_same (hw : writesStream i = false) : t.sink = s.sink ∧ t.wpend = s.wpend ∧ t.wpos = s.wpos := by
  have hsame : (t.sink, t.wpend, t.wpos) = (s.sink, s.wpend, s.wpos) :=
    exec_keeps_of_channel (Composes.same (fun s : State => (s.sink, s.wpend, s.wpos)))
      (fun s t hc => by
        obtain ⟨hsink, hpend, hpos, -⟩ := State.channel_eq_iff.1 hc
        rw [hsink, hpend, hpos]) hi (fun e => absurd (hw.symm.trans e) (by decide))
      (fun _ => getbits_same _ (fun _ _ => rfl)) h
  simpa using hsame

theorem exec_read_side_same (hr : readsStream i = false) : t.rpos = s.rpos :=
  exec_keeps_of_channel (Composes.same State.rpos)
    (fun _ _ hc => by
      obtain ⟨-, -, -, hpos⟩ := State.channel_eq_iff.1 hc
      exact hpos) hi
    (fun _ => putbit_same State.rpos (fun _ _ _ _ _ => rfl)) (fun e => absurd (hr.symm.trans e) (by decide)) h

theorem exec_sink_grows : s.sink <+: t.sink :=
  exec_keeps_of_channel composes_sinkGrows (fun _ _ hc => sinkGrows_of_eq (State.channel_eq_iff.1 hc).1) hi
    (fun _ => putbit_sinkGrows) (fun _ => getbits_sinkGrows) h

end Sides

theorem not_writes_and_reads (i : Instr) : (writesStream i && readsStream i) = false := by
  cases i <;> rfl

/-- Settles O58, side by side. -/
theorem channelSidesAreIndependent : Obligations.ChannelSidesAreIndependent := fun i _ _ hi h =>
  ⟨exec_write_side_same hi h, exec_read_side_same hi h, not_writes_and_reads i, exec_sink_grows hi h⟩

end Sys2Proof.Machine
end

section
/-!
The transform (41_transform.md R120 to R130): what FDCT and IDCT leave, pass by pass, and the range of FDCT on pixels
and pixel differences.
-/

namespace Sys2Proof.Machine

/-! The network and the commands -/

theorem chenNetwork_default {p : Params} (h : p.chenNetwork = .default) :
    chenNetwork p = ⟨fwd1d p.cos, inv1d p.cos⟩ := by
  rw [chenNetwork, h]

theorem exec_fdct {s : State} (hf : s.status.fault = false) (bd bs : Fin 8) :
    exec (.fdct bd bs) s = .next (s.setBlock bd (forwardDct (chenNetwork s.par) (s.block bs))) :=
  gated_ok hf rfl

theorem exec_idct {s : State} (hf : s.status.fault = false) (bd bs : Fin 8) :
    exec (.idct bd bs) s = .next (s.setBlock bd (inverseDct (chenNetwork s.par) (s.block bs))) :=
  gated_ok hf rfl

/-! The two commands, pass by pass -/

/-- Settles O25, by the lanes of the row pass, the column pass and the final rounding. -/
theorem fdctRunsRowsThenColumns : Obligations.FdctRunsRowsThenColumns := by
  refine ⟨fun p h => by rw [chenNetwork_default h], fun s bd bs hf => ?_⟩
  exact ⟨rowPass _ (s.block bs), colPass _ _, _, rowPass_get _ _, colPass_get _ _,
    fun k => (roundLanes_get 8 _ k).trans (congrArg wrap16 (rhaz_eight _)), exec_fdct hf bd bs⟩

/-- Settles O26, by the lanes of the column pass, the row pass and the final rounding. -/
theorem idctRunsColumnsThenRows : Obligations.IdctRunsColumnsThenRows := by
  refine ⟨fun p h => by rw [chenNetwork_default h], fun s bd bs hf => ?_⟩
  exact ⟨colPass _ (s.block bs), rowPass _ _, _, colPass_get _ _, rowPass_get _ _,
    fun k => (roundLanes_get 16 _ k).trans (congrArg wrap16 (rhaz_sixteen _)), exec_idct hf bd bs⟩

/-! Passes without wrapping -/

/-- What a row pass computes before it stores the lanes. -/
def rowValues (f : Vector Int 8 → Vector Int 8) (b : Block) (r c : Fin 8) : Int := (f (rowOf b r))[c]

/-- What a column pass computes from the values `t` before it stores the lanes. -/
def colValues (f : Vector Int 8 → Vector Int 8) (t : Fin 8 → Fin 8 → Int) (r c : Fin 8) : Int :=
  (f (Vector.ofFn (fun k => t k c)))[r]

theorem wrap16_toInt_of_abs_le {x : Int} (h : |x| ≤ 32767) : (wrap16 x).toInt = x := by
  obtain ⟨hlo, hhi⟩ := abs_le.1 h
  exact wrap16_toInt x (le_trans (by decide) hlo) hhi

/-- The division by 8 brings a value of 16 bits to a value of 16 bits (41_transform.md R125). -/
theorem abs_rhaz_eight_le {x : Int} (h : |x| ≤ 32767) : |rhaz x 8| ≤ 32767 := by
  have hsign : Int.sign 8 = 1 := rfl
  rw [abs_le] at h ⊢
  rw [rhaz_eight]
  split
  · rw [Int.tdiv_eq_ediv, hsign]
    omega
  · rw [Int.tdiv_eq_ediv_of_nonneg (by omega)]
    omega

/-- A column of what a row pass stores holds the values themselves where they fit in 16 bits. -/
theorem colOf_rowPass {f : Vector Int 8 → Vector Int 8} {b : Block} (h : ∀ r c : Fin 8, |rowValues f b r c| ≤ 32767)
    (c : Fin 8) : colOf (rowPass f b) c = Vector.ofFn (fun r => rowValues f b r c) :=
  congrArg Vector.ofFn (funext fun r =>
    (congrArg BitVec.toInt (rowPass_get f b r c)).trans (wrap16_toInt_of_abs_le (h r c)))

theorem forwardDct_get (net : ChenNetwork) (b : Block) (r c : Fin 8) :
    (forwardDct net b)[8 * r.val + c.val]'(by omega) =
      wrap16 (rhaz (wrap16 (net.fwd .second (colOf (rowPass (net.fwd .first) b) c))[r]).toInt 8) := by
  rw [← colPass_get]
  exact roundLanes_get 8 _ ⟨8 * r.val + c.val, by omega⟩

/-- FDCT where no value between the passes and none before the final division leaves 16 bits: nothing wraps. -/
theorem forwardDct_exact {net : ChenNetwork} {b : Block}
    (h1 : ∀ r c : Fin 8, |rowValues (net.fwd .first) b r c| ≤ 32767)
    (h2 : ∀ r c : Fin 8, |colValues (net.fwd .second) (rowValues (net.fwd .first) b) r c| ≤ 32767) (r c : Fin 8) :
    ((forwardDct net b)[8 * r.val + c.val]'(by omega)).toInt =
      rhaz (colValues (net.fwd .second) (rowValues (net.fwd .first) b) r c) 8 := by
  rw [forwardDct_get, colOf_rowPass h1, ← colValues, wrap16_toInt_of_abs_le (h2 r c),
    wrap16_toInt_of_abs_le (abs_rhaz_eight_le (h2 r c))]

/-! The range on pixels and pixel differences -/

theorem rowValues_pixels {b : Block} (h : ∀ k : Fin 64, -256 ≤ (b[k]).toInt ∧ (b[k]).toInt ≤ 255) (r c : Fin 8) :
    |rowValues (fwd1d cosines .first) b r c| ≤ 5792 :=
  abs_le.2 (fwd1d_first_range _ (fun k => by
    simpa [rowOf] using h ⟨8 * r.val + k.val, by omega⟩) c)

theorem colValues_pixels {t : Fin 8 → Fin 8 → Int} (h : ∀ r c : Fin 8, |t r c| ≤ 5792) (r c : Fin 8) :
    |colValues (fwd1d cosines .second) t r c| ≤ 16399 :=
  abs_le.2 (fwd1d_second_range _ (fun k => by simpa using abs_le.1 (h k c)) r)

/-- Settles O27: the ranges of the two passes fit in 16 bits, so the passes store what they compute. -/
theorem fdctPixelsStayInRange : Obligations.FdctPixelsStayInRange := by
  intro s bd bs hf hnet hcos hlanes
  have h1 := rowValues_pixels hlanes
  have h2 := colValues_pixels h1
  have hcos : s.par.cos = cosines := hcos
  rw [hcos]
  refine ⟨rowValues (fwd1d cosines .first) (s.block bs), _, _,
    fun r c => ⟨rfl, (h1 r c).trans_lt (by decide)⟩, fun r c => ⟨rfl, (h2 r c).trans_lt (by decide)⟩,
    fun r c => ?_, exec_fdct hf bd bs⟩
  rw [chenNetwork_default hnet, hcos]
  exact forwardDct_exact (net := ⟨fwd1d cosines, inv1d cosines⟩) (fun r c => (h1 r c).trans (by decide))
    (fun r c => (h2 r c).trans (by decide)) r c

end Sys2Proof.Machine
end

section
/-!
The quantizer (42_quantizer.md R141 to R151): what QUANT and DEQUANT leave of every lane, the size of a level, and how
close a level reconstructs to the value it stands for.
-/

namespace Sys2Proof.Machine

/-! QUANT (42_quantizer.md R141 to R145) -/

theorem intraDcQuant_default {p : Params} (h : p.intraDcQuant = .default) (v : Int) :
    intraDcQuant p v = intraDcQuantDefault v := by
  rw [intraDcQuant, h]

/-- The lane rules in one choice; `qPm1` is the rules' spelling of `quantOffset`. -/
theorem quantLane_eq (p : Params) (i : Coding) (q k : Nat) (v : Int) :
    quantLane p i q k v =
      if i = .intra ∧ k = 0 then intraDcQuant p v
      else if i = .intra then qPm1 v q
      else if q % 2 = 1 then Int.tdiv v (2 * q)
      else qPm1 v q := by
  cases i with
  | intra =>
    by_cases hk : k = 0
    · rw [if_pos ⟨rfl, hk⟩, quantLane, if_pos hk]
    · rw [if_neg (hk ·.2), if_pos rfl, quantLane, if_neg hk]
      rfl
  | inter => rfl

theorem transmitFlag_eq (p : Params) (i : Coding) (n : Nat) :
    transmitFlag p i n = decide (i = .intra ∨ (n : Int) > p.cbpThreshold) := by
  cases i with
  | intra => rfl
  | inter => simp [transmitFlag]

theorem quantLanes_get (p : Params) (i : Coding) (q : Nat) (b : Block) (k : Fin 64) :
    (quantLanes p i q b)[k] = quantLane p i q k.val (b[k]).toInt :=
  Vector.getElem_ofFn k.isLt

theorem exec_quant {s : State} (hf : s.status.fault = false) (b : Fin 8) (i : Coding) {q : Nat} (hq : q ≠ 0) :
    exec (.quant b i q) s = .next ((s.setBlock b ((quantLanes s.par i q (s.block b)).map wrap16)).setRes 0
      (BitVec.ofNat 32 (boolResult (transmitFlag s.par i (quantSum (quantLanes s.par i q (s.block b))))))) :=
  gated_ok hf (by rw [quantBody, M.raiseIf_bind, if_neg hq]; rfl)

theorem exec_quant_zero {s : State} (hf : s.status.fault = false) (b : Fin 8) (i : Coding) :
    exec (.quant b i 0) s = .next (s.faulted .argumentError .quant) :=
  gated_refuses hf (by rw [quantBody, M.raiseIf_bind, if_pos rfl])

/-- Settles O28, by the rule of each lane and the sum of the magnitudes. -/
theorem quantLanesAndFlag : Obligations.QuantLanesAndFlag := by
  refine ⟨fun s b i q hf hq => ?_, fun s b i hf => exec_quant_zero hf b i, fun p v h => intraDcQuant_default h v⟩
  refine ⟨fun k => (quantLanes s.par i q (s.block b))[k], (quantLanes s.par i q (s.block b)).map wrap16,
    fun k => (quantLanes_get s.par i q (s.block b) k).trans (quantLane_eq s.par i q k.val _),
    fun k => Vector.getElem_map wrap16 k.isLt, ?_⟩
  rw [exec_quant hf b i hq, transmitFlag_eq, ofNat_boolResult, quantSum_eq]
  rfl

/-! The level of a value -/

/-- `l` is a level of `v` in steps of `2 * q`: on the side of `v`, at most 1 beyond it and less than a step short. -/
structure IsLevel (q : Nat) (v l : Int) : Prop where
  of_pos : 0 < v → 0 ≤ l ∧ 2 * q * l ≤ v + 1 ∧ v < 2 * q * l + 2 * q
  of_neg : v < 0 → l ≤ 0 ∧ v - 1 ≤ 2 * q * l ∧ 2 * q * l - 2 * q < v
  of_zero : v = 0 → l = 0

theorem isLevel_quantOffset {q : Nat} (hq : 1 ≤ q) (v : Int) : IsLevel q v (quantOffset v q) := by
  obtain ⟨hpos, hneg, hzero⟩ := quantOffset_bounds v q hq
  exact ⟨hpos, hneg, hzero⟩

theorem isLevel_tdiv {q : Nat} (hq : 1 ≤ q) (v : Int) : IsLevel q v (Int.tdiv v (2 * q)) where
  of_pos hv := by
    have := tdiv_nonneg_bounds v (2 * q) hv.le (by omega)
    omega
  of_neg hv := by
    have := tdiv_nonpos_bounds v (2 * q) hv.le (by omega)
    omega
  of_zero hv := by rw [hv, Int.zero_tdiv]

/-- Every lane but the intra DC becomes a level of its value (42_quantizer.md R142, R143). -/
theorem isLevel_quantLane (p : Params) {i : Coding} {q k : Nat} (hq : 1 ≤ q) (hk : ¬(i = .intra ∧ k = 0)) (v : Int) :
    IsLevel q v (quantLane p i q k v) := by
  rw [quantLane_eq, if_neg hk]
  split
  · exact isLevel_quantOffset hq v
  · split
    · exact isLevel_tdiv hq v
    · exact isLevel_quantOffset hq v

/-! A quantized value lies between 0 and the lane (42_quantizer.md R145) -/

theorem IsLevel.mem_uIcc {q : Nat} {v l : Int} (h : IsLevel q v l) (hq : 1 ≤ q) : l ∈ Set.uIcc 0 v := by
  have hq : (1 : Int) ≤ q := by exact_mod_cast hq
  rw [Set.mem_uIcc]
  rcases lt_trichotomy v 0 with hv | hv | hv
  · obtain ⟨hl, hstep, -⟩ := h.of_neg hv
    exact .inr ⟨by nlinarith, hl⟩
  · exact .inl (by rw [hv, h.of_zero hv]; exact ⟨le_rfl, le_rfl⟩)
  · obtain ⟨hl, hstep, -⟩ := h.of_pos hv
    exact .inl ⟨hl, by nlinarith⟩

theorem intraDcQuantDefault_mem_uIcc (v : Int) : intraDcQuantDefault v ∈ Set.uIcc 0 v := by
  rw [Set.mem_uIcc, intraDcQuantDefault, tdiv, tdiv]
  split
  · have := tdiv_nonneg_bounds (v + 4) 8 (by omega) (by decide)
    omega
  · have := tdiv_nonpos_bounds (v - 3) 8 (by omega) (by decide)
    omega

theorem quantLane_mem_uIcc {p : Params} (hdc : p.intraDcQuant = .default) (i : Coding) {q : Nat} (hq : 1 ≤ q)
    (k : Nat) (v : Int) : quantLane p i q k v ∈ Set.uIcc 0 v := by
  by_cases hk : i = .intra ∧ k = 0
  · rw [quantLane_eq, if_pos hk, intraDcQuant_default hdc]
    exact intraDcQuantDefault_mem_uIcc v
  · exact (isLevel_quantLane p hq hk v).mem_uIcc hq

/-- What lies between 0 and a lane fits in a lane. -/
theorem wrap16_toInt_of_mem_uIcc {v : Lane} {x : Int} (hx : x ∈ Set.uIcc 0 v.toInt) : (wrap16 x).toInt = x := by
  have hlo := v.le_toInt
  have hhi := v.toInt_lt
  rw [Set.mem_uIcc] at hx
  exact wrap16_toInt x (by omega) (by omega)

/-- Settles O29: a quantized value lies between 0 and the lane. -/
theorem quantNeverGrows : Obligations.QuantNeverGrows := by
  intro p i q k v hdc hq
  have hmem := quantLane_mem_uIcc hdc i (Nat.one_le_iff_ne_zero.2 hq) k v.toInt
  exact ⟨by simpa using Set.abs_sub_left_of_mem_uIcc hmem, wrap16_toInt_of_mem_uIcc hmem⟩

/-! DEQUANT (42_quantizer.md R146 to R148) -/

theorem deqClip_none {p : Params} (h : p.deqClip = none) (w : Int) : deqClip p w = w := by
  rw [deqClip, h]

theorem deqClip_some {p : Params} {lo hi : Int} (h : p.deqClip = some (lo, hi)) (w : Int) :
    deqClip p w = clamp lo hi w := by
  rw [deqClip, h]

/-- The block that DEQUANT leaves of block `t`. -/
def dequantLanes (p : Params) (i : Coding) (q : Nat) (t : Block) : Block :=
  Vector.ofFn (fun k => wrap16 (deqLane p i q k.val (t[k]).toInt))

theorem dequantLanes_get (p : Params) (i : Coding) (q : Nat) (t : Block) (k : Fin 64) :
    (dequantLanes p i q t)[k] = wrap16 (deqLane p i q k.val (t[k]).toInt) :=
  Vector.getElem_ofFn k.isLt

theorem exec_dequant {s : State} (hf : s.status.fault = false) (b : Fin 8) (i : Coding) {q : Nat} (hq : q ≠ 0) :
    exec (.dequant b i q) s = .next (s.setBlock b (dequantLanes s.par i q (s.block b))) :=
  gated_ok hf (by rw [dequantBody, M.raiseIf_bind, if_neg hq]; rfl)

theorem exec_dequant_zero {s : State} (hf : s.status.fault = false) (b : Fin 8) (i : Coding) :
    exec (.dequant b i 0) s = .next (s.faulted .argumentError .dequant) :=
  gated_refuses hf (by rw [dequantBody, M.raiseIf_bind, if_pos rfl])

/-- Settles O30, by the formula of a lane without a clip. -/
theorem dequantReconstructs : Obligations.DequantReconstructs := by
  refine ⟨fun s b i q hf hq hclip => ?_, fun s b i hf => exec_dequant_zero hf b i⟩
  refine ⟨_, fun k => (dequantLanes_get _ _ _ _ k).trans ?_, exec_dequant hf b i hq⟩
  rw [deqLane, deqClip_none hclip, deq, deqAdjust_eq]
  rfl

/-- Settles O31, by the clip of a lane. -/
theorem dequantClipsToRange : Obligations.DequantClipsToRange := by
  intro s b i q lo hi hf hq hclip
  refine ⟨_, _, fun k => rfl, fun k => (dequantLanes_get _ _ _ _ k).trans ?_, exec_dequant hf b i hq⟩
  rw [deqLane, deqClip_some hclip, clamp]
  rfl

/-! A level and its reconstruction (42_quantizer.md R151) -/

theorem deqAdjust_bounds (p : Params) (q : Nat) : 0 ≤ deqAdjust p q ∧ deqAdjust p q ≤ 1 := by
  rw [deqAdjust_eq]
  split <;> decide

theorem deq_of_pos (p : Params) {l : Int} (hl : 0 < l) (q : Nat) : deq p l q = 2 * q * l + q - deqAdjust p q := by
  rw [deq, if_pos hl]
  ring

theorem deq_of_neg (p : Params) {l : Int} (hl : l < 0) (q : Nat) : deq p l q = 2 * q * l - q + deqAdjust p q := by
  rw [deq, if_neg hl.not_gt, if_pos hl]
  ring

theorem deq_zero (p : Params) (q : Nat) : deq p 0 q = 0 := rfl

/-- A nonzero level reconstructs on the side of the value it is a level of, within one step of it. -/
theorem IsLevel.deq_close {q : Nat} {v l : Int} (h : IsLevel q v l) (hq : 1 ≤ q) (p : Params) (hl : l ≠ 0) :
    Int.sign (deq p l q) = Int.sign v ∧ |deq p l q - v| ≤ 2 * q := by
  obtain ⟨hadj0, hadj1⟩ := deqAdjust_bounds p q
  have hq : (1 : Int) ≤ q := by exact_mod_cast hq
  rcases lt_trichotomy v 0 with hv | hv | hv
  · obtain ⟨hle, hlo, hhi⟩ := h.of_neg hv
    have hneg : l < 0 := by omega
    have hprod : 2 * q * l < 0 := mul_neg_of_pos_of_neg (by omega) hneg
    rw [deq_of_neg p hneg, abs_le, Int.sign_eq_neg_one_of_neg hv]
    exact ⟨Int.sign_eq_neg_one_of_neg (by omega), by omega, by omega⟩
  · exact absurd (h.of_zero hv) hl
  · obtain ⟨hge, hhi, hlo⟩ := h.of_pos hv
    have hpos : 0 < l := by omega
    have hprod : 0 < 2 * q * l := mul_pos (by omega) hpos
    rw [deq_of_pos p hpos, abs_le, Int.sign_eq_one_of_pos hv]
    exact ⟨Int.sign_eq_one_of_pos (by omega), by omega, by omega⟩

/-- Settles O32: every lane that the rule speaks of becomes a level of its value. -/
theorem reconstructionIsClose : Obligations.ReconstructionIsClose := by
  intro p i q k v hq _ _ hk
  exact ⟨(isLevel_quantLane p hq (fun h => hk h.1 h.2) v).deq_close hq p, fun h => by rw [h, deq_zero]⟩

end Sys2Proof.Machine
end

section
/-!
The entropy coder (43_entropy.md R160 to R184): what VLCENC, VLCDEC, ENCBLK and DECBLK do, and what a block is after it
was written and read back.
-/

namespace Sys2Proof.Machine

/-! The table commands (43_entropy.md R170, R171, R178, R179) -/

theorem exec_vlcenc (tbl : TableId) (val : Nat) (s : State) :
    exec (.vlcenc tbl val) s = gated .vlcenc (vlcEnc (tableOf s.par tbl) val) s := rfl

theorem vlcWord?_eq_none {t : VlcTable} {x : Nat} (h : ∀ e ∈ t, e.value ≠ x) : vlcWord? t x = none := by
  rw [vlcWord?, List.find?_eq_none.2 (by simpa using h), Option.map_none]

/-- Settles O33: the table has one code word for a value with an entry, and none for another. -/
theorem vlcencWritesCodeWord : Obligations.VlcencWritesCodeWord := by
  intro s tbl hf hp
  refine ⟨fun e he hw => ?_, fun val hval => ?_⟩
  · rw [exec_vlcenc]
    exact gated_writes (vlcEnc_emits (vlcOk_word (vlcOk_tableOf hp tbl) he)) .vlcenc hf hw
  · exact gated_refuses hf (vlcEnc_absent (vlcWord?_eq_none hval) s)

/-- A fault taken after some bits were consumed. -/
theorem gated_stops {op : Opcode} {body : M Unit} {s : State} {c : Cause} {n : Nat} (hf : s.status.fault = false)
    (h : body s = .error c (s.consumed n)) : gated op body s = .next ((s.consumed n).faulted c op) := by
  rw [gated_error hf h, State.raiseFault_of_clear (s.consumed n) c op hf]

theorem exec_vlcdec_ok {s : State} (hf : s.status.fault = false) {tbl : TableId} {x n : Nat}
    (h : vlcDec (tableOf s.par tbl) s = .ok x (s.consumed n)) :
    exec (.vlcdec tbl) s = .next ((s.consumed n).setRes 0 (BitVec.ofNat 32 x)) :=
  gated_ok hf (by rw [vlcdecBody, M.look_bind, M.bind_ok h, writeRes_run])

theorem exec_vlcdec_error {s : State} (hf : s.status.fault = false) {tbl : TableId} {c : Cause} {n : Nat}
    (h : vlcDec (tableOf s.par tbl) s = .error c (s.consumed n)) :
    exec (.vlcdec tbl) s = .next ((s.consumed n).faulted c .vlcdec) :=
  gated_stops hf (by rw [vlcdecBody, M.look_bind, M.bind_error h])

/-- Settles O34: the code word of an entry is read as the entry's value. -/
theorem vlcdecReturnsValue : Obligations.VlcdecReturnsValue := by
  intro s tbl hf hp e he hs
  have ht := vlcOk_tableOf hp tbl
  have hread := vlcDec_reads ht (vlcOk_word ht he) s hs
  rw [bits_length] at hread
  exact exec_vlcdec_ok hf hread

theorem vlcOk_sized {t : VlcTable} (ht : vlcOk t = true) : vlcSized t = true := by
  rw [vlcOk, Bool.and_eq_true] at ht
  exact ht.1

/-- The source ends after the bits that are still unread. -/
theorem sourceEnds_ahead {s : State} (h : s.ReadInv) :
    s.SourceEnds (s.ahead (8 * s.src.length - s.rpos.toNat)) := by
  obtain ⟨h8, hpos⟩ := h
  have hlen : (s.ahead (8 * s.src.length - s.rpos.toNat)).length = 8 * s.src.length - s.rpos.toNat := by
    simp [State.ahead]
  refine ⟨⟨h8, ?_, ?_⟩, ?_⟩
  · omega
  · rw [hlen, State.ahead]
  · omega

/-- A walk that ends is what `vlc_dec` does. -/
theorem vlcDec_walk {t : VlcTable} {bs : List Bool} {s : State} (hs : s.SourceHolds bs) {r : Option Nat} {n : Nat}
    (hw : vlcWalk t (maxCodeLen t + 1) 0 0 bs = some (r, n)) : vlcDec t s = walkResult s n r :=
  (vlcDecLoop_walk t _ 0 0 bs s hs r n hw).2

/-- Settles O35: the three ends that a walk over the rest of the source can have. -/
theorem vlcdecOutcomes : Obligations.VlcdecOutcomes := by
  intro s tbl hf hp hr
  have hsized := vlcOk_sized (vlcOk_tableOf hp tbl)
  obtain ⟨hs, hend⟩ := sourceEnds_ahead hr
  obtain ⟨e, he⟩ := List.exists_mem_of_ne_nil _ (tableOf_ne_nil hp tbl)
  have hwalk := vlcWalk_outcomes _ hsized _ [] (s.ahead (8 * s.src.length - s.rpos.toNat)) (Nat.zero_add _)
    ⟨e, he, List.nil_prefix, (vlcSized_mem hsized e he).2⟩
  split at hwalk
  · rename_i hw
    obtain ⟨f, hmem, rfl, rfl, hpre⟩ := hwalk
    exact .inl ⟨f, hmem, SourceHolds.of_prefix hs hpre, exec_vlcdec_ok hf (vlcDec_walk hs hw)⟩
  · rename_i hw
    obtain ⟨q, hpre, rfl, hne, hnone, hinit⟩ := hwalk
    exact .inr (.inl ⟨q, SourceHolds.of_prefix hs hpre, hne, hnone, hinit, exec_vlcdec_error hf (vlcDec_walk hs hw)⟩)
  · rename_i hw
    exact .inr (.inr ⟨_, hs, hend, hwalk, exec_vlcdec_error hf (vlcDecLoop_eof _ _ 0 0 _ s hs hend hw)⟩)

/-! The DC field (43_entropy.md R173, R175, R184) -/

theorem dcUnmap_dcMap (v : Int) : dcUnmap (dcMap v).toNat = max 1 (min 254 v) := by
  rw [dcMap_eq, Int.toNat_natCast, dcUnmap_dcField]

/-- Settles O36: the map and its inverse come to the clamp, which leaves the values 1 to 254. -/
theorem dcMapRoundTrip : Obligations.DcMapRoundTrip := by
  refine ⟨fun v h1 h2 => ?_, fun v => ?_⟩
  · rw [dcUnmap_dcMap]
    omega
  · have hrange := dcField_range v
    rw [dcMap_eq]
    omega

/-! ENCBLK (43_entropy.md R176, R180 to R182) -/

theorem block_eq_zero_iff (t : Block) : t = Vector.replicate 64 0 ↔ ∀ k : Fin 64, t[k] = 0 := by
  constructor
  · rintro rfl k
    exact Vector.getElem_replicate k.isLt
  · intro h
    exact Vector.ext fun k hk => (h ⟨k, hk⟩).trans (Vector.getElem_replicate hk).symm

/-- The bits that the encoder makes of a block are the stream of its DC field and its coefficients. -/
theorem blockBits_eq (p : Params) (i : Coding) (b : Block) :
    blockBits p i b = blockStream p i (dcField (b[0]).toInt) (blockCoefs p i b) := by
  cases i with
  | intra =>
    rw [blockBits, coefsBits_eq, dcMap_eq, Int.toNat_natCast]
    rfl
  | inter =>
    rw [blockBits, coefsBits_eq]
    rfl

theorem encblkBody_run (b : Fin 8) (i : Coding) (s : State) :
    encblkBody b i s = if i = .inter ∧ s.block b = Vector.replicate 64 0 then .error .unencodableSymbol s
      else putcode (blockBits s.par i (s.block b)) s := by
  rw [encblkBody, M.look_bind, M.raiseIf_bind]
  rfl

/-- Settles O37: past the check of an inter block of zeros the command is `putcode` of the block's stream. -/
theorem encblkWritesBlock : Obligations.EncblkWritesBlock := by
  refine ⟨fun p hp l => scan_zigzag hp l.val l.isLt, fun s b i hf => ⟨fun hne hw => ?_, fun hi hz => ?_⟩⟩
  · have hrun : exec (.encblk b i) s = gated .encblk (putcode (blockBits s.par i (s.block b))) s :=
      gated_congr (by rw [encblkBody_run, if_neg (fun h => hne ⟨h.1, (block_eq_zero_iff _).1 h.2⟩)])
    rw [hrun, blockBits_eq]
    exact gated_writes (Emits.putcode _) .encblk hf hw
  · exact gated_refuses hf (by rw [encblkBody_run, if_pos ⟨hi, (block_eq_zero_iff _).2 hz⟩])

/-! DECBLK on a stream of coefficients (43_entropy.md R174, R175, R177) -/

theorem coefStream_t1 (p : Params) (cs : List Coef) : coefStream p p.tblT1 cs = cs.flatMap (Coef.bits p.tblT1) := by
  cases cs <;> rfl

theorem coefStream_cons (p : Params) (t : VlcTable) (c : Coef) (cs : List Coef) :
    coefStream p t (c :: cs) = c.bits t ++ coefStream p p.tblT1 cs := by
  rw [coefStream_t1, coefStream]

/-- One round of the loop of `DECBLK`, with the table that the kind of block fixes for its first coefficient. -/
theorem decLoop_first {p : Params} (hp : p.wf = true) {i : Coding} {c : Coef} (hc : c.ok (firstTable p i))
    (fuel k : Nat) (b : Block) {s : State} (hs : s.SourceHolds (c.bits (firstTable p i))) :
    decLoop p (fuel + 1) (i == .inter) k b s =
      if k + c.run > 63 then .error .corruptHuffmanCode (s.consumed (c.bits (firstTable p i)).length)
      else decLoop p fuel false (k + c.run + 1) (b.setIfInBounds (scan p (k + c.run)) (wrap16 c.level))
        (s.consumed (c.bits (firstTable p i)).length) := by
  cases i with
  | intra => exact decLoop_coef hp (first := false) hc fuel k b hs
  | inter => exact decLoop_coef hp (first := true) hc fuel k b hs

/-- A list of coefficients whose last one lies beyond position 63 (43_entropy.md R177). -/
theorem decLoop_overrun {p : Params} (hp : p.wf = true) {i : Coding} {cs : List Coef}
    (hhead : ∀ c, cs.head? = some c → c.ok (firstTable p i)) (htail : ∀ c ∈ cs.tail, c.ok p.tblT1) (hne : cs ≠ [])
    {fuel k : Nat} (hfuel : cs.length ≤ fuel) (hin : positionAfter k cs.dropLast ≤ 64) (hout : 64 < positionAfter k cs)
    (b : Block) {s : State} (hs : s.SourceHolds (coefStream p (firstTable p i) cs)) :
    decLoop p fuel (i == .inter) k b s =
      .error .corruptHuffmanCode (s.consumed (coefStream p (firstTable p i) cs).length) := by
  induction cs generalizing i fuel k b s with
  | nil => exact absurd rfl hne
  | cons c cs ih =>
    obtain ⟨fuel, rfl⟩ := Nat.exists_eq_succ_of_ne_zero (show fuel ≠ 0 by simp at hfuel; omega)
    rw [coefStream_cons] at hs ⊢
    obtain ⟨hs1, hs2⟩ := SourceHolds.split hs
    rw [decLoop_first hp (hhead c rfl) fuel k b hs1]
    rw [positionAfter_cons] at hout
    by_cases hlast : cs = []
    · subst hlast
      have hk : k + c.run > 63 := by simp [positionAfter] at hout; omega
      rw [if_pos hk, coefStream, List.append_nil]
    · rw [List.dropLast_cons_of_ne_nil hlast, positionAfter_cons] at hin
      have hk := positionAfter_ge (k + c.run + 1) cs.dropLast
      have hrest := ih (i := .intra) (fun d hd => htail d (List.mem_of_mem_head? hd))
        (fun d hd => htail d (List.mem_of_mem_tail hd)) hlast (by simpa using hfuel) hin hout
        (b.setIfInBounds (scan p (k + c.run)) (wrap16 c.level)) hs2
      rw [if_neg (by omega), List.length_append, ← State.consumed_consumed]
      exact hrest

/-- The bits of the DC field, which an intra block has. -/
def dcBits : Coding → Nat → List Bool
  | .intra, d => bits 8 d
  | .inter, _ => []

theorem blockStream_eq (p : Params) (i : Coding) (d : Nat) (cs : List Coef) :
    blockStream p i d cs = dcBits i d ++ (coefStream p (firstTable p i) cs ++ codeWord p.tblT1 0) := by
  rw [← List.append_assoc]
  cases i <;> rfl

/-- `DECBLK` up to its first coefficient: the block with the DC field of an intra block (43_entropy.md R177). -/
def readStart : Coding → M Block
  | .intra => do
    let d ← getbits 8
    pure (blockStart .intra d)
  | .inter => pure (blockStart .inter 0)

/-- `DECBLK` up to the write of the register (43_entropy.md R177). -/
def readBlock (p : Params) (i : Coding) : M Block := do
  let b ← readStart i
  decLoop p 65 (i == .inter) (firstPosition i) b

theorem wrap16_dcUnmap (d : Nat) : wrap16 (dcUnmap d) = BitVec.ofNat 16 (if d = 255 then 128 else d) := by
  unfold dcUnmap
  split
  · rfl
  · exact BitVec.ofInt_natCast 16 d

theorem exec_decblk (b : Fin 8) (i : Coding) (s : State) :
    exec (.decblk b i) s = gated .decblk (do let t ← readBlock s.par i; writeBlock b t) s := by
  refine gated_congr ?_
  cases i with
  | intra =>
    simp only [decblkBody, readBlock, readStart, bind_assoc, pure_bind, M.look_bind, wrap16_dcUnmap]
    rfl
  | inter => rfl

theorem exec_decblk_ok {s : State} (hf : s.status.fault = false) {b : Fin 8} {i : Coding} {t : Block} {n : Nat}
    (h : readBlock s.par i s = .ok t (s.consumed n)) :
    exec (.decblk b i) s = .next ((s.consumed n).setBlock b t) := by
  rw [exec_decblk]
  exact gated_ok hf (by rw [M.bind_ok h, writeBlock_run])

theorem exec_decblk_error {s : State} (hf : s.status.fault = false) {b : Fin 8} {i : Coding} {c : Cause} {n : Nat}
    (h : readBlock s.par i s = .error c (s.consumed n)) :
    exec (.decblk b i) s = .next ((s.consumed n).faulted c .decblk) := by
  rw [exec_decblk]
  exact gated_stops hf (M.bind_error h)

theorem readStart_reads (i : Coding) {d : Nat} (hd : d < 256) : Reads (readStart i) (dcBits i d) (blockStart i d) := by
  cases i with
  | intra =>
    have hread := (Reads.getbits_bits 8 d).bind (f := fun d => pure (blockStart .intra d)) (Reads.pure _)
    rw [show d % 2 ^ 8 = d from Nat.mod_eq_of_lt hd, List.append_nil] at hread
    exact hread
  | inter => exact Reads.pure _

theorem readStart_stops (i : Coding) (d : Nat) : Stops (readStart i) (dcBits i d) := by
  cases i with
  | intra =>
    have hstop := Stops.bind (f := fun d => pure (blockStart .intra d)) (Reads.getbits_bits 8 d)
      (Stops.getbits_bits 8 d) (Stops.nil _)
    rw [List.append_nil] at hstop
    exact hstop
  | inter => exact Stops.nil _

/-! DECBLK on a list of coefficients that a stream can carry -/

/-- The loop on coefficients in `TBL_T1` up to the end of the block. -/
theorem decLoop_t1_reads {p : Params} (hp : p.wf = true) {cs : List Coef} (hc : ∀ c ∈ cs, c.ok p.tblT1) {fuel k : Nat}
    (hfuel : cs.length < fuel) (hk : positionAfter k cs ≤ 64) (b : Block) :
    Reads (decLoop p fuel false k b) (coefStream p p.tblT1 cs ++ codeWord p.tblT1 0) (placeCoefs p k cs b) := by
  intro s hs
  rw [coefStream_t1] at hs ⊢
  obtain ⟨hs1, hs2⟩ := SourceHolds.split hs
  rw [decLoop_coefs hp cs hc fuel k b hfuel.le hk hs1,
    show fuel - cs.length = fuel - cs.length - 1 + 1 by omega, decLoop_eob hp _ _ _ hs2, State.consumed_consumed,
    List.length_append]

section Carried

variable {p : Params} (hp : p.wf = true) {i : Coding} {cs : List Coef}
  (hhead : ∀ c, cs.head? = some c → c.ok (firstTable p i)) (htail : ∀ c ∈ cs.tail, c.ok p.tblT1)
  (hne : i = .inter → cs ≠ [])

include hp hhead htail

/-- A stream whose last coefficient lies beyond position 63 (43_entropy.md R177). -/
theorem readBlock_overrun {d : Nat} (hd : d < 256) (hcs : cs ≠ [])
    (hin : positionAfter (firstPosition i) cs.dropLast ≤ 64) (hout : positionAfter (firstPosition i) cs > 64)
    {s : State} (hs : s.SourceHolds (dcBits i d ++ coefStream p (firstTable p i) cs)) :
    readBlock p i s =
      .error .corruptHuffmanCode (s.consumed (dcBits i d ++ coefStream p (firstTable p i) cs).length) := by
  obtain ⟨hs1, hs2⟩ := SourceHolds.split hs
  have hlen := positionAfter_ge (firstPosition i) cs.dropLast
  rw [List.length_dropLast] at hlen
  rw [readBlock, M.bind_ok (readStart_reads i hd s hs1),
    decLoop_overrun hp hhead htail hcs (by omega) hin hout _ hs2, State.consumed_consumed, List.length_append]

include hne

/-- The loop on a whole stream that stays within the 64 positions: it places the coefficients and meets the end of
the block. -/
theorem decLoop_reads {fuel k : Nat} (hfuel : cs.length < fuel) (hk : positionAfter k cs ≤ 64) (b : Block) :
    Reads (decLoop p fuel (i == .inter) k b) (coefStream p (firstTable p i) cs ++ codeWord p.tblT1 0)
      (placeCoefs p k cs b) := by
  cases cs with
  | nil =>
    cases i with
    | intra => exact decLoop_t1_reads hp (by simp) hfuel hk b
    | inter => exact absurd rfl (hne rfl)
  | cons c cs =>
    intro s hs
    obtain ⟨fuel, rfl⟩ := Nat.exists_eq_succ_of_ne_zero (show fuel ≠ 0 by omega)
    rw [positionAfter_cons] at hk
    have hge := positionAfter_ge (k + c.run + 1) cs
    rw [coefStream_cons, List.append_assoc] at hs ⊢
    obtain ⟨hs1, hs2⟩ := SourceHolds.split hs
    rw [decLoop_first hp (hhead c rfl) fuel k b hs1, if_neg (by omega),
      decLoop_t1_reads hp (cs := cs) htail (by simpa using hfuel) hk _ _ hs2, State.consumed_consumed,
      ← List.length_append, placeCoefs]

/-- The loop on a source that ends inside the stream (60_exceptions.md R326(b)). -/
theorem decLoop_stream_stops {fuel k : Nat} (hfuel : cs.length < fuel) (hk : positionAfter k cs ≤ 64) (b : Block) :
    Stops (decLoop p fuel (i == .inter) k b) (coefStream p (firstTable p i) cs ++ codeWord p.tblT1 0) := by
  cases cs with
  | nil =>
    cases i with
    | intra => exact decLoop_stops hp [] (by simp) fuel k b hfuel hk
    | inter => exact absurd rfl (hne rfl)
  | cons c cs =>
    obtain ⟨fuel, rfl⟩ := Nat.exists_eq_succ_of_ne_zero (show fuel ≠ 0 by omega)
    rw [positionAfter_cons] at hk
    have hge := positionAfter_ge (k + c.run + 1) cs
    have hrest := fun b => decLoop_stops hp cs htail fuel (k + c.run + 1) b (by simpa using hfuel) hk
    rw [coefStream, List.append_assoc]
    cases i with
    | intra => exact decLoop_coef_stops hp (first := false) (hhead c rfl) fuel k b (by omega) hrest
    | inter => exact decLoop_coef_stops hp (first := true) (hhead c rfl) fuel k b (by omega) hrest

variable (hk : positionAfter (firstPosition i) cs ≤ 64)

include hk

theorem readBlock_reads {d : Nat} (hd : d < 256) :
    Reads (readBlock p i) (blockStream p i d cs) (placeCoefs p (firstPosition i) cs (blockStart i d)) := by
  have hlen := positionAfter_ge (firstPosition i) cs
  rw [blockStream_eq]
  exact (readStart_reads i hd).bind (decLoop_reads hp hhead htail hne (by omega) hk _)

theorem readBlock_stops {d : Nat} (hd : d < 256) : Stops (readBlock p i) (blockStream p i d cs) := by
  have hlen := positionAfter_ge (firstPosition i) cs
  rw [blockStream_eq]
  exact (readStart_stops i d).bind (readStart_reads i hd) (decLoop_stream_stops hp hhead htail hne (by omega) hk _)

end Carried

/-- Settles O38: a stream within the 64 positions is read whole or stops where the source ends; a longer one stops at
its last coefficient. -/
theorem decblkReadsBlock : Obligations.DecblkReadsBlock := by
  intro s b i d cs hf hp hd hhead htail hne
  refine ⟨fun hk hs => ?_, fun hk hs => ?_, fun bs hbs hcs hin hout hs => ?_⟩
  · exact exec_decblk_ok hf (readBlock_reads hp hhead htail hne hk hd s hs)
  · obtain ⟨n, hn, hstop⟩ := (readBlock_stops hp hhead htail hne hk hd).run hs
    exact ⟨n, hn, exec_decblk_error hf hstop⟩
  · have hbits : bs = dcBits i d ++ coefStream s.par (firstTable s.par i) cs := by
      cases i <;> exact hbs
    subst hbits
    exact exec_decblk_error hf (readBlock_overrun hp hhead htail hd hcs hin hout hs)

/-! What the encoder sends can be carried (43_entropy.md R163, R164, R174) -/

theorem sentCoefs_head (p : Params) (t : VlcTable) (l : List (Nat × Int)) :
    (sentCoefs p t l).head? = l.head?.map (sentCoef t) := by
  cases l <;> rfl

theorem sentCoefs_tail (p : Params) (t : VlcTable) (l : List (Nat × Int)) :
    (sentCoefs p t l).tail = l.tail.map (sentCoef p.tblT1) := by
  cases l <;> rfl

theorem sentCoefs_eq_nil_iff (p : Params) (t : VlcTable) (l : List (Nat × Int)) : sentCoefs p t l = [] ↔ l = [] := by
  cases l <;> simp [sentCoefs]

theorem runLevels_eq_nil {run : Nat} {vs : List Int} (h : runLevels run vs = []) : ∀ v ∈ vs, v = 0 := by
  induction vs generalizing run with
  | nil => simp
  | cons v vs ih =>
    unfold runLevels at h
    split at h
    · rename_i hv
      exact List.forall_mem_cons.2 ⟨hv, ih h⟩
    · cases h

/-- The lane values that are sent as coefficients, in scan order (43_entropy.md R161, R176). -/
def coefLanes (p : Params) (i : Coding) (b : Block) : List Int := (scanLanes p b).drop (firstPosition i)

theorem blockCoefs_eq (p : Params) (i : Coding) (b : Block) :
    blockCoefs p i b = sentCoefs p (firstTable p i) (runLevels 0 (coefLanes p i b)) := rfl

@[simp] theorem coefLanes_length (p : Params) (i : Coding) (b : Block) :
    (coefLanes p i b).length = 64 - firstPosition i := by
  simp [coefLanes, scanLanes]

theorem firstPosition_le (i : Coding) : firstPosition i ≤ 1 := by
  cases i <;> decide

theorem coefLanes_get {p : Params} (hp : p.wf = true) (i : Coding) (b : Block) {j : Nat}
    (hj : j < (coefLanes p i b).length) (hq : firstPosition i + j < 64) :
    (coefLanes p i b)[j] = (b[scan p (firstPosition i + j)]'(scan_lt hp _ hq)).toInt := by
  simp [coefLanes, scanLanes, scan_lt hp _ hq]

theorem blockCoefs_ok {p : Params} (i : Coding) (b : Block) :
    (∀ c, (blockCoefs p i b).head? = some c → c.ok (firstTable p i)) ∧
      ∀ c ∈ (blockCoefs p i b).tail, c.ok p.tblT1 := by
  have hok : ∀ t, ∀ c ∈ runLevels 0 (coefLanes p i b), (sentCoef t c).ok t := by
    intro t c hc
    obtain ⟨hrun, hlevel⟩ := runLevels_run c hc
    rw [coefLanes_length] at hrun
    exact sentCoef_ok t (by omega) hlevel
  rw [blockCoefs_eq, sentCoefs_head, sentCoefs_tail]
  constructor
  · intro c hc
    obtain ⟨a, ha, rfl⟩ := Option.map_eq_some_iff.1 hc
    exact hok _ a (List.mem_of_mem_head? ha)
  · intro c hc
    obtain ⟨a, ha, rfl⟩ := List.mem_map.1 hc
    exact hok _ a (List.mem_of_mem_tail ha)

/-- A block that is not an inter block of zeros has a first coefficient where its stream needs one. -/
theorem blockCoefs_ne_nil {p : Params} (hp : p.wf = true) {b : Block} (h : ¬ ∀ k : Fin 64, b[k] = 0) :
    blockCoefs p .inter b ≠ [] := by
  intro hnil
  rw [blockCoefs_eq, sentCoefs_eq_nil_iff] at hnil
  refine h fun k => ?_
  obtain ⟨q, hq, hscan⟩ := scan_surj hp k.val k.isLt
  have hlen : q < (coefLanes p .inter b).length := by rw [coefLanes_length]; exact hq
  have hzero := runLevels_eq_nil hnil _ (List.getElem_mem hlen)
  rw [coefLanes_get hp .inter b hlen (by simpa [firstPosition] using hq)] at hzero
  simp only [firstPosition, Nat.zero_add, hscan] at hzero
  exact BitVec.eq_of_toInt_eq hzero

theorem positionAfter_blockCoefs (p : Params) (i : Coding) (b : Block) :
    positionAfter (firstPosition i) (blockCoefs p i b) ≤ 64 := by
  have hsum := runLevels_position (run := 0) (vs := coefLanes p i b)
  have hfirst := firstPosition_le i
  rw [coefLanes_length] at hsum
  rw [positionAfter, blockCoefs_eq, sentCoefs_runs]
  omega

/-! The block that arrives (43_entropy.md R183) -/

/-- Where a coefficient is placed does not depend on the table that it is sent with. -/
theorem placeCoefs_sentCoef (p : Params) (t t' : VlcTable) (k : Nat) (l : List (Nat × Int)) (b : Block) :
    placeCoefs p k (l.map (sentCoef t)) b = placeCoefs p k (l.map (sentCoef t')) b := by
  induction l generalizing k b with
  | nil => rfl
  | cons c l ih => exact ih _ _

theorem placeCoefs_sentCoefs (p : Params) (t : VlcTable) (k : Nat) (l : List (Nat × Int)) (b : Block) :
    placeCoefs p k (sentCoefs p t l) b = placeCoefs p k (l.map (sentCoef t)) b := by
  cases l with
  | nil => rfl
  | cons c l => exact placeCoefs_sentCoef p _ _ _ l _

theorem sentBlock_get (i : Coding) (b : Block) {k : Nat} (hk : k < 64) :
    (sentBlock i b)[k] = wrap16 (if i = .intra ∧ k = 0 then max 1 (min 254 (b[k]).toInt)
      else max (-127) (min 127 (b[k]).toInt)) :=
  Vector.getElem_ofFn hk

/-- What the coefficients of a block make of the lane at scan position `q` of a block `b0`. -/
theorem placeCoefs_blockCoefs_get {p : Params} (hp : p.wf = true) (i : Coding) (b b0 : Block) {q : Nat} (hq : q < 64)
    (hzero : firstPosition i ≤ q → b0[scan p q]'(scan_lt hp q hq) = 0) :
    (placeCoefs p (firstPosition i) (blockCoefs p i b) b0)[scan p q]'(scan_lt hp q hq) =
      if firstPosition i ≤ q then wrap16 (max (-127) (min 127 (b[scan p q]'(scan_lt hp q hq)).toInt))
      else b0[scan p q]'(scan_lt hp q hq) := by
  have hlen := coefLanes_length p i b
  have hle := firstPosition_le i
  simp only [blockCoefs_eq, placeCoefs_sentCoefs]
  rw [placeCoefs_get hp (sentCoef (firstTable p i)) (fun _ => ⟨rfl, rfl⟩) 0 _ _ b0 (by omega) q hq]
  by_cases hfirst : firstPosition i ≤ q
  · have hlane : (coefLanes p i b)[q - (firstPosition i + 0)]'(by omega) = (b[scan p q]'(scan_lt hp q hq)).toInt := by
      rw [coefLanes_get hp i b (by omega) (by omega)]
      simp only [show firstPosition i + (q - (firstPosition i + 0)) = q by omega]
    rw [dif_pos (by omega), if_pos hfirst, hlane, hzero hfirst]
    split
    · rename_i hv
      rw [hv]
      rfl
    · rfl
  · rw [dif_neg (by omega), if_neg hfirst]

theorem blockStart_get_zero (v : Int) : (blockStart .intra (dcField v))[0] = wrap16 (max 1 (min 254 v)) := by
  rw [← dcUnmap_dcField, wrap16_dcUnmap]
  exact Vector.getElem_set_self _

theorem blockStart_get_of_ne (i : Coding) (d : Nat) {k : Nat} (hk : k < 64) (h : i = .intra → k ≠ 0) :
    (blockStart i d)[k] = 0 := by
  cases i with
  | intra =>
    rw [blockStart, Vector.getElem_set_ne _ hk (Ne.symm (h rfl))]
    exact Vector.getElem_replicate hk
  | inter => exact Vector.getElem_replicate hk

/-- The coefficients of a block, placed behind its DC field, are the block with the clamps applied. -/
theorem placeCoefs_blockCoefs {p : Params} (hp : p.wf = true) (h0 : p.zigzag[0] = 0) (i : Coding) (b : Block) :
    placeCoefs p (firstPosition i) (blockCoefs p i b) (blockStart i (dcField (b[0]).toInt)) = sentBlock i b := by
  have hscan0 := scan_zero hp h0
  have hscan : ∀ q < 64, (scan p q = 0 ↔ q = 0) := fun q hq =>
    ⟨fun h => scan_inj hp q hq 0 (by decide) (h.trans hscan0.symm), fun h => by rw [h, hscan0]⟩
  refine Vector.ext fun l hl => ?_
  obtain ⟨q, hq, rfl⟩ := scan_surj hp l hl
  have hne : firstPosition i ≤ q → i = .intra → scan p q ≠ 0 := by
    rintro hfirst rfl h
    rw [(hscan q hq).1 h] at hfirst
    exact absurd hfirst (by decide)
  rw [placeCoefs_blockCoefs_get hp i b _ hq (fun hfirst => blockStart_get_of_ne i _ _ (hne hfirst)), sentBlock_get]
  by_cases hfirst : firstPosition i ≤ q
  · rw [if_pos hfirst, if_neg (fun h => hne hfirst h.1 h.2)]
  · obtain rfl : q = 0 := by have := firstPosition_le i; omega
    obtain rfl : i = .intra := by
      cases i with
      | intra => rfl
      | inter => exact absurd le_rfl hfirst
    simp only [if_neg hfirst, hscan0, and_self, if_true, blockStart_get_zero]

/-- A block inside the clamps arrives as it is. -/
theorem sentBlock_eq_self {i : Coding} {b : Block}
    (h : ∀ k : Fin 64, if i = .intra ∧ k.val = 0 then 1 ≤ (b[k]).toInt ∧ (b[k]).toInt ≤ 254
      else -127 ≤ (b[k]).toInt ∧ (b[k]).toInt ≤ 127) : sentBlock i b = b := by
  refine Vector.ext fun k hk => ?_
  have hlane := h ⟨k, hk⟩
  simp only [Fin.getElem_fin] at hlane
  have hclamp : (if i = .intra ∧ k = 0 then max 1 (min 254 (b[k]).toInt) else max (-127) (min 127 (b[k]).toInt)) =
      (b[k]).toInt := by
    by_cases hdc : i = .intra ∧ k = 0
    · rw [if_pos hdc] at hlane ⊢
      omega
    · rw [if_neg hdc] at hlane ⊢
      omega
  rw [sentBlock_get, hclamp, wrap16, BitVec.ofInt_toInt]

/-- Settles O39: ENCBLK writes the stream of the block's coefficients, which DECBLK places where they came from. -/
theorem entropyRoundTrip : Obligations.EntropyRoundTrip := by
  refine ⟨fun s b i hf hp h0 hw ha hne => ?_, fun i b => sentBlock_eq_self⟩
  obtain ⟨t, happ, hexec⟩ := ((encblkWritesBlock.2 s b i hf).1 hne hw).1 ha
  refine ⟨_, t, hexec, happ, fun r b' hfr hpar hs => ?_⟩
  have hp' : r.par.wf = true := by rw [hpar]; exact hp
  rw [← hpar] at hs h0 ⊢
  obtain ⟨hhead, htail⟩ := blockCoefs_ok (p := r.par) i s.blk[b]
  have hcoefs : i = .inter → blockCoefs r.par i s.blk[b] ≠ [] := by
    rintro rfl
    exact blockCoefs_ne_nil hp' (fun hz => hne ⟨rfl, hz⟩)
  have hd : dcField (s.blk[b][0]).toInt < 256 := Nat.lt_succ_of_le (dcField_range _).2.1
  have hread := readBlock_reads hp' hhead htail hcoefs (positionAfter_blockCoefs r.par i s.blk[b]) hd r hs
  rw [placeCoefs_blockCoefs hp' h0] at hread
  exact exec_decblk_ok hfr hread

end Sys2Proof.Machine
end

section
/-!
The motion estimator (45_motion.md R200 to R220): what MEAE, MESEARCH, MEMTYPE and MECLR do, the size of an AE, and what
the searches and the type decision return.
-/

namespace Sys2Proof.Machine

/-! Past the shared checks, or stopped by them (45_motion.md R216 to R218) -/

section Checked

variable {s : State} {mbx mby : Nat} {op : Opcode} {f : Unit → M Unit}

/-- A macroblock of configured planes: the command does what comes after the checks. -/
theorem gated_checked (hf : s.status.fault = false) (h : inPlane s mbx mby) {t : State} (hrun : f () s = .ok () t) :
    gated op (checkMacroblock mbx mby >>= f) s = .next t :=
  gated_ok hf (by rw [M.bind_ok (checkMacroblock_ok h), hrun])

theorem gated_unset (hf : s.status.fault = false) (h : s.planeW = 0 ∨ s.planeH = 0) :
    gated op (checkMacroblock mbx mby >>= f) s = .next (s.faulted .argumentError op) :=
  gated_refuses hf (M.bind_error (checkMacroblock_unset h))

theorem gated_out (hf : s.status.fault = false) (hw : s.planeW ≠ 0) (hh : s.planeH ≠ 0) (h : ¬ inPlane s mbx mby) :
    gated op (checkMacroblock mbx mby >>= f) s = .next (s.faulted .boundsError op) :=
  gated_refuses hf (M.bind_error (checkMacroblock_out hw hh h))

end Checked

/-! MECLR and MEAE -/

/-- Settles O46, by the arrays that `clearMotion` stores. -/
theorem meclrClearsMemory : Obligations.MeclrClearsMemory := fun _ hf =>
  ⟨_, _, fun k => ⟨Vector.getElem_replicate k.isLt, Vector.getElem_replicate k.isLt⟩, gated_ok hf rfl⟩

theorem exec_meae {s : State} {mbx mby : Nat} {dx dy : Int} (hf : s.status.fault = false) (h : inPlane s mbx mby)
    (hd : inWindow s mbx mby ⟨dx, dy⟩) :
    exec (.meae mbx mby dx dy) s = .next (s.setRes 0 (BitVec.ofNat 32 (aeSum s mbx mby ⟨dx, dy⟩))) :=
  gated_checked hf h (by rw [M.look_bind, M.raiseIf_bind, if_neg (by simp [(validMv_iff ..).2 hd])]; rfl)

theorem exec_meae_outside {s : State} {mbx mby : Nat} {dx dy : Int} (hf : s.status.fault = false)
    (h : inPlane s mbx mby) (hd : ¬ inWindow s mbx mby ⟨dx, dy⟩) :
    exec (.meae mbx mby dx dy) s = .next (s.faulted .boundsError .meae) := by
  refine gated_refuses hf ?_
  rw [meaeBody, M.bind_ok (checkMacroblock_ok h), M.look_bind, M.raiseIf_bind, if_pos]
  exact Bool.eq_false_iff.2 (mt (validMv_iff s mbx mby _).1 hd)

/-- Settles O40: the shared checks, then the check of the candidate. -/
theorem meaeScoresCandidate : Obligations.MeaeScoresCandidate := by
  intro s mbx mby dx dy hf
  refine ⟨exec_meae hf, gated_unset hf, fun hw hh hout => ?_⟩
  by_cases h : inPlane s mbx mby
  · exact exec_meae_outside hf h (fun hd => hout ⟨h, hd⟩)
  · exact gated_out hf hw hh h

/-! The size of an AE (45_motion.md R201) -/

/-- The difference of two samples is at most 255. -/
theorem aeTerm_le (s : State) (mbx mby : Nat) (d : Mv) (o : Nat × Nat) : aeTerm s mbx mby d o ≤ 255 := by
  rw [aeTerm, absNat, sampleAt, sampleAt]
  omega

theorem aeSum_le {s : State} (hp : s.par.wf = true) (mbx mby : Nat) (d : Mv) : aeSum s mbx mby d ≤ 16320 := by
  have h := List.sum_le_card_nsmul (s.par.aePattern.map (aeTerm s mbx mby d)) 255
    (List.forall_mem_map.2 fun o _ => aeTerm_le s mbx mby d o)
  rwa [List.length_map, (pattern_ok hp).1] at h

theorem aeSum_eq_zero {s : State} (hp : s.par.wf = true) {mbx mby : Nat} {d : Mv}
    (h : ∀ i j : Nat, i < 16 → j < 16 → planeByte s.cur s.planeW.toNat (16 * mbx + i) (16 * mby + j) =
      planeByte s.ref s.planeW.toNat (16 * mbx + d.h + i) (16 * mby + d.v + j)) : aeSum s mbx mby d = 0 := by
  rw [aeSum, List.sum_eq_zero_iff, List.forall_mem_map]
  intro o ho
  obtain ⟨hi, hj⟩ := (pattern_ok hp).2.2 o ho
  rw [h o.1 o.2 hi hj, sub_self, Int.natAbs_zero]

/-- `Finset.sum_range` for the sum of a list. -/
theorem sum_map_range_eq_sum_fin {α : Type} [AddCommMonoid α] (f : Nat → α) (n : Nat) :
    ((List.range n).map f).sum = ∑ i : Fin n, f i := Finset.sum_range f

theorem sum_evenGrid {α : Type} [AddCommMonoid α] (f : Nat × Nat → α) :
    (evenGrid.map f).sum = ∑ b : Fin 8, ∑ a : Fin 8, f (2 * a, 2 * b) := by
  rw [evenGrid, List.map_flatMap, List.flatMap_def, List.sum_flatten, List.map_map, sum_map_range_eq_sum_fin]
  refine Finset.sum_congr rfl fun b _ => ?_
  rw [Function.comp_apply, List.map_map, sum_map_range_eq_sum_fin]
  rfl

/-- Settles O41: 64 terms of at most 255, terms of equal samples, and the pattern of the reference configuration. -/
theorem aeIsBounded : Obligations.AeIsBounded := by
  refine ⟨fun s mbx mby d hp => aeSum_le hp mbx mby d, fun s mbx mby d h hp => aeSum_eq_zero hp h,
    fun s mbx mby d hp => ?_⟩
  have hgrid : s.par.aePattern = evenGrid := by rw [hp]; rfl
  rw [aeSum, hgrid, sum_evenGrid]
  push_cast
  rfl

/-! MESEARCH (45_motion.md R202 to R208, R217) -/

/-- What MESEARCH finds: the search of the configuration, seeded with the macroblock's predictor. -/
def State.found (s : State) (mbx mby : Nat) : Scored :=
  search s s.searchAlg mbx mby (s.prevMvAt (s.mbIndex mbx mby))

theorem State.found_ok {s : State} {mbx mby : Nat} (h : inPlane s mbx mby) : (s.found mbx mby).Ok s mbx mby :=
  search_ok h _ _

theorem exec_mesearch {s : State} {mbx mby : Nat} (hf : s.status.fault = false) (h : inPlane s mbx mby) :
    exec (.mesearch mbx mby) s = .next (s.withRes (BitVec.ofNat 32 (aeSum s mbx mby (s.found mbx mby).mv))
      (BitVec.ofInt 32 (s.found mbx mby).mv.h) (BitVec.ofInt 32 (s.found mbx mby).mv.v) s.res[3]) := by
  rw [← (State.found_ok h).own]
  exact gated_checked hf h (congrArg (EStateM.Result.ok ()) (State.setRes_three s _ _ _))

/-- Settles O42: every search returns a valid displacement with its own AE. -/
theorem mesearchKeepsContract : Obligations.MesearchKeepsContract := fun _ _ _ hf =>
  ⟨fun h => ⟨_, (State.found_ok h).valid, exec_mesearch hf h⟩, gated_unset hf, gated_out hf⟩

theorem search_default {s : State} {alg : Fin 4} (h : s.par.searchImpl[alg] = .default) (mbx mby : Nat) (seed : Mv) :
    search s alg mbx mby seed = defaultSearch s alg mbx mby seed := by
  rw [search, h]

section Variants

variable (s : State) (mbx mby : Nat) (seed : Mv)

theorem defaultSearch_full : defaultSearch s 0 mbx mby seed = fullSearch s mbx mby := rfl

theorem defaultSearch_three : defaultSearch s 1 mbx mby seed = stepSearch s mbx mby Mv.zero := rfl

theorem defaultSearch_new : defaultSearch s 2 mbx mby seed = stepSearch s mbx mby (clampWin s mbx mby seed) := rfl

theorem defaultSearch_checker : defaultSearch s 3 mbx mby seed = checkerSearch s mbx mby := rfl

end Variants

theorem State.searchAlg_eq {s : State} {alg : Fin 4} (h : s.cfg.toNat % 4 = alg.val) : s.searchAlg = alg := by
  rw [State.searchAlg, h, Fin.ofNat_eq_cast, Fin.cast_val_eq_self]

theorem State.found_default {s : State} {alg : Fin 4} (hcfg : s.cfg.toNat % 4 = alg.val)
    (hdef : s.par.searchImpl[alg] = .default) (mbx mby : Nat) :
    s.found mbx mby = defaultSearch s alg mbx mby (s.prevMvAt (s.mbIndex mbx mby)) := by
  rw [State.found, State.searchAlg_eq hcfg, search_default hdef]

theorem clamp_eq_max_min {lo hi : Int} (h : lo ≤ hi) (x : Int) : clamp lo hi x = max lo (min hi x) := by
  unfold clamp
  split
  · omega
  · split <;> omega

/-- `clampwin` with the ends of the window as the rule gives them (45_motion.md R202). -/
theorem clampWin_eq {s : State} {mbx mby : Nat} (h : inPlane s mbx mby) (p : Mv) : clampWin s mbx mby p =
    ⟨max (max (-15) (-16 * (mbx : Int))) (min (min 15 ((s.planeW.toNat : Int) - 16 - 16 * mbx)) p.h),
      max (max (-15) (-16 * (mby : Int))) (min (min 15 ((s.planeH.toNat : Int) - 16 - 16 * mby)) p.v)⟩ := by
  obtain ⟨-, -, hx, hy⟩ := h
  rw [clampWin, clampComp, clampComp, searchRange, clamp_eq_max_min (by omega), clamp_eq_max_min (by omega)]

theorem checkerSearch_even {s : State} {mbx mby : Nat} (h : inPlane s mbx mby) :
    ((checkerSearch s mbx mby).mv.h + (checkerSearch s mbx mby).mv.v) % 2 = 0 := by
  rcases (fullSearch_best h).2.member with hz | ⟨heven, -⟩
  · rw [hz]
    rfl
  · exact heven

theorem prevMvAt_of_getElem? {s : State} {mb : Nat} {p : Mv} (h : s.prevMv[mb]? = some p) : s.prevMvAt mb = p := by
  rw [State.prevMvAt, h, Option.getD_some]

/-- Settles O43, variant by variant. -/
theorem fullSearchFindsBest : Obligations.FullSearchFindsBest := by
  intro s mbx mby hf h
  refine ⟨_, (State.found_ok h).valid, exec_mesearch hf h, ?full, ?checker, ?three, ?new⟩
  case full =>
    intro hcfg hdef
    rw [State.found_default (alg := 0) hcfg hdef, defaultSearch_full]
    exact (fullSearch_best h).1
  case checker =>
    intro hcfg hdef
    rw [State.found_default (alg := 3) hcfg hdef, defaultSearch_checker]
    exact ⟨checkerSearch_even h, (fullSearch_best h).2⟩
  case three =>
    intro hcfg hdef
    rw [State.found_default (alg := 1) hcfg hdef, defaultSearch_three]
    exact stepSearch_steps (inWindow_zero h)
  case new =>
    intro hcfg hdef p hp
    rw [State.found_default (alg := 2) hcfg hdef, defaultSearch_new, State.mbIndex, State.mbCols,
      prevMvAt_of_getElem? hp, ← clampWin_eq h]
    exact stepSearch_steps (clampWin_inWindow h p)

/-! The type decision (45_motion.md R209 to R214) -/

section Decision

variable {s : State} {mbx mby : Nat}

theorem obtainMtype_skip (h : (aeSum s mbx mby Mv.zero : Int) < s.par.aeTcoeffThreshold) :
    obtainMtype s mbx mby = ⟨10, Mv.zero, aeSum s mbx mby Mv.zero⟩ := if_pos h

theorem obtainMtype_past_skip (h : (aeSum s mbx mby Mv.zero : Int) ≥ s.par.aeTcoeffThreshold) :
    obtainMtype s mbx mby =
      if refreshScore s.par (s.staleAt (s.mbIndex mbx mby)) (bestCandidate s mbx mby).ae > s.par.refreshThreshold then
        ⟨0, Mv.zero, (bestCandidate s mbx mby).ae⟩
      else classify s.par (aeSum s mbx mby Mv.zero) (bestCandidate s mbx mby) := if_neg h.not_gt

/-- "Close enough" holds of equal scores, whatever the choice (log 13). -/
theorem zeroMvClose_self (p : Params) (a : Nat) : zeroMvClose p a a = true := by
  unfold zeroMvClose
  split
  · simp
  · simp

/-- What a decision can be: no vector for types 10, 0 and 2, and for 4 and 5 a valid nonzero one with its own AE
(45_motion.md R214). -/
inductive MtypeDecision.Ok (s : State) (mbx mby : Nat) : MtypeDecision → Prop
  | skip (h : (aeSum s mbx mby Mv.zero : Int) < s.par.aeTcoeffThreshold) :
    Ok s mbx mby ⟨10, Mv.zero, aeSum s mbx mby Mv.zero⟩
  | still (h : (aeSum s mbx mby Mv.zero : Int) ≥ s.par.aeTcoeffThreshold) {t : Nat} (ht : t = 0 ∨ t = 2) (a : Nat) :
    Ok s mbx mby ⟨t, Mv.zero, a⟩
  | moved (h : (aeSum s mbx mby Mv.zero : Int) ≥ s.par.aeTcoeffThreshold) {t : Nat} (ht : t = 4 ∨ t = 5) {m : Mv}
    (hm : inWindow s mbx mby m) (hne : m ≠ Mv.zero) : Ok s mbx mby ⟨t, m, aeSum s mbx mby m⟩

/-- A candidate whose score sets it apart from the zero displacement is not the zero displacement. -/
theorem MtypeDecision.Ok.of_scored (h : (aeSum s mbx mby Mv.zero : Int) ≥ s.par.aeTcoeffThreshold) {t : Nat}
    (ht : t = 4 ∨ t = 5) {b : Scored} (hb : b.Ok s mbx mby) (hne : b.ae ≠ aeSum s mbx mby Mv.zero) :
    MtypeDecision.Ok s mbx mby ⟨t, b.mv, b.ae⟩ := by
  rw [hb.own] at hne ⊢
  exact .moved h ht hb.valid (fun hz => hne (by rw [hz]))

theorem classify_ok (h : (aeSum s mbx mby Mv.zero : Int) ≥ s.par.aeTcoeffThreshold) {b : Scored}
    (hb : b.Ok s mbx mby) : MtypeDecision.Ok s mbx mby (classify s.par (aeSum s mbx mby Mv.zero) b) := by
  unfold classify
  split
  · exact .of_scored h (.inl rfl) hb (by omega)
  · split
    · split
      · exact .still h (.inr rfl) b.ae
      · rename_i hclose
        exact .of_scored h (.inr rfl) hb (fun he => hclose (by rw [he, zeroMvClose_self]))
    · exact .still h (.inl rfl) b.ae

theorem obtainMtype_ok (h : inPlane s mbx mby) : MtypeDecision.Ok s mbx mby (obtainMtype s mbx mby) := by
  by_cases hskip : (aeSum s mbx mby Mv.zero : Int) < s.par.aeTcoeffThreshold
  · rw [obtainMtype_skip hskip]
    exact .skip hskip
  · have hpast := not_lt.1 hskip
    rw [obtainMtype_past_skip hpast]
    split
    · exact .still hpast (.inl rfl) _
    · exact classify_ok hpast (bestCandidate_ok h)

variable {d : MtypeDecision} (h : d.Ok s mbx mby)
include h

theorem MtypeDecision.Ok.mtype_mem : d.mtype ∈ [0, 2, 4, 5, 10] := by
  cases h with
  | skip => simp
  | still _ ht => rcases ht with rfl | rfl <;> simp
  | moved _ ht => rcases ht with rfl | rfl <;> simp

theorem MtypeDecision.Ok.skip_iff : d.mtype = 10 ↔ (aeSum s mbx mby Mv.zero : Int) < s.par.aeTcoeffThreshold := by
  cases h with
  | skip h => exact iff_of_true rfl h
  | still h ht => exact iff_of_false (by dsimp only; omega) h.not_gt
  | moved h ht => exact iff_of_false (by dsimp only; omega) h.not_gt

theorem MtypeDecision.Ok.skip_ae (ht : d.mtype = 10) : d.ae = aeSum s mbx mby Mv.zero := by
  cases h with
  | skip => rfl
  | still _ ht' => dsimp only at ht; omega
  | moved _ ht' => dsimp only at ht; omega

theorem MtypeDecision.Ok.mv_still (ht : d.mtype ∈ [0, 2, 10]) : d.mv = Mv.zero := by
  cases h with
  | skip => rfl
  | still => rfl
  | moved _ ht' => rcases ht' with rfl | rfl <;> simp at ht

theorem MtypeDecision.Ok.mv_moved (ht : d.mtype ∈ [4, 5]) :
    inWindow s mbx mby d.mv ∧ d.mv ≠ Mv.zero ∧ d.ae = aeSum s mbx mby d.mv := by
  cases h with
  | skip => simp at ht
  | still _ ht' => rcases ht' with rfl | rfl <;> simp at ht
  | moved _ _ hm hne => exact ⟨hm, hne, rfl⟩

end Decision

/-! MEMTYPE (45_motion.md R215, R218) -/

theorem exec_memtype {s : State} {mbx mby : Nat} (hf : s.status.fault = false) (h : inPlane s mbx mby) :
    exec (.memtype mbx mby) s = .next ((s.recordDecision (s.mbIndex mbx mby) (obtainMtype s mbx mby)).withRes
      (BitVec.ofNat 32 (obtainMtype s mbx mby).mtype) (BitVec.ofInt 32 (obtainMtype s mbx mby).mv.h)
      (BitVec.ofInt 32 (obtainMtype s mbx mby).mv.v) (BitVec.ofNat 32 (obtainMtype s mbx mby).ae)) :=
  gated_checked hf h (congrArg (EStateM.Result.ok ()) (State.setRes_all _ _ _ _ _))

theorem State.recordDecision_prevMv_get (s : State) (mb : Nat) (d : MtypeDecision) (k : Fin 396) :
    (s.recordDecision mb d).prevMv[k] = if k.val = mb then d.mv else s.prevMv[k] := by
  simp only [State.recordDecision_prevMv, Fin.getElem_fin, Vector.getElem_setIfInBounds, eq_comm]

theorem newStale_lt (t n : Nat) : newStale t n < 2 ^ 16 := by
  unfold newStale
  split
  · decide
  · omega

theorem staleAt_of_getElem? {s : State} {mb : Nat} {n : BitVec 16} (h : s.stale[mb]? = some n) :
    s.staleAt mb = n.toNat := by
  rw [State.staleAt, h, Option.getD_some]

theorem State.recordDecision_stale_get (s : State) (mb : Nat) (d : MtypeDecision) (k : Fin 396) :
    ((s.recordDecision mb d).stale[k]).toNat =
      if k.val = mb then newStale d.mtype (s.stale[k]).toNat else (s.stale[k]).toNat := by
  simp only [State.recordDecision_stale, Fin.getElem_fin, Vector.getElem_setIfInBounds, eq_comm (a := mb)]
  split
  · rename_i hk
    rw [BitVec.toNat_ofNat, Nat.mod_eq_of_lt (newStale_lt ..),
      staleAt_of_getElem? (Vector.getElem?_eq_some_iff.2 ⟨hk ▸ k.isLt, rfl⟩)]
    simp only [hk]
  · rfl

/-- Settles O44: what the decision can be, and the entries that it is recorded in. -/
theorem memtypeResultSet : Obligations.MemtypeResultSet := by
  refine fun s mbx mby hf => ⟨fun h => ?_, gated_unset hf, gated_out hf⟩
  have hd := obtainMtype_ok h
  exact ⟨_, _, _, _, _, hd.mtype_mem, hd.skip_iff, hd.skip_ae, hd.mv_still, hd.mv_moved,
    s.recordDecision_prevMv_get (s.mbIndex mbx mby) _, s.recordDecision_stale_get (s.mbIndex mbx mby) _,
    exec_memtype hf h⟩

/-! The steps of the decision (45_motion.md R210 to R213) -/

section Steps

variable {s : State} {mbx mby : Nat}

/-- A scored candidate as the pair of its AE and its displacement. -/
def Scored.pair (b : Scored) : Nat × Mv := (b.ae, b.mv)

theorem withPredictor_eq (p : Mv) (z : Scored) : withPredictor s mbx mby p z =
    if inWindow s mbx mby p ∧ aeSum s mbx mby p ≤ z.ae then scored s mbx mby p else z := by
  refine if_congr ?_ rfl rfl
  rw [Bool.and_eq_true, validMv_iff, decide_eq_true_eq, ae_eq]

theorem withSearch_eq (p : Mv) (b : Scored) : withSearch s mbx mby p b =
    if (b.ae : Int) > s.par.aeTcoeffThreshold ∧ (search s s.searchAlg mbx mby p).ae < b.ae then
      search s s.searchAlg mbx mby p
    else b := by
  rw [withSearch, ite_and]

/-- The first three result registers that a decision gives (45_motion.md R218). -/
def MtypeDecision.results (d : MtypeDecision) : Word × Word × Word :=
  (BitVec.ofNat 32 d.mtype, BitVec.ofInt 32 d.mv.h, BitVec.ofInt 32 d.mv.v)

theorem classify_ae (p : Params) (a : Nat) (b : Scored) : (classify p a b).ae = b.ae := by
  unfold classify
  split_ifs <;> rfl

theorem obtainMtype_ae (h : (aeSum s mbx mby Mv.zero : Int) ≥ s.par.aeTcoeffThreshold) :
    (obtainMtype s mbx mby).ae = (bestCandidate s mbx mby).ae := by
  rw [obtainMtype_past_skip h]
  split
  · rfl
  · exact classify_ae ..

theorem classify_results (p : Params) (a : Nat) (b : Scored) : (classify p a b).results =
    if (b.ae : Int) < p.aeTcoeffThreshold then (4, BitVec.ofInt 32 b.mv.h, BitVec.ofInt 32 b.mv.v)
    else if (b.ae : Int) < p.aeInterThreshold then
      (if zeroMvClose p a b.ae = true then (2, 0, 0) else (5, BitVec.ofInt 32 b.mv.h, BitVec.ofInt 32 b.mv.v))
    else (0, 0, 0) := by
  unfold classify
  split_ifs <;> rfl

end Steps

/-- Settles O45: the predictor, the search, the refresh test and the classification, one after the other. -/
theorem memtypeFollowsSteps : Obligations.MemtypeFollowsSteps := by
  rintro s mbx mby mb p hf h rfl hp hpast
  have hmb : s.mbIndex mbx mby < 396 := (Vector.getElem?_eq_some_iff.1 hp).1
  have hstale : s.stale[s.mbIndex mbx mby]? = some s.stale[s.mbIndex mbx mby] :=
    Vector.getElem?_eq_some_iff.2 ⟨hmb, rfl⟩
  have hseed : s.prevMvAt (s.mbIndex mbx mby) = p := prevMvAt_of_getElem? hp
  have halg : s.searchAlg = Fin.ofNat 4 s.cfg.toNat := Fin.ext (Nat.mod_mod ..)
  refine ⟨(withPredictor s mbx mby p (scored s mbx mby Mv.zero)).pair, (bestCandidate s mbx mby).pair, _, _, hstale,
    ?predictor, ?search, exec_memtype hf h, ?ae, ?results⟩
  case predictor =>
    rw [withPredictor_eq, apply_ite Scored.pair]
    rfl
  case search =>
    rw [bestCandidate, hseed, withSearch_eq, halg, apply_ite Scored.pair]
    rfl
  case ae =>
    rw [obtainMtype_ae hpast]
    rfl
  case results =>
    change (obtainMtype s mbx mby).results = _
    rw [obtainMtype_past_skip hpast, apply_ite MtypeDecision.results, classify_results, staleAt_of_getElem? hstale]
    rfl

end Sys2Proof.Machine
end

section
/-!
The framing layer (46_framing.md R240 to R253): the bits that PUTPIC, PUTGOB and PUTMB write, what GETSC, GETPIC, GETGOB
and GETMB make of a source that holds a header or ends inside one, and a macroblock header written and read back.
-/

namespace Sys2Proof.Machine

/-! Reading with what the state holds at the start -/

/-- What follows a computation need only agree on the states that the computation can leave. -/
theorem M.bind_congr_of_keeps {P : State → State → Prop} {α β : Type} {x : M α} (hx : Keeps P x) {f g : α → M β}
    {s : State} (h : ∀ a t, P s t → f a t = g a t) : (x >>= f) s = (x >>= g) s := by
  have hend := hx s
  rw [M.bind_run, M.bind_run]
  cases hrun : x s with
  | ok a t =>
    rw [hrun] at hend
    exact h a t hend
  | error c t => rfl

/-- Where a read stops, what was to follow it does not run. -/
theorem StopsAt.andThen {α β : Type} {x : M α} {bs : List Bool} {g : Nat → Nat} (h : StopsAt x bs g) (f : α → M β) :
    StopsAt (x >>= f) bs g := fun s pre hp hl he => M.bind_error (h s pre hp hl he)

theorem Stops.andThen {α β : Type} {x : M α} {bs : List Bool} (h : Stops x bs) (f : α → M β) : Stops (x >>= f) bs := by
  obtain ⟨g, hg, hstop⟩ := h
  exact .of_at hg (hstop.andThen f)

theorem StopsAt.of_eq {α : Type} {x : M α} {bs : List Bool} {g g' : Nat → Nat} (h : StopsAt x bs g)
    (hg : ∀ k, g k = g' k) : StopsAt x bs g' := funext hg ▸ h

/-- A fault taken in a state that is not faulted yet. -/
theorem gated_raises {op : Opcode} {body : M Unit} {s t : State} {c : Cause} (hf : s.status.fault = false)
    (h : body s = .error c t) (ht : t.status.fault = false) : gated op body s = .next (t.faulted c op) := by
  rw [gated_error hf h, State.raiseFault_of_clear t c op ht]

/-- A number that fits its field is read as it is. -/
theorem Reads.getbits_of_lt {n v : Nat} (h : v < 2 ^ n) : Reads (Machine.getbits n) (bits n v) v := by
  have hread := Reads.getbits_bits n v
  rwa [Nat.mod_eq_of_lt h] at hread

theorem StopsAt.getbits_bits (n v : Nat) : StopsAt (Machine.getbits n) (bits n v) (fun _ => 0) := by
  have hstop := StopsAt.getbits (bits n v)
  rwa [bits_length] at hstop

/-! PUTPIC and PUTGOB (46_framing.md R241, R242, R249) -/

theorem putpicBody_run (tr : Nat) (ptype : BitVec 6) (e : Bool) (ext : Byte) (s : State) :
    putpicBody tr ptype e ext s =
      (do putbits 20 s.par.psc.toNat; putbits 5 tr; putbits 6 ptype.toNat; putTail e ext : M Unit) s := by
  rw [putpicBody, M.look_bind]

/-- Settles O47: the four fields one after the other. -/
theorem putpicWritesHeader : Obligations.PutpicWritesHeader := by
  refine ⟨rfl, rfl, fun s tr ptype e ext hf hw => ?_⟩
  have hemit := (Emits.putbits 20 s.par.psc.toNat).seq ((Emits.putbits 5 tr).seq
    ((Emits.putbits 6 ptype.toNat).seq (putTail_emits e ext)))
  have hrun : exec (.putpic tr ptype e ext) s = _ := gated_congr (putpicBody_run tr ptype e ext s)
  rw [hrun]
  simp only [List.append_assoc]
  exact gated_writes hemit .putpic hf hw

/-- Past the checks of PUTGOB: the fields, then the start of a group. -/
theorem putgobBody_run {gn gquant : Nat} (h1 : 1 ≤ gn) (h12 : gn ≤ 12) (hq : gquant ≠ 0) (e : Bool) (ext : Byte)
    (s : State) : putgobBody gn gquant e ext s = (do
      (do putbits 16 s.par.gbsc.toNat; putbits 4 gn; putbits 5 gquant; putTail e ext)
      M.change (fun t => t.afterHeader Mv5.zero 0) : M Unit) s := by
  rw [putgobBody, M.raiseIf_bind, if_neg (by omega), M.raiseIf_bind, if_neg hq, M.look_bind]
  simp only [bind_assoc, startGob]

/-- Settles O48: the two checks, then the fields, then the state of the session. -/
theorem putgobWritesHeader : Obligations.PutgobWritesHeader := by
  intro s gn gquant e ext hf
  refine ⟨fun h1 h12 hq hw => ?_, fun hgn => ?_, fun h1 h12 hq => ?_⟩
  · have hemit := (Emits.putbits 16 s.par.gbsc.toNat).seq ((Emits.putbits 4 gn).seq
      ((Emits.putbits 5 gquant).seq (putTail_emits e ext)))
    have hrun : exec (.putgob gn gquant e ext) s = _ := gated_congr (putgobBody_run h1 h12 hq e ext s)
    rw [hrun]
    simp only [List.append_assoc]
    exact gated_writes_then hemit .putgob _ hf hw
  · exact gated_refuses hf (by rw [putgobBody, M.raiseIf_bind, if_pos hgn])
  · exact gated_refuses hf (by rw [putgobBody, M.raiseIf_bind, if_neg (by omega), M.raiseIf_bind, if_pos hq])

/-! PUTMB (46_framing.md R243, R244) -/

theorem exec_putmb_refuses {mba mtype mquant : Nat} {mvh mvv : Int} {cbp : Nat} {s : State} {c : Cause}
    (hf : s.status.fault = false) (h : putmbCheck mba mtype mquant mvh mvv cbp s = .error c s) :
    exec (.putmb mba mtype mquant mvh mvv cbp) s = .next (s.faulted c .putmb) :=
  gated_refuses hf (M.bind_error h)

/-- Settles O50: each clause is one branch of the checks. -/
theorem putmbChecksInOrder : Obligations.PutmbChecksInOrder := by
  intro s mba mtype mquant mvh mvv cbp hf
  refine ⟨fun ht => ?_, fun ht ha => ?_, fun ht h1 ha hs => ?_, fun ht h1 ha hs hq h0 => ?_,
    fun ht h1 ha hs hq hc h0 => ?_⟩
  · exact exec_putmb_refuses hf (by rw [putmbCheck_run, if_pos ht])
  · exact exec_putmb_refuses hf (by rw [putmbCheck_run, if_neg (by omega), if_pos ha])
  · exact exec_putmb_refuses hf (by rw [putmbCheck_run, if_neg (by omega), if_neg (by omega), if_pos hs])
  · exact exec_putmb_refuses hf (by
      rw [putmbCheck_run, if_neg (by omega), if_neg (by omega), if_neg hs, if_pos ⟨hq, h0⟩])
  · exact exec_putmb_refuses hf (by
      rw [putmbCheck_run, if_neg (by omega), if_neg (by omega), if_neg hs, if_neg hq, if_pos ⟨hc, h0⟩])

/-- The predictor's components, as the statements name them. -/
theorem predictor_components {p : Params} {last : Mv5} {mba addr : Nat} {ph pv : Int}
    (h : (ph, pv) = if p.mvdResetH261 = true ∧ (mba ≠ 1 ∨ addr ∈ [1, 12, 23]) then (0, 0)
      else (last.h.toInt, last.v.toInt)) :
    ph = (mvPredictor p last mba addr).h.toInt ∧ pv = (mvPredictor p last mba addr).v.toInt :=
  Prod.mk.inj (h.trans (mvPredictor_eq p last mba addr).symm)

/-- Settles O49: past the checks the header is written, and its symbols are those of R244. -/
theorem putmbWritesHeader : Obligations.PutmbWritesHeader := by
  intro s mba mtype mquant mvh mvv cbp hf hw hp hok haddr ph pv hpred
  obtain ⟨rfl, rfl⟩ := predictor_components hpred
  obtain ⟨h1, h33, ht, -, hc, -, -, -, -, hcbp⟩ := id hok
  have hemit := putHeader_emits hp (mquant := mquant)
    (mvdKey_lt mvh (mvPredictor s.par s.lastMv mba (s.mbaddr.toNat + mba)).h)
    (mvdKey_lt mvv (mvPredictor s.par s.lastMv mba (s.mbaddr.toNat + mba)).v) h1 h33 ht hc hcbp
  have hrun : exec (.putmb mba mtype mquant mvh mvv cbp) s = _ :=
    gated_congr (putmbBody_run (putmbCheck_ok hok haddr))
  rw [hrun, ← mvdKey_eq, ← mvdKey_eq]
  exact gated_writes_then hemit .putmb _ hf hw

/-! GETSC (46_framing.md R245) -/

/-- The start code is passed: `SCSEEN` is cleared. -/
def State.codePassed (s : State) : State := { s with scseen := false }

/-- What GETSC does once the start code is passed. -/
def getscGroup : M Unit := do
  M.change State.codePassed
  let g ← getbits 4
  M.raiseIf (g > 12) .boundsError
  writeRes 0 g

theorem getscBody_unseen {s : State} (h : s.scseen = false) : getscBody s = (do
    let c ← getbits 16
    M.raiseIf (c ≠ s.par.gbsc.toNat) .headerFramingError
    getscGroup : M Unit) s := by
  rw [getscBody, M.look_bind, h, if_neg Bool.false_ne_true]
  rfl

theorem getscBody_seen {s : State} (h : s.scseen = true) : getscBody s = getscGroup s := by
  rw [getscBody, M.look_bind, if_pos h]
  rfl

theorem getscBody_code {s : State} (hseen : s.scseen = false) (h : s.SourceHolds (bits 16 s.par.gbsc.toNat)) :
    getscBody s = getscGroup (s.consumed 16) := by
  rw [getscBody_unseen hseen, M.bind_ok (Reads.getbits_of_lt s.par.gbsc.isLt s h), M.raiseIf_bind,
    if_neg (not_not_intro rfl), bits_length]

/-- The start code that GETSC still has to read. -/
def State.codeAhead (s : State) : List Bool := if s.scseen then [] else bits 16 s.par.gbsc.toNat

theorem getscBody_past_code {s : State} (h : s.SourceHolds s.codeAhead) :
    getscBody s = getscGroup (s.consumed s.codeAhead.length) := by
  cases hseen : s.scseen with
  | true => rw [State.codeAhead, if_pos hseen, List.length_nil, State.consumed_zero, getscBody_seen hseen]
  | false =>
    rw [State.codeAhead, if_neg (by simp [hseen])] at h ⊢
    rw [getscBody_code hseen h, bits_length]

theorem getscGroup_number {s : State} {g : Nat} (hg : g < 16) (h : s.SourceHolds (bits 4 g)) :
    getscGroup s =
      if g > 12 then .error .boundsError (s.codePassed.consumed 4)
      else .ok () ((s.codePassed.consumed 4).setRes 0 (BitVec.ofNat 32 g)) := by
  have hread : getbits 4 s.codePassed = .ok g (s.codePassed.consumed 4) := Reads.getbits_of_lt hg s.codePassed h
  rw [getscGroup, M.change_bind, M.bind_ok hread, M.raiseIf_bind, writeRes_run]

theorem getscGroup_eof {s : State} (h : s.rpos.toNat + 4 > 8 * s.src.length) :
    getscGroup s = .error .unexpectedEof s.codePassed := by
  rw [getscGroup, M.change_bind, M.bind_error (getbits_eof 4 s.codePassed h)]

/-- Where the group number ends in the source. -/
theorem State.codePassed_consumed (s : State) : (s.consumed s.codeAhead.length).codePassed.consumed 4 =
    { s with scseen := false, rpos := s.rpos + (if s.scseen then 4 else 20) } := by
  have hpos : s.rpos + BitVec.ofNat 64 s.codeAhead.length + BitVec.ofNat 64 4 =
      s.rpos + (if s.scseen then 4 else 20) := by
    rw [BitVec.add_assoc, State.codeAhead]
    split <;> simp
  rw [← hpos]
  rfl

/-- GETSC on a source that holds the code, if it is still to be read, and a number of 4 bits. -/
theorem getscBody_number {s : State} {g : Nat} (hg : g < 16) (h : s.SourceHolds (s.codeAhead ++ bits 4 g)) :
    getscBody s =
      if g > 12 then .error .boundsError { s with scseen := false, rpos := s.rpos + (if s.scseen then 4 else 20) }
      else .ok () (({ s with scseen := false, rpos := s.rpos + (if s.scseen then 4 else 20) } : State).setRes 0
        (BitVec.ofNat 32 g)) := by
  obtain ⟨hcode, hnum⟩ := SourceHolds.split h
  rw [getscBody_past_code hcode, getscGroup_number hg hnum, State.codePassed_consumed]

/-- GETSC on a source that holds the code and ends inside the number. -/
theorem getscBody_number_eof {s : State} (hseen : s.scseen = false) (h : s.SourceHolds (bits 16 s.par.gbsc.toNat))
    (hend : s.rpos.toNat + 20 > 8 * s.src.length) :
    getscBody s = .error .unexpectedEof { s with scseen := false, rpos := s.rpos + 16 } := by
  obtain ⟨h8, hlen, -⟩ := id h
  have hpos := s.consumed_toNat _ h8 hlen
  rw [bits_length] at hpos
  rw [getscBody_code hseen h]
  exact getscGroup_eof (by rw [hpos]; exact hend)

/-- Settles O51: the code, then the number, each whole or cut off. -/
theorem getscReadsStartCode : Obligations.GetscReadsStartCode := by
  intro s hf
  refine ⟨fun g hg hs => ?_, fun g h13 h15 hs => ?_, fun c hc hne hseen hs => ?_, fun hseen hend => ?_,
    fun hseen hs hend => ?_, fun hseen hend => ?_⟩
  · exact gated_ok hf (by rw [getscBody_number (by omega) hs, if_neg (by omega)]; rfl)
  · exact gated_raises hf ((getscBody_number (Nat.lt_succ_of_le h15) hs).trans (if_pos h13)) hf
  · exact gated_stops (n := 16) hf (by
      rw [getscBody_unseen hseen, M.bind_ok (Reads.getbits_of_lt hc s hs), M.raiseIf_bind, if_pos hne, bits_length])
  · exact gated_refuses hf (by rw [getscBody_unseen hseen, M.bind_error (getbits_eof 16 s hend)])
  · exact gated_raises hf (getscBody_number_eof hseen hs hend) hf
  · exact gated_raises hf ((getscBody_seen hseen).trans (getscGroup_eof hend)) hf

/-! GETPIC and GETGOB (46_framing.md R246, R247, R249) -/

/-- GETPIC with the count of rounds for its tail. -/
def getpicWith (fuel : Nat) : M Unit := do
  let tr ← getbits 5
  let pt ← getbits 6
  let n ← getTail fuel 0
  writeRes 0 tr
  writeRes 1 pt
  writeRes 2 n

/-- GETGOB with the count of rounds for its tail. -/
def getgobWith (fuel : Nat) : M Unit := do
  let gq ← getbits 5
  let n ← getTail fuel 0
  startGob
  writeRes 0 gq
  writeRes 1 n

theorem getbits_keepsFuel (n : Nat) : Keeps (fun s t : State => t.readFuel = s.readFuel) (getbits n) :=
  getbits_same State.readFuel (fun _ _ => rfl) n

theorem getpicBody_run (s : State) : getpicBody s = getpicWith s.readFuel s :=
  M.bind_congr_of_keeps (getbits_keepsFuel 5) (fun _ _ ht =>
    M.bind_congr_of_keeps (getbits_keepsFuel 6) (fun _ _ hu => by rw [M.look_bind, hu, ht]))

theorem getgobBody_run (s : State) : getgobBody s = getgobWith s.readFuel s :=
  M.bind_congr_of_keeps (getbits_keepsFuel 5) (fun _ _ ht => by rw [M.look_bind, ht])

/-- The extension bytes of a tail that the source holds are fewer than the rounds. -/
theorem SourceHolds.tail_fuel {s : State} {xs : List Bool} {ext : List Byte} (h : s.SourceHolds (xs ++ tailBits ext)) :
    ext.length < s.readFuel := by
  have hfuel := SourceHolds.fuel h
  rw [List.length_append, tailBits_length] at hfuel
  omega

theorem getpicWith_holds {tr pt fuel : Nat} {ext : List Byte} {s : State} (htr : tr < 32) (hpt : pt < 64)
    (hfuel : ext.length < fuel) (h : s.SourceHolds (bits 5 tr ++ bits 6 pt ++ tailBits ext)) :
    getpicWith fuel s = .ok () { s with
      rpos := s.rpos + BitVec.ofNat 64 (12 + 9 * ext.length),
      res := #v[BitVec.ofNat 32 tr, BitVec.ofNat 32 pt, BitVec.ofNat 32 ext.length, s.res[3]] } := by
  rw [List.append_assoc] at h
  obtain ⟨h1, h'⟩ := SourceHolds.split h
  obtain ⟨h2, h3⟩ := SourceHolds.split h'
  have hlen : (bits 5 tr).length + ((bits 6 pt).length + (tailBits ext).length) = 12 + 9 * ext.length := by
    rw [bits_length, bits_length, tailBits_length]
    omega
  rw [getpicWith, M.bind_ok (Reads.getbits_of_lt htr s h1), M.bind_ok (Reads.getbits_of_lt hpt _ h2),
    M.bind_ok (getTail_reads ext fuel 0 hfuel _ h3), writeRes_bind, writeRes_bind, writeRes_run, State.setRes_three,
    State.consumed_consumed, State.consumed_consumed, hlen, Nat.zero_add]
  rfl

theorem getpicWith_stops {tr pt fuel : Nat} {ext : List Byte} (htr : tr < 32) (hpt : pt < 64)
    (hfuel : ext.length < fuel) :
    StopsAt (getpicWith fuel) (bits 5 tr ++ bits 6 pt ++ tailBits ext) (fun k => if k < 5 then 0 else if k < 11 then 5
      else 11 + 9 * ((k - 11) / 9) + min 1 ((k - 11) % 9)) := by
  rw [List.append_assoc]
  refine StopsAt.of_eq (StopsAt.bind (f := fun tr => _) (Reads.getbits_of_lt (n := 5) htr) (StopsAt.getbits_bits 5 tr)
    (StopsAt.bind (f := fun pt => _) (Reads.getbits_of_lt (n := 6) hpt) (StopsAt.getbits_bits 6 pt)
      ((getTail_stops ext fuel 0 hfuel).andThen _))) (fun k => ?_)
  simp only [bits_length]
  split_ifs <;> omega

/-- Settles O52: the tail has fewer bytes than the rounds, or the source ends inside a shorter tail. -/
theorem getpicReadsHeader : Obligations.GetpicReadsHeader := by
  intro s tr pt ext hf htr hpt
  refine ⟨fun hs => ?_, fun pre hp hl he => ?_⟩
  · exact gated_ok hf ((getpicBody_run s).trans (getpicWith_holds htr hpt (SourceHolds.tail_fuel hs) hs))
  · obtain ⟨l, hfuel, hp', hl'⟩ := ends_lessTail ext hp (by simp [tailBits_length]; omega) he
    exact gated_stops hf ((getpicBody_run s).trans (getpicWith_stops htr hpt hfuel s pre hp' hl' he))

theorem getgobWith_holds {gq fuel : Nat} {ext : List Byte} {s : State} (hgq : gq < 32) (hfuel : ext.length < fuel)
    (h : s.SourceHolds (bits 5 gq ++ tailBits ext)) :
    getgobWith fuel s = .ok () { s with
      rpos := s.rpos + BitVec.ofNat 64 (6 + 9 * ext.length),
      lastMv := ⟨0, 0⟩,
      mbaddr := 0,
      res := #v[BitVec.ofNat 32 gq, BitVec.ofNat 32 ext.length, s.res[2], s.res[3]] } := by
  obtain ⟨h1, h2⟩ := SourceHolds.split h
  have hlen : (bits 5 gq).length + (tailBits ext).length = 6 + 9 * ext.length := by
    rw [bits_length, tailBits_length]
    omega
  rw [getgobWith, M.bind_ok (Reads.getbits_of_lt hgq s h1), M.bind_ok (getTail_reads ext fuel 0 hfuel _ h2), startGob,
    M.change_bind, writeRes_bind, writeRes_run, State.setRes_pair, State.consumed_consumed, hlen, Nat.zero_add]
  rfl

theorem getgobWith_stops {gq fuel : Nat} {ext : List Byte} (hgq : gq < 32) (hfuel : ext.length < fuel) :
    StopsAt (getgobWith fuel) (bits 5 gq ++ tailBits ext) (fun k => if k < 5 then 0
      else 5 + 9 * ((k - 5) / 9) + min 1 ((k - 5) % 9)) := by
  refine StopsAt.of_eq (StopsAt.bind (f := fun gq => _) (Reads.getbits_of_lt (n := 5) hgq)
    (StopsAt.getbits_bits 5 gq) ((getTail_stops ext fuel 0 hfuel).andThen _)) (fun k => ?_)
  simp only [bits_length]
  split_ifs <;> omega

/-- Settles O53, as O52: the session is changed only after the tail. -/
theorem getgobReadsHeader : Obligations.GetgobReadsHeader := by
  intro s gq ext hf hgq
  refine ⟨fun hs => ?_, fun pre hp hl he => ?_⟩
  · exact gated_ok hf ((getgobBody_run s).trans (getgobWith_holds hgq (SourceHolds.tail_fuel hs) hs))
  · obtain ⟨l, hfuel, hp', hl'⟩ := ends_lessTail ext hp (by simp [tailBits_length]; omega) he
    exact gated_stops hf ((getgobBody_run s).trans (getgobWith_stops hgq hfuel s pre hp' hl' he))

/-! GETMB (46_framing.md R244, R248, R250, R252) -/

/-- What GETMB returns and leaves in the session after the fields `f` of a header (46_framing.md R248). -/
def getmbReturn (p : Params) (a addr : Nat) (f : Nat × Nat × Mv × Nat) : M Unit := do
  let mv := f.2.2.1
  M.change (fun s => s.afterHeader (if (mtypeAttr p f.1).mv then mv5Of mv.h mv.v else Mv5.zero) addr)
  writeRes 0 a
  writeRes 1 (f.1 ||| (f.2.1 <<< 8) ||| (f.2.2.2 <<< 16))
  writeResInt 2 mv.h
  writeResInt 3 mv.v

/-- GETMB after the address difference `a`, in a session with the address `last` and the vector `mv`. -/
def getmbAfter (p : Params) (last : Nat) (mv : Mv5) (a : Nat) : M Unit :=
  if a = mbaStartcode then getmbStart
  else do
    M.raiseIf (last + a > 33) .boundsError
    let f ← readHeader p (mvPredictor p mv a (last + a))
    getmbReturn p a (last + a) f

/-- GETMB with the session and the count of rounds for its stuffing. -/
def getmbWith (p : Params) (fuel last : Nat) (mv : Mv5) : M Unit := do
  let a ← skipStuffing p fuel
  getmbAfter p last mv a

/-- Skipping stuffing leaves the session as it is. -/
theorem getmbBody_run (s : State) : getmbBody s = getmbWith s.par s.readFuel s.mbaddr.toNat s.lastMv s := by
  have hkeeps := Keeps.of_skipStuffing (Composes.same (fun s : State => (s.mbaddr, s.lastMv)))
    (getbits_same _ (fun _ _ => rfl)) s.par s.readFuel
  rw [getmbBody, M.look_bind, M.look_bind]
  refine M.bind_congr_of_keeps hkeeps (fun a t ht => ?_)
  obtain ⟨haddr, hmv⟩ := Prod.mk.inj ht
  rw [getmbAfter, ← haddr, ← hmv]
  split
  · rfl
  · rw [M.look_bind, M.raiseIf_bind, M.raiseIf_bind]
    rfl

theorem getmbAfter_start (p : Params) (last : Nat) (mv : Mv5) (s : State) :
    getmbAfter p last mv 35 s = .ok () { s with scseen := true, res := #v[0, 0, 0, 0] } := by
  rw [getmbAfter, if_pos (show 35 = mbaStartcode from rfl), getmbStart, M.change_bind, writeRes_bind, writeRes_bind,
    writeRes_bind, writeRes_run, State.setRes_all]
  rfl

theorem getmbAfter_header {p : Params} {last a : Nat} (mv : Mv5) (ha : a ≤ 33) (haddr : last + a ≤ 33) :
    getmbAfter p last mv a =
      (readHeader p (mvPredictor p mv a (last + a)) >>= fun f => getmbReturn p a (last + a) f) := by
  rw [getmbAfter, if_neg (by rw [mbaStartcode]; omega), M.raiseIf, if_neg (by omega), pure_bind]

theorem getmbAfter_outside {p : Params} {last a : Nat} (mv : Mv5) (ha : a ≤ 33) (haddr : last + a > 33) (s : State) :
    getmbAfter p last mv a s = .error .boundsError s := by
  rw [getmbAfter, if_neg (by rw [mbaStartcode]; omega), M.raiseIf_bind, if_pos haddr]

/-- The word of `RES1` (46_framing.md R248). -/
theorem fieldsWord_eq {t q c : Nat} (ht : t < 2 ^ 8) (hq : q < 2 ^ 8) :
    t ||| (q <<< 8) ||| (c <<< 16) = t + 256 * q + 65536 * c := by
  have hlow : t ||| (q <<< 8) = 2 ^ 8 * q + t := by
    rw [Nat.two_pow_add_eq_or_of_lt ht, Nat.or_comm, Nat.shiftLeft_eq, Nat.mul_comm]
  rw [hlow, Nat.or_comm, Nat.shiftLeft_eq, Nat.mul_comm c, ← Nat.two_pow_add_eq_or_of_lt (by omega)]
  omega

theorem getmbReturn_run (p : Params) (a addr : Nat) {t q c : Nat} (mv : Mv) (ht : t < 2 ^ 8) (hq : q < 2 ^ 8)
    (s : State) : getmbReturn p a addr (t, q, mv, c) s = .ok () { s with
      lastMv := if (mtypeAttr p t).mv then ⟨BitVec.ofInt 5 mv.h, BitVec.ofInt 5 mv.v⟩ else ⟨0, 0⟩,
      mbaddr := BitVec.ofNat 6 addr,
      res := #v[BitVec.ofNat 32 a, BitVec.ofNat 32 (t + 256 * q + 65536 * c), BitVec.ofInt 32 mv.h,
        BitVec.ofInt 32 mv.v] } := by
  rw [getmbReturn, M.change_bind, writeRes_bind, writeRes_bind, writeResInt_bind, writeResInt_run, State.setRes_all,
    fieldsWord_eq ht hq]
  rfl

/-- The bits of `n` words of stuffing and an address difference (46_framing.md R248). -/
def addressBits (p : Params) (n a : Nat) : List Bool :=
  (List.replicate n (codeWord p.tblMba 34)).flatten ++ codeWord p.tblMba a

/-- There are fewer words of stuffing than rounds. -/
theorem SourceHolds.stuffing_fuel {p : Params} (hp : p.wf = true) {s : State} {n : Nat} {x : List Bool}
    (h : s.SourceHolds ((List.replicate n (codeWord p.tblMba 34)).flatten ++ x)) : n < s.readFuel := by
  have hfuel := SourceHolds.fuel h
  rw [List.length_append] at hfuel
  have hlen := stuffing_length hp n
  omega

theorem codeWord_ne_nil {t : VlcTable} (ht : vlcOk t = true) {x : Nat} (hx : (vlcWord? t x).isSome = true) :
    codeWord t x ≠ [] := by
  have hw := codeWord_some hx
  rw [vlcWord?, Option.map_eq_some_iff] at hw
  obtain ⟨e, he, hbits⟩ := hw
  have hlen := (vlcSized_mem (vlcOk_sized ht) e (List.mem_of_find?_eq_some he)).2
  rw [← hbits, ← List.length_pos_iff, bits_length]
  exact hlen

theorem mbaWord_ne_nil {p : Params} (hp : p.wf = true) {a : Nat} (h1 : 1 ≤ a) (h35 : a ≤ 35) :
    codeWord p.tblMba a ≠ [] := codeWord_ne_nil (vlcOk_tableOf hp .mba) (mba_entry hp a h1 h35)

/-- GETMB past its stuffing and its address difference. -/
theorem getmbBody_past_address {s : State} (hp : s.par.wf = true) {n a : Nat} (h1 : 1 ≤ a) (h35 : a ≤ 35) (h34 : a ≠ 34)
    (h : s.SourceHolds (addressBits s.par n a)) : getmbBody s =
      getmbAfter s.par s.mbaddr.toNat s.lastMv a (s.consumed (addressBits s.par n a).length) := by
  rw [getmbBody_run, getmbWith]
  exact M.bind_ok ((skipStuffing_reads hp n a s.readFuel h1 h35 h34 (SourceHolds.stuffing_fuel hp h)).1 s h)

/-- GETMB on a source that ends inside what follows any number of words of stuffing. -/
theorem exec_getmb_eof {s : State} (hf : s.status.fault = false) (hp : s.par.wf = true) {n a : Nat} {x : List Bool}
    (h1 : 1 ≤ a) (h35 : a ≤ 35) (h34 : a ≠ 34) (hafter : Stops (getmbAfter s.par s.mbaddr.toNat s.lastMv a) x)
    (h : s.SourceEndsInside (addressBits s.par n a ++ x)) :
    ∃ k, s.rpos.toNat + k ≤ 8 * s.src.length ∧
      exec .getmb s = .next ((s.consumed k).faulted .unexpectedEof .getmb) := by
  rw [addressBits, List.append_assoc] at h
  obtain ⟨m, hm, hin⟩ := endsInside_lessStuffing n (mbaWord_ne_nil hp (by decide) (by decide))
    (List.append_ne_nil_of_left_ne_nil (mbaWord_ne_nil hp h1 h35) x) h
  obtain ⟨hread, hstop⟩ := skipStuffing_reads hp m a s.readFuel h1 h35 h34 hm
  rw [← List.append_assoc] at hin
  obtain ⟨k, hk, hrun⟩ := (Stops.bind hread hstop hafter).run hin
  exact ⟨k, hk, gated_stops hf ((getmbBody_run s).trans hrun)⟩

section Header

variable {s : State} (hp : s.par.wf = true) {mba mtype mquant : Nat} {mvh mvv : Int} {cbp : Nat} (h1 : 1 ≤ mba)
  (haddr : s.mbaddr.toNat + mba ≤ 33) (ht : mtype ≤ 9) (hq : mquant < 32) (hc : cbp < 64) (hh : fitsS5 mvh)
  (hv : fitsS5 mvv) (hs : ¬ strayField (mtypeAttr s.par mtype) mquant mvh mvv cbp)
  (hcbp : (mtypeAttr s.par mtype).cbp = true → cbp ≠ 0)

include hp h1 haddr ht hq hc hh hv hs hcbp

/-- GETMB on a source that holds a header. -/
theorem exec_getmb_header (hf : s.status.fault = false) {n : Nat} {bs : List Bool}
    (hbs : bs = addressBits s.par n mba ++
      fieldBits s.par (mvdKey mvh (mvPredictor s.par s.lastMv mba (s.mbaddr.toNat + mba)).h)
        (mvdKey mvv (mvPredictor s.par s.lastMv mba (s.mbaddr.toNat + mba)).v) mtype mquant cbp)
    (h : s.SourceHolds bs) :
    exec .getmb s = .next { s with
      rpos := s.rpos + BitVec.ofNat 64 bs.length,
      lastMv := if (mtypeAttr s.par mtype).mv then ⟨BitVec.ofInt 5 mvh, BitVec.ofInt 5 mvv⟩ else ⟨0, 0⟩,
      mbaddr := BitVec.ofNat 6 (s.mbaddr.toNat + mba),
      res := #v[BitVec.ofNat 32 mba, BitVec.ofNat 32 (mtype + 256 * mquant + 65536 * cbp), BitVec.ofInt 32 mvh,
        BitVec.ofInt 32 mvv] } := by
  subst hbs
  obtain ⟨ha, hfields⟩ := SourceHolds.split h
  have hread := (readHeader_reads hp (mvPredictor s.par s.lastMv mba (s.mbaddr.toNat + mba)) ht hq hc hh hv hs hcbp).1
  refine gated_ok hf ?_
  rw [getmbBody_past_address hp h1 (by omega) (by omega) ha, getmbAfter_header _ (by omega) haddr,
    M.bind_ok (hread _ hfields), getmbReturn_run _ _ _ _ (by omega) (by omega), State.consumed_consumed,
    ← List.length_append]
  rfl

/-- GETMB on a source that ends inside a header. -/
theorem exec_getmb_header_eof (hf : s.status.fault = false) {n : Nat}
    (h : s.SourceEndsInside (addressBits s.par n mba ++
      fieldBits s.par (mvdKey mvh (mvPredictor s.par s.lastMv mba (s.mbaddr.toNat + mba)).h)
        (mvdKey mvv (mvPredictor s.par s.lastMv mba (s.mbaddr.toNat + mba)).v) mtype mquant cbp)) :
    ∃ k, s.rpos.toNat + k ≤ 8 * s.src.length ∧
      exec .getmb s = .next ((s.consumed k).faulted .unexpectedEof .getmb) := by
  have hstop := (readHeader_reads hp (mvPredictor s.par s.lastMv mba (s.mbaddr.toNat + mba)) ht hq hc hh hv hs hcbp).2
  refine exec_getmb_eof hf hp h1 (by omega) (by omega) ?_ h
  rw [getmbAfter_header _ (by omega) haddr]
  exact hstop.andThen _

end Header

/-- A header with stuffing before it. -/
theorem stuffed_headerBits (p : Params) (n kh kv mba mtype mquant cbp : Nat) :
    (List.replicate n (codeWord p.tblMba 34)).flatten ++ headerBits p kh kv mba mtype mquant cbp =
      addressBits p n mba ++ fieldBits p kh kv mtype mquant cbp := by
  rw [headerBits_eq, addressBits, List.append_assoc]

/-- Settles O54: past the stuffing stands an address difference of a header, the start code, or one that leaves the
group; each is read whole, or the source ends inside it. -/
theorem getmbReadsHeader : Obligations.GetmbReadsHeader := by
  intro s n hf hp
  refine ⟨?_, ?_, ?_⟩
  · intro mba mtype mquant mvh mvv cbp h1 haddr ht hq hc hh hv hs hcbp ph pv hpred bs hbs
    obtain ⟨rfl, rfl⟩ := predictor_components hpred
    rw [← mvdKey_eq, ← mvdKey_eq, stuffed_headerBits] at hbs
    refine ⟨exec_getmb_header hp h1 haddr ht hq hc hh hv hs hcbp hf hbs, fun h => ?_⟩
    exact exec_getmb_header_eof hp h1 haddr ht hq hc hh hv hs hcbp hf (hbs ▸ h)
  · rintro bs rfl
    refine ⟨fun h => ?_, fun h => ?_⟩
    · exact gated_ok hf ((getmbBody_past_address (n := n) hp (by decide) (by decide) (by decide) h).trans
        (getmbAfter_start ..))
    · exact exec_getmb_eof (n := n) (a := 35) (x := []) hf hp (by decide) (by decide) (by decide) (Stops.nil _)
        (by rwa [List.append_nil])
  · rintro a bs h1 h33 hout rfl h
    exact gated_stops hf ((getmbBody_past_address (n := n) hp h1 (by omega) (by omega) h).trans
      (getmbAfter_outside _ h33 hout _))

/-! The round trip (46_framing.md R253) -/

/-- Settles O55: PUTMB appends the header of its operands against the predictor, which GETMB reads against the same. -/
theorem macroblockHeaderRoundTrip : Obligations.MacroblockHeaderRoundTrip := by
  intro s mba mtype mquant mvh mvv cbp hf hw hacc hp hok haddr
  obtain ⟨t, happ, hput⟩ :=
    (putmbWritesHeader s mba mtype mquant mvh mvv cbp hf hw hp hok haddr _ _ (mvPredictor_eq ..)).1 hacc
  obtain ⟨h1, -, ht, hq, hc, hh, hv, hs, -, hcbp⟩ := hok
  refine ⟨_, _, hput, happ.written, fun r hfr hpar hmv hmb hsrc => ?_⟩
  rw [← mvdKey_eq, ← mvdKey_eq, headerBits_eq] at hsrc ⊢
  rw [← hpar] at hp hs hcbp
  have hget := exec_getmb_header (s := r) (n := 0) hp h1 (by rwa [hmb]) ht hq hc hh hv hs hcbp hfr
    (by rw [hpar, hmv, hmb]; rfl) hsrc
  rw [hpar, hmb] at hget
  exact ⟨_, hget, hfr, rfl, rfl, rfl, rfl⟩

end Sys2Proof.Machine
end

section
/-!
The system commands (47_system.md R280 to R286): the faulted state, NOP, the control registers, and blocks as the words
that BLKWR takes and BLKRD answers.
-/

namespace Sys2Proof

/-! Illegal commands and blocks in a list of words (30_encoding.md R76, 20_memory.md R53) -/

theorem decode_error {h : Word} {x rest : List Word} {why : Illegal} (hx : x.length = extWordsOf h)
    (hd : decodeHead h.toNat x = .error why) :
    decode (h :: x ++ rest) = .illegal why (BitVec.ofNat 8 (headOpc h)) rest := by
  rw [List.cons_append, decode, if_neg (by rw [List.length_append]; omega), List.take_left' hx, hd,
    List.drop_left' hx]

theorem zeroed_of_ne_zero {fs : List Nat} {i : Instr} {f : Nat} (hf : f ∈ fs) (h0 : f ≠ 0) :
    zeroed fs i = .error .mustBeZero :=
  if_neg fun hall => h0 (by simpa using List.all_eq_true.1 hall f hf)

/-- The even lane of a pair is the low half of its word. -/
theorem blockOfWords_even {x : List Word} {j : Nat} (hj : j < 32) {w : Word} (hw : x[j]? = some w) :
    (blockOfWords x)[2 * j] = w.setWidth 16 := by
  simp [blockOfWords, laneOfWords, hw]

/-- The odd lane of a pair is the high half of its word. -/
theorem blockOfWords_odd {x : List Word} {j : Nat} (hj : j < 32) {w : Word} (hw : x[j]? = some w) :
    (blockOfWords x)[2 * j + 1] = (w >>> 16).setWidth 16 := by
  have hodd : (2 * j + 1) % 2 = 1 := by omega
  have hhalf : (2 * j + 1) / 2 = j := by omega
  simp [blockOfWords, laneOfWords, hodd, hhalf, hw]

theorem or_shiftLeft_of_lt {a k : Nat} (ha : a < 2 ^ k) (b : Nat) : a ||| b <<< k = a + 2 ^ k * b := by
  rw [Nat.or_comm, ← Nat.shiftLeft_add_eq_or_of_lt ha, Nat.shiftLeft_eq, Nat.mul_comm, Nat.add_comm]

/-- A word of a block as the number of its two lanes. -/
theorem wordOfBlock_toNat (b : Block) {j : Nat} (hj : j < 32) :
    (wordOfBlock b j).toNat = b[2 * j].toNat + 2 ^ 16 * b[2 * j + 1].toNat := by
  rw [wordOfBlock, Vector.getElem?_eq_getElem (by omega), Vector.getElem?_eq_getElem (by omega)]
  exact (BitVec.toNat_append ..).trans ((Nat.or_comm ..).trans (or_shiftLeft_of_lt b[2 * j].isLt _))

theorem wordsOfBlock_getElem? (b : Block) {j : Nat} (hj : j < 32) :
    (wordsOfBlock b)[j]? = some (wordOfBlock b j) := by
  simp [wordsOfBlock, hj]

/-- The words of a BLKWR that carries 32 given words (47_system.md R285). -/
theorem encode_blkwr {b : Fin 8} {h : Word} {xs : List Word} (hx : xs.length = 32)
    (hh : h.toNat = 0x08 * 2 ^ 24 + b.val * 2 ^ 21) : encode (.blkwr b (blockOfWords xs)) = h :: xs :=
  congrArg₂ List.cons (ofNat_of_eq_toNat h hh.symm) (wordsOfBlock_block xs hx)

theorem decode_blkwr {b : Fin 8} {h : Word} {xs : List Word} (hx : xs.length = 32)
    (hh : h.toNat = 0x08 * 2 ^ 24 + b.val * 2 ^ 21) (rest : List Word) :
    decode (h :: xs ++ rest) = .instr (.blkwr b (blockOfWords xs)) rest :=
  encode_blkwr hx hh ▸ decodeInvertsEncode (.blkwr b (blockOfWords xs)) rest rfl

end Sys2Proof

namespace Sys2Proof.Machine

/-! The faulted state (47_system.md R280) -/

/-- The commands but RESET and CSRR are gated. -/
theorem exec_faulted {i : Instr} {s : State} (hf : s.status.fault = true) (hreset : i ≠ .reset)
    (hcsrr : ∀ csr, i ≠ .csrr csr) : exec i s = .next s := by
  cases i with
  | reset => exact absurd rfl hreset
  | csrr csr => exact absurd rfl (hcsrr csr)
  | _ => exact gated_faulted hf

theorem State.advance_of_fault {s : State} (hf : s.status.fault = true) : s.advance = s := if_pos hf

/-- Settles O8: gating and the dropped `IllegalCommand` leave the state without the words taken; CSRR keeps a fault as
every command but RESET does. -/
theorem faultedEngineGates : Obligations.FaultedEngineGates := by
  intro s hf
  refine ⟨fun i => exec_faulted hf, fun i rest hd hreset hcsrr => ?_, fun why opc rest hd => ?_, fun csr t h => ?_,
    _, exec_reset s, rfl⟩
  · rw [step_instr hd (exec_faulted (s := s.withQueue rest) hf hreset hcsrr)]
    exact congrArg _ (State.advance_of_fault (s := s.withQueue rest) hf)
  · rw [step_illegal hd]
    exact congrArg _ ((s.withQueue rest).raiseFault_of_fault _ _ hf)
  · exact exec_statusStays (by simp) h (.inl hf)

/-! NOP (47_system.md R281) -/

/-- Settles O14: NOP has nothing to do in the unfaulted state and is gated in the faulted one; its word is its encoding. -/
theorem nopDoesNothing : Obligations.NopDoesNothing := by
  refine ⟨fun s => ?_, fun rest => decodeInvertsEncode .nop rest rfl⟩
  cases hf : s.status.fault with
  | true => exact gated_faulted hf
  | false => exact gated_ok hf (M.pure_run () s)

/-! CSRR (47_system.md R283) -/

/-- The word of `STATUS` in the layout of 10_state.md R26: its fields do not overlap. -/
theorem Status.word_eq (st : Status) : st.word = st.fault.toNat + 16 * st.cause.code + 256 * st.fop.toNat := by
  have hcause : st.cause.code < 16 := by cases st.cause <;> decide
  have hlow : st.fault.toNat ||| st.cause.code <<< 4 = st.fault.toNat + 16 * st.cause.code :=
    or_shiftLeft_of_lt (st.fault.toNat_lt.trans (by decide)) _
  have := st.fault.toNat_lt
  rw [Status.word, hlow]
  exact or_shiftLeft_of_lt (by omega) _

/-- The word of `LASTMV` in the layout of 10_state.md R29. -/
theorem lastMvWord_eq (m : Mv5) : lastMvWord m = m.h.toNat + 256 * m.v.toNat :=
  or_shiftLeft_of_lt (m.h.isLt.trans (by decide)) _

theorem State.csr_of_le (s : State) : ∀ {csr : Nat}, csr ≤ 6 → s.csr? csr = some (s.csrLayout csr)
  | 0, _ => congrArg some s.status.word_eq
  | 4, _ => congrArg some (lastMvWord_eq s.lastMv)
  | 1, _ | 2, _ | 3, _ | 5, _ | 6, _ => rfl

theorem State.csr_of_gt (s : State) {csr : Nat} (h : csr > 6) : s.csr? csr = none := by
  obtain ⟨k, rfl⟩ := Nat.exists_eq_add_of_lt h
  rw [show 6 + k + 1 = k + 7 by omega]
  rfl

theorem csrrBody_some {s : State} {csr v : Nat} (h : s.csr? csr = some v) :
    csrrBody csr s = .ok () (s.setRes 0 (BitVec.ofNat 32 v)) := by
  rw [csrrBody, M.look_bind, h]
  exact writeRes_run 0 v s

theorem csrrBody_none {s : State} {csr : Nat} (h : s.csr? csr = none) :
    csrrBody csr s = .error .argumentError s := by
  rw [csrrBody, M.look_bind, h]
  exact M.raise_run _ s

theorem decode_csrr_mustBeZero {h : Word} (hopc : h.toNat / 2 ^ 24 = 0x02) (hlow : h.toNat % 2 ^ 16 ≠ 0)
    (rest : List Word) : decode (h :: rest) = .illegal .mustBeZero 0x02 rest := by
  have hhead : decodeHead h.toNat [] = .error .mustBeZero := by
    rw [decodeHead_eq (op := .csrr) hopc]
    exact zeroed_of_ne_zero (List.mem_singleton_self _) (by simpa [field] using hlow)
  have hill := decode_error (x := []) (rest := rest) (extWordsOf_eq (op := .csrr) hopc).symm hhead
  rwa [headOpc, hopc] at hill

/-- Settles O15: a register that exists is read, another number raises, which the faulted state drops; `imm16` is a field
of the head word that must be zero. -/
theorem csrrReadsRegister : Obligations.CsrrReadsRegister := by
  refine ⟨fun s csr h => ?_, fun s csr h hf => ?_, fun s csr h hf => ?_, fun h rest hopc hlow => ?_⟩
  · exact ungated_ok (csrrBody_some (s.csr_of_le h))
  · exact (ungated_error (csrrBody_none (s.csr_of_gt h))).trans (congrArg _ (s.raiseFault_of_clear _ _ hf))
  · exact (ungated_error (csrrBody_none (s.csr_of_gt h))).trans (congrArg _ (s.raiseFault_of_fault _ _ hf))
  · exact decode_csrr_mustBeZero hopc hlow rest

/-! CSRW (47_system.md R284) -/

/-- A command that makes one check and then one change. -/
theorem gated_check_change {op : Opcode} {c : Cause} {p : Prop} [Decidable p] {f : State → State} {s : State}
    (hf : s.status.fault = false) :
    gated op (do M.raiseIf p c; M.change f) s = .next (if p then s.faulted c op else f s) := by
  split
  · exact gated_refuses hf (by rw [M.raiseIf_bind, if_pos ‹p›])
  · exact gated_ok hf (by rw [M.raiseIf_bind, if_neg ‹¬p›, M.change_run])

/-- What a plane size may not be (10_state.md R28). -/
theorem planeSizeOk_eq_false_iff {max : Nat} {v : BitVec 16} :
    planeSizeOk max v = false ↔ v.toNat ≠ 0 ∧ (v.toNat % 16 ≠ 0 ∨ v.toNat > max) := by
  simp only [planeSizeOk, Bool.and_eq_false_iff, decide_eq_false_iff_not]
  omega

theorem csrwBody_other {csr : Nat} (h1 : csr ≠ 1) (h2 : csr ≠ 2) (h3 : csr ≠ 3) (v : BitVec 16) :
    csrwBody csr v = M.raise .argumentError := by
  unfold csrwBody
  split
  · exact absurd rfl h1
  · exact absurd rfl h2
  · exact absurd rfl h3
  · rfl

/-- Settles O16: the three writable registers each have one check before the write; every other number raises. -/
theorem csrwWritesRegister : Obligations.CsrwWritesRegister := by
  intro s csr v hf
  by_cases h1 : csr = 1
  · subst h1
    have hcfg : v.toNat ≥ 4 ↔ v.toNat / 4 ≠ 0 := by omega
    exact (gated_check_change hf).trans (by simp only [hcfg, if_true])
  by_cases h2 : csr = 2
  · subst h2
    exact (gated_check_change hf).trans (by simp only [planeSizeOk_eq_false_iff, h1, if_true, if_false])
  by_cases h3 : csr = 3
  · subst h3
    exact (gated_check_change hf).trans (by simp only [planeSizeOk_eq_false_iff, h1, h2, if_true, if_false])
  · rw [if_neg h1, if_neg h2, if_neg h3]
    exact gated_refuses hf (by rw [csrwBody_other h1 h2 h3, M.raise_run])

/-! BLKWR and BLKRD (47_system.md R285, R286) -/

theorem exec_blkwr {s : State} (hf : s.status.fault = false) (b : Fin 8) (lanes : Block) :
    exec (.blkwr b lanes) s = .next (s.setBlock b lanes) := gated_ok hf (writeBlock_run b lanes s)

theorem exec_blkrd {s : State} (hf : s.status.fault = false) (b : Fin 8) :
    exec (.blkrd b) s = .next { s with resp := wordsOfBlock (s.block b) } := gated_ok hf (M.change_run _ s)

/-- Settles O17: the block is the one that the words carry, lane by lane. -/
theorem blkwrLoadsLanes : Obligations.BlkwrLoadsLanes := by
  intro s b h xs rest hf hx hh
  refine ⟨blockOfWords xs, decode_blkwr hx hh rest, fun j hj => ?_, exec_blkwr hf b _⟩
  have hw : xs[j]? = some xs[j] := List.getElem?_eq_getElem (hx ▸ hj)
  exact ⟨xs[j], hw, blockOfWords_even hj hw, blockOfWords_odd hj hw⟩

/-- Settles O18: the answer is the words of the block; after BLKWR those are the words that were packed into it. -/
theorem blkrdReturnsWords : Obligations.BlkrdReturnsWords := by
  refine ⟨fun s b hf => ?_, fun s t b h xs rest i hf hx hh hd he => ?_⟩
  · exact ⟨wordsOfBlock s.blk[b], by simp [wordsOfBlock],
      fun j hj => ⟨_, wordsOfBlock_getElem? _ hj, wordOfBlock_toNat _ hj⟩, exec_blkrd hf b⟩
  · cases (decode_blkwr hx hh rest).symm.trans hd
    cases (exec_blkwr hf b _).symm.trans he
    rw [exec_blkrd (by rwa [State.setBlock_status]), State.setBlock_block_same, wordsOfBlock_block xs hx]

end Sys2Proof.Machine
end

section
/-!
What a fault leaves (60_exceptions.md R320 to R323, R326): a command whose checks come first leaves all but `STATUS`, and
a read-side command that faults in mid-structure leaves all but `STATUS` and the read position.
-/

namespace Sys2Proof.Machine

/-- Settles O12, by the causes that each body can raise and the one way a fault is taken. -/
theorem faultCauseIsListed : Obligations.FaultCauseIsListed := fun _ _ _ hf h ht => exec_fault_listed hf h ht

/-! Where a computation raises -/

/-- Where `x` raises from `s`, a failure of the sink apart, the state it raises in is one that `P` relates to `s`. -/
def FaultLeaves (P : State → State → Prop) {α : Type} (x : M α) (s : State) : Prop :=
  ∀ c t, x s = .error c t → c ≠ .sinkIoError → P s t

section FaultLeaves

variable {P : State → State → Prop} {α β : Type} {x y : M α} {f : α → M β} {s : State}

theorem FaultLeaves.of_keeps (h : Keeps P x) : FaultLeaves P x s := by
  intro c t e _
  have hs := h s
  rwa [e] at hs

theorem FaultLeaves.of_raises (h : Raises [.sinkIoError] x) : FaultLeaves P x s :=
  fun c t e hc => absurd (List.mem_singleton.mp (h s c t e)) hc

theorem FaultLeaves.ite {p : Prop} [Decidable p] (hx : FaultLeaves P x s) (hy : FaultLeaves P y s) :
    FaultLeaves P (if p then x else y) s := by
  split
  · exact hx
  · exact hy

/-- What comes after the last check makes changes that raise nothing, a failure of the sink apart. -/
theorem FaultLeaves.andThen (hx : FaultLeaves P x s) (hf : ∀ a, Raises [.sinkIoError] (f a)) :
    FaultLeaves P (x >>= f) s := by
  intro c t e hc
  cases hxs : x s with
  | ok a u =>
    rw [M.bind_ok hxs] at e
    exact absurd (List.mem_singleton.mp (hf a u c t e)) hc
  | error d u =>
    rw [M.bind_error hxs] at e
    cases e
    exact hx c t hxs hc

/-- A first part that keeps the relation, then one that leaves it. -/
theorem FaultLeaves.bind (hP : Composes P) (hx : Keeps P x)
    (hf : ∀ a t, x s = .ok a t → FaultLeaves P (f a) t) : FaultLeaves P (x >>= f) s := by
  intro c t e hc
  have hs := hx s
  cases hxs : x s with
  | ok a u =>
    rw [M.bind_ok hxs] at e
    rw [hxs] at hs
    exact hP.trans _ _ _ hs (hf a u hxs c t e hc)
  | error d u =>
    rw [M.bind_error hxs] at e
    rw [hxs] at hs
    cases e
    exact hs

theorem FaultLeaves.look_bind {g : State → β} {f : β → M α} (h : FaultLeaves P (f (g s)) s) :
    FaultLeaves P (M.look g >>= f) s := h

end FaultLeaves

/-- A gated command that faulted: its body raised, and the fault went into the state of the raise. -/
theorem gated_fault_leaves {P : State → State → Prop} {op : Opcode} {body : M Unit} {s t : State}
    (hf : s.status.fault = false) (ht : t.status.fault = true) (hc : t.status.cause ≠ .sinkIoError)
    (h : gated op body s = .next t) (hk : KeepsStatus body) (hb : FaultLeaves P body s) :
    ∃ u, P s u ∧ t = { u with status := t.status } := by
  have hs := hk s
  cases hbs : body s with
  | ok a u =>
    rw [hbs] at hs
    cases (gated_ok hf hbs).symm.trans h
    exact absurd ht (by simp [show t.status = s.status from hs, hf])
  | error c u =>
    rw [hbs] at hs
    have hu : u.status.fault = false := (congrArg Status.fault hs).trans hf
    rw [gated_error hf hbs, u.raiseFault_of_clear c op hu] at h
    cases h
    exact ⟨u, hb c u hbs hc, rfl⟩

/-! Checks before the first change (60_exceptions.md R326(a)) -/

/-- Where `x` raises from `s`, a failure of the sink apart, nothing is changed. -/
abbrev FaultChangesNothing {α : Type} (x : M α) (s : State) : Prop := FaultLeaves (fun s t => t = s) x s

theorem composes_unchanged : Composes (fun s t : State => t = s) := Composes.same id

section ChecksFirst

variable {s : State}

theorem raises_putbits (n v : Nat) : Raises [.sinkIoError] (putbits n v) := Raises.putbits (by decide) n v

theorem faultChangesNothing_getbits (n : Nat) : FaultChangesNothing (getbits n) s := by
  intro c t e _
  unfold getbits at e
  split at e
  · cases e; rfl
  · cases e

theorem faultChangesNothing_raiseIf_bind {α : Type} {p : Prop} [Decidable p] {c : Cause} {f : Unit → M α}
    (hf : FaultChangesNothing (f ()) s) : FaultChangesNothing (M.raiseIf p c >>= f) s := by
  intro d t e hd
  rw [M.raiseIf_bind] at e
  split at e
  · cases e; rfl
  · exact hf d t e hd

/-- One check, then changes. -/
theorem faultChangesNothing_check {α : Type} {p : Prop} [Decidable p] {c : Cause} {f : Unit → M α}
    (hf : Raises [.sinkIoError] (f ())) : FaultChangesNothing (M.raiseIf p c >>= f) s :=
  faultChangesNothing_raiseIf_bind (FaultLeaves.of_raises hf)

theorem faultChangesNothing_checkMacroblock (mbx mby : Nat) : FaultChangesNothing (checkMacroblock mbx mby) s :=
  FaultLeaves.of_keeps (Keeps.of_checkMacroblock composes_unchanged mbx mby)

theorem csrrBody_faultChangesNothing (csr : Nat) : FaultChangesNothing (csrrBody csr) s := by
  refine FaultLeaves.look_bind ?_
  cases s.csr? csr with
  | none => exact FaultLeaves.of_keeps (Keeps.raise composes_unchanged _)
  | some v => exact FaultLeaves.of_raises (Raises.change _)

theorem csrwBody_faultChangesNothing (csr : Nat) (v : BitVec 16) : FaultChangesNothing (csrwBody csr v) s := by
  unfold csrwBody
  split
  · exact faultChangesNothing_check (Raises.change _)
  · exact faultChangesNothing_check (Raises.change _)
  · exact faultChangesNothing_check (Raises.change _)
  · exact FaultLeaves.of_keeps (Keeps.raise composes_unchanged _)

theorem wrbitsBody_faultChangesNothing (n : Nat) (v : Word) : FaultChangesNothing (wrbitsBody n v) s :=
  faultChangesNothing_check (raises_putbits n _)

theorem rdbitsBody_faultChangesNothing (n : Nat) : FaultChangesNothing (rdbitsBody n) s :=
  faultChangesNothing_raiseIf_bind ((faultChangesNothing_getbits n).andThen (fun _ => Raises.change _))

theorem quantBody_faultChangesNothing (b : Fin 8) (i : Coding) (q : Nat) : FaultChangesNothing (quantBody b i q) s :=
  faultChangesNothing_check (Raises.bind (Raises.look _) (fun _ => Raises.bind (Raises.look _) (fun _ =>
    Raises.bind (Raises.change _) (fun _ => Raises.change _))))

theorem dequantBody_faultChangesNothing (b : Fin 8) (i : Coding) (q : Nat) :
    FaultChangesNothing (dequantBody b i q) s :=
  faultChangesNothing_check (Raises.bind (Raises.look _) (fun _ => Raises.bind (Raises.look _) (fun _ =>
    Raises.change _)))

theorem encblkBody_faultChangesNothing (b : Fin 8) (i : Coding) : FaultChangesNothing (encblkBody b i) s :=
  FaultLeaves.look_bind (faultChangesNothing_check
    (Raises.bind (Raises.look _) (fun _ => Raises.putcode (by decide) _)))

/-- The table is searched before the first bit is written. -/
theorem vlcencBody_faultChangesNothing (tbl : TableId) (x : Nat) : FaultChangesNothing (vlcencBody tbl x) s := by
  refine FaultLeaves.look_bind ?_
  unfold vlcEnc
  split
  · exact FaultLeaves.of_raises (Raises.putcode (by decide) _)
  · exact FaultLeaves.of_keeps (Keeps.raise composes_unchanged _)

theorem meaeBody_faultChangesNothing (mbx mby : Nat) (dx dy : Int) : FaultChangesNothing (meaeBody mbx mby dx dy) s :=
  FaultLeaves.bind composes_unchanged (Keeps.of_checkMacroblock composes_unchanged mbx mby) (fun _ _ _ =>
    FaultLeaves.look_bind (faultChangesNothing_check (Raises.change _)))

theorem mesearchBody_faultChangesNothing (mbx mby : Nat) : FaultChangesNothing (mesearchBody mbx mby) s :=
  (faultChangesNothing_checkMacroblock mbx mby).andThen (fun _ => Raises.bind (Raises.look _) (fun _ =>
    Raises.bind (Raises.change _) (fun _ => Raises.bind (Raises.change _) (fun _ => Raises.change _))))

theorem memtypeBody_faultChangesNothing (mbx mby : Nat) : FaultChangesNothing (memtypeBody mbx mby) s :=
  (faultChangesNothing_checkMacroblock mbx mby).andThen (fun _ => Raises.bind (Raises.look _) (fun _ =>
    Raises.bind (Raises.change _) (fun _ => Raises.bind (Raises.change _) (fun _ => Raises.bind (Raises.change _)
      (fun _ => Raises.bind (Raises.change _) (fun _ => Raises.change _))))))

theorem putgobBody_faultChangesNothing (gn gq : Nat) (e : Bool) (x : Byte) :
    FaultChangesNothing (putgobBody gn gq e x) s :=
  faultChangesNothing_raiseIf_bind (faultChangesNothing_check (Raises.bind (Raises.look _) (fun _ =>
    Raises.bind (raises_putbits _ _) (fun _ => Raises.bind (raises_putbits _ _) (fun _ =>
      Raises.bind (raises_putbits _ _) (fun _ => Raises.bind (Raises.putTail (by decide) _ _) (fun _ =>
        Raises.change _)))))))

/-! PUTMB: its checks leave no field without a code word -/

theorem raises_vlcEnc {t : VlcTable} {x : Nat} (h : (vlcWord? t x).isSome = true) :
    Raises [.sinkIoError] (vlcEnc t x) := by
  obtain ⟨w, hw⟩ := Option.isSome_iff_exists.mp h
  simp only [vlcEnc, hw]
  exact Raises.putcode (by decide) w

theorem raises_whenCarried {cs : List Cause} {c : Bool} {x : M Unit} (h : c = true → Raises cs x) :
    Raises cs (whenCarried c () x) := by
  cases c with
  | true => exact h rfl
  | false => exact Raises.pure ()

theorem raises_putHeader {p : Params} (hp : p.wf = true) {kh kv mba mtype cbp : Nat} (mquant : Nat) (hh : kh < 32)
    (hv : kv < 32) (hmba : 1 ≤ mba ∧ mba ≤ 33) (ht : mtype ≤ 9) (hc : cbp < 64)
    (hcbp : (mtypeAttr p mtype).cbp = true → cbp ≠ 0) :
    Raises [.sinkIoError] (putHeader p kh kv mba mtype mquant cbp) := by
  have hmv := Raises.bind (raises_vlcEnc (mvd_entry hp kh hh)) (fun _ => raises_vlcEnc (mvd_entry hp kv hv))
  have hcw := fun a => raises_vlcEnc (cbp_entry hp cbp (Nat.one_le_iff_ne_zero.mpr (hcbp a)) hc)
  exact Raises.bind (raises_vlcEnc (mba_entry hp mba hmba.1 (by omega))) (fun _ =>
    Raises.bind (raises_vlcEnc (mtype_entry hp mtype ht)) (fun _ =>
      Raises.bind (raises_whenCarried (fun _ => raises_putbits 5 mquant)) (fun _ =>
        Raises.bind (raises_whenCarried (fun _ => hmv)) (fun _ => raises_whenCarried hcw))))

/-- What the checks of PUTMB have made sure of. -/
theorem putmbCheck_passed {mba mtype mquant : Nat} {mvh mvv : Int} {cbp : Nat} {t : State} {u : Unit}
    (h : putmbCheck mba mtype mquant mvh mvv cbp s = .ok u t) :
    t = s ∧ mtype ≤ 9 ∧ (1 ≤ mba ∧ mba ≤ 33) ∧ ((mtypeAttr s.par mtype).cbp = true → cbp ≠ 0) := by
  rw [putmbCheck_run] at h
  split_ifs at h with htype haddr hstray hquant hcbp
  cases h
  exact ⟨rfl, by omega, by omega, fun hc h0 => hcbp ⟨hc, h0⟩⟩

theorem putmbBody_faultChangesNothing (hp : s.par.wf = true) {mba mtype mquant : Nat} {mvh mvv : Int} {cbp : Nat}
    (hc : cbp < 64) : FaultChangesNothing (putmbBody mba mtype mquant mvh mvv cbp) s := by
  refine FaultLeaves.bind composes_unchanged (Keeps.of_putmbCheck composes_unchanged _ _ _ _ _ _) (fun _ t h => ?_)
  obtain ⟨rfl, htype, hmba, hcbp⟩ := putmbCheck_passed h
  have hhdr := fun pred : Mv5 => raises_putHeader hp mquant (mvdKey_lt mvh pred.h) (mvdKey_lt mvv pred.v) hmba htype hc
    hcbp
  exact FaultLeaves.look_bind (FaultLeaves.look_bind (FaultLeaves.look_bind
    (FaultLeaves.of_raises (Raises.bind (hhdr _) (fun _ => Raises.change _)))))

end ChecksFirst

/-- A fault other than `SinkIoError` of a command whose checks come first writes `STATUS` only (R326(a)). -/
theorem exec_checksFirst_fault {i : Instr} {s t : State} (hi : i.WellFormed) (hp : s.par.wf = true)
    (hfirst : checksFirst i = true) (hf : s.status.fault = false) (h : exec i s = .next t)
    (ht : t.status.fault = true) (hc : t.status.cause ≠ .sinkIoError) : t = { s with status := t.status } := by
  have hP := composes_status
  have hput := putbit_keepsStatus
  have hres : ∀ js, WritesRes (fun s t : State => t.status = s.status) js := fun _ _ _ _ _ => rfl
  have hblk : ∀ (b : Fin 8) v (s : State), (s.setBlock b v).status = s.status := fun _ _ _ => rfl
  have hhdr : ∀ mv a (s : State), (s.afterHeader mv a).status = s.status := fun _ _ _ => rfl
  have fault : ∀ {op : Opcode} {body : M Unit}, gated op body s = .next t → KeepsStatus body →
      FaultChangesNothing body s → t = { s with status := t.status } := by
    intro op body h hk hb
    obtain ⟨u, rfl, hu⟩ := gated_fault_leaves hf ht hc h hk hb
    exact hu
  cases i with
  | csrr csr =>
    exact fault (gated_of_ungated hf h) (Keeps.of_csrrBody hP (hres _) csr) (csrrBody_faultChangesNothing csr)
  | csrw csr v =>
    exact fault h (Keeps.of_csrwBody hP (fun _ _ => rfl) (fun _ _ => rfl) (fun _ _ => rfl) csr v)
      (csrwBody_faultChangesNothing csr v)
  | wrbits n v => exact fault h (Keeps.of_wrbitsBody hP hput n v) (wrbitsBody_faultChangesNothing n v)
  | rdbits n =>
    exact fault h (Keeps.of_rdbitsBody hP getbits_keepsStatus (hres _) n) (rdbitsBody_faultChangesNothing n)
  | quant b c q => exact fault h (Keeps.of_quantBody hP b (hblk b) (hres _) c q) (quantBody_faultChangesNothing b c q)
  | dequant b c q => exact fault h (Keeps.of_dequantBody hP b (hblk b) c q) (dequantBody_faultChangesNothing b c q)
  | encblk b c => exact fault h (Keeps.of_encblkBody hP hput b c) (encblkBody_faultChangesNothing b c)
  | vlcenc tbl x => exact fault h (Keeps.of_vlcencBody hP hput tbl x) (vlcencBody_faultChangesNothing tbl x)
  | meae mbx mby dx dy =>
    exact fault h (Keeps.of_meaeBody hP (hres _) mbx mby dx dy) (meaeBody_faultChangesNothing mbx mby dx dy)
  | mesearch mbx mby =>
    exact fault h (Keeps.of_mesearchBody hP (hres _) mbx mby) (mesearchBody_faultChangesNothing mbx mby)
  | memtype mbx mby =>
    exact fault h (Keeps.of_memtypeBody hP (hres _) (fun _ _ _ => rfl) mbx mby)
      (memtypeBody_faultChangesNothing mbx mby)
  | putgob gn gq e x =>
    exact fault h (Keeps.of_putgobBody hP hput hhdr gn gq e x) (putgobBody_faultChangesNothing gn gq e x)
  | putmb mba mtype mquant mvh mvv cbp =>
    obtain ⟨-, -, -, -, -, hcbp⟩ := of_decide_eq_true hi
    exact fault h (Keeps.of_putmbBody hP hput hhdr mba mtype mquant mvh mvv cbp) (putmbBody_faultChangesNothing hp hcbp)
  | _ => cases hfirst

/-! Faults in mid-structure (60_exceptions.md R326(b)) -/

/-- From `s` to `t` the engine has done nothing but read on in the source. -/
structure ReadOn (s t : State) : Prop where
  frame : t = { s with rpos := t.rpos }
  forward : s.ReadInv → s.rpos.toNat ≤ t.rpos.toNat ∧ t.rpos.toNat ≤ 8 * s.src.length

theorem composes_readOn : Composes ReadOn where
  refl _ := ⟨rfl, fun h => ⟨le_rfl, h.2⟩⟩
  trans s t u hst htu := by
    have hsrc : t.src = s.src := by rw [hst.frame]
    refine ⟨by rw [htu.frame, hst.frame], fun h => ?_⟩
    obtain ⟨h1, h2⟩ := hst.forward h
    obtain ⟨h3, h4⟩ := htu.forward (by rw [State.ReadInv, hsrc]; exact ⟨h.1, h2⟩)
    exact ⟨h1.trans h3, hsrc ▸ h4⟩

theorem getbits_readOn (n : Nat) : Keeps ReadOn (getbits n) := by
  intro s
  unfold getbits
  split
  · exact composes_readOn.refl s
  · refine ⟨rfl, fun h => ?_⟩
    have hle : s.rpos.toNat + n ≤ 8 * s.src.length := by omega
    have hpos : (s.rpos + BitVec.ofNat 64 n).toNat = s.rpos.toNat + n := s.consumed_toNat n h.1 hle
    simp only [endState, hpos]
    omega

/-- The same, and the start code that was ahead may have been passed: `SCSEEN` may have been cleared. -/
def ReadOnPastCode (s t : State) : Prop := ReadOn s t ∨ ReadOn s.codePassed t

theorem ReadOn.codePassed {s t : State} (h : ReadOn s t) : ReadOn s.codePassed t.codePassed :=
  ⟨by rw [h.frame]; rfl, h.forward⟩

theorem composes_readOnPastCode : Composes ReadOnPastCode := by
  refine ⟨fun s => .inl (composes_readOn.refl s), fun s t u hst htu => ?_⟩
  rcases htu with htu | htu
  · exact hst.imp (composes_readOn.trans _ _ _ · htu) (composes_readOn.trans _ _ _ · htu)
  · have hpassed : ReadOn s.codePassed t.codePassed := hst.elim ReadOn.codePassed ReadOn.codePassed
    exact .inr (composes_readOn.trans _ _ _ hpassed htu)

section MidStructure

variable {s : State}

theorem decblkBody_faultReadOn (b : Fin 8) (i : Coding) : FaultLeaves ReadOn (decblkBody b i) s := by
  have hP := composes_readOn
  have hloop := fun fuel first k b0 => Keeps.of_decLoop hP getbits_readOn s.par fuel first k b0
  refine FaultLeaves.look_bind ?_
  cases i with
  | inter => exact (FaultLeaves.of_keeps (hloop _ _ _ _)).andThen (fun _ => Raises.change _)
  | intra =>
    exact FaultLeaves.bind hP (getbits_readOn 8) (fun _ _ _ =>
      (FaultLeaves.of_keeps (hloop _ _ _ _)).andThen (fun _ => Raises.change _))

theorem vlcdecBody_faultReadOn (tbl : TableId) : FaultLeaves ReadOn (vlcdecBody tbl) s :=
  FaultLeaves.look_bind
    ((FaultLeaves.of_keeps (Keeps.of_vlcDec composes_readOn getbits_readOn _)).andThen (fun _ => Raises.change _))

theorem getpicBody_faultReadOn : FaultLeaves ReadOn getpicBody s :=
  have hP := composes_readOn
  FaultLeaves.bind hP (getbits_readOn 5) (fun _ _ _ => FaultLeaves.bind hP (getbits_readOn 6) (fun _ _ _ =>
    FaultLeaves.look_bind
      ((FaultLeaves.of_keeps (Keeps.of_getTail hP getbits_readOn _ _)).andThen (fun _ =>
        Raises.bind (Raises.change _) (fun _ => Raises.bind (Raises.change _) (fun _ => Raises.change _))))))

theorem getgobBody_faultReadOn : FaultLeaves ReadOn getgobBody s :=
  have hP := composes_readOn
  FaultLeaves.bind hP (getbits_readOn 5) (fun _ _ _ => FaultLeaves.look_bind
    ((FaultLeaves.of_keeps (Keeps.of_getTail hP getbits_readOn _ _)).andThen (fun _ =>
      Raises.bind (Raises.change _) (fun _ => Raises.bind (Raises.change _) (fun _ => Raises.change _)))))

/-- `SCSEEN`, `LASTMV`, `MBADDR` and the results are written after the last bit is read. -/
theorem getmbBody_faultReadOn : FaultLeaves ReadOn getmbBody s := by
  have hP := composes_readOn
  refine FaultLeaves.look_bind (FaultLeaves.look_bind
    (FaultLeaves.bind hP (Keeps.of_skipStuffing hP getbits_readOn _ _) (fun a _ _ =>
      FaultLeaves.ite (FaultLeaves.of_raises Raises.getmbStart) ?_)))
  exact FaultLeaves.look_bind (FaultLeaves.bind hP (Keeps.raiseIf hP _ _) (fun _ _ _ =>
    FaultLeaves.look_bind
      ((FaultLeaves.of_keeps (Keeps.of_readHeader hP getbits_readOn _ _)).andThen (fun _ =>
        Raises.bind (Raises.change _) (fun _ => Raises.bind (Raises.change _) (fun _ =>
          Raises.bind (Raises.change _) (fun _ => Raises.bind (Raises.change _) (fun _ => Raises.change _))))))))

theorem getscBody_faultReadOnPastCode : FaultLeaves ReadOnPastCode getscBody s := by
  have hP := composes_readOnPastCode
  have hget : ∀ n, Keeps ReadOnPastCode (getbits n) := fun n s => .inl (getbits_readOn n s)
  have hpass : Keeps ReadOnPastCode (M.change State.codePassed) := fun s => .inr (composes_readOn.refl s.codePassed)
  have hgroup : ∀ s, FaultLeaves ReadOnPastCode getscGroup s := fun s =>
    FaultLeaves.bind hP hpass (fun _ _ _ => FaultLeaves.bind hP (hget 4) (fun _ _ _ =>
      (FaultLeaves.of_keeps (Keeps.raiseIf hP _ _)).andThen (fun _ => Raises.change _)))
  exact FaultLeaves.look_bind (FaultLeaves.ite (hgroup s)
    (FaultLeaves.look_bind (FaultLeaves.bind hP (hget 16) (fun _ _ _ =>
      FaultLeaves.bind hP (Keeps.raiseIf hP _ _) (fun _ t _ => hgroup t)))))

end MidStructure

/-- A command that reads writes no bit, so the sink does not fail under it. -/
theorem readsStructure_cause {i : Instr} {s t : State} (hread : readsStructure i = true)
    (hf : s.status.fault = false) (h : exec i s = .next t) (ht : t.status.fault = true) :
    t.status.cause ≠ .sinkIoError := by
  have hnot : Cause.sinkIoError ∉ causesOf i := by
    cases i with
    | decblk b c => simp [causesOf]
    | vlcdec tbl => simp [causesOf]
    | getsc => decide
    | getpic => decide
    | getgob => decide
    | getmb => decide
    | _ => cases hread
  exact fun e => hnot (e ▸ (exec_fault_listed hf h ht).1)

/-- A fault in mid-structure takes the fault in a state that has only read on; GETSC apart (R326(b)). -/
theorem exec_midStructure_fault {i : Instr} {s t : State} (hread : readsStructure i = true) (hi : i ≠ .getsc)
    (hf : s.status.fault = false) (h : exec i s = .next t) (ht : t.status.fault = true) :
    ∃ u, ReadOn s u ∧ t = { u with status := t.status } := by
  have hP := composes_status
  have hget := getbits_keepsStatus
  have hres : ∀ js, WritesRes (fun s t : State => t.status = s.status) js := fun _ _ _ _ _ => rfl
  have hhdr : ∀ mv a (s : State), (s.afterHeader mv a).status = s.status := fun _ _ _ => rfl
  have fault := fun {op : Opcode} {body : M Unit} => gated_fault_leaves (P := ReadOn) (op := op) (body := body) hf ht
    (readsStructure_cause hread hf h ht)
  cases i with
  | decblk b c => exact fault h (Keeps.of_decblkBody hP hget b (fun _ _ => rfl) c) (decblkBody_faultReadOn b c)
  | vlcdec tbl => exact fault h (Keeps.of_vlcdecBody hP hget (hres _) tbl) (vlcdecBody_faultReadOn tbl)
  | getsc => exact absurd rfl hi
  | getpic => exact fault h (Keeps.of_getpicBody hP hget (hres _)) getpicBody_faultReadOn
  | getgob => exact fault h (Keeps.of_getgobBody hP hget (hres _) hhdr) getgobBody_faultReadOn
  | getmb => exact fault h (Keeps.of_getmbBody hP hget (hres _) (fun _ => rfl) hhdr) getmbBody_faultReadOn
  | _ => cases hread

/-- A fault of GETSC likewise, with the start code passed or not (46_framing.md R245). -/
theorem exec_getsc_fault {s t : State} (hf : s.status.fault = false) (h : exec .getsc s = .next t)
    (ht : t.status.fault = true) : ∃ u, ReadOnPastCode s u ∧ t = { u with status := t.status } :=
  gated_fault_leaves hf ht (readsStructure_cause rfl hf h ht) h
    (Keeps.of_getscBody composes_status getbits_keepsStatus (fun _ _ _ _ => rfl) (fun _ => rfl))
    getscBody_faultReadOnPastCode

/-- What the state of the raise says of the state with the fault taken. -/
theorem ReadOn.faulted {s u t : State} (h : ReadOn s u) (hu : t = { u with status := t.status }) :
    t = { s with rpos := t.rpos, status := t.status } ∧
    (s.ReadInv → s.rpos.toNat ≤ t.rpos.toNat ∧ t.rpos.toNat ≤ 8 * s.src.length) := by
  have hpos : t.rpos = u.rpos := by rw [hu]
  refine ⟨?_, hpos ▸ h.forward⟩
  rw [hpos]
  exact hu.trans (congrArg (fun v : State => { v with status := t.status }) h.frame)

theorem ReadOnPastCode.faulted {s u t : State} (h : ReadOnPastCode s u) (hu : t = { u with status := t.status }) :
    (t = { s with rpos := t.rpos, status := t.status, scseen := t.scseen } ∧ (t.scseen = true → s.scseen = true)) ∧
    (s.ReadInv → s.rpos.toNat ≤ t.rpos.toNat ∧ t.rpos.toNat ≤ 8 * s.src.length) := by
  rcases h with h | h
  · obtain ⟨hframe, hforward⟩ := h.faulted hu
    have hsc : t.scseen = s.scseen := by rw [hframe]
    exact ⟨⟨hsc ▸ hframe, fun e => hsc ▸ e⟩, hforward⟩
  · obtain ⟨hframe, hforward⟩ := h.faulted hu
    have hsc : t.scseen = false := by rw [hframe]; rfl
    exact ⟨⟨hsc ▸ hframe, fun e => absurd e (by simp [hsc])⟩, hforward⟩

/-- Settles O13: the checks of (a) run on the state before, and all that the reads of (b) change is the read position;
GETSC clears `SCSEEN` between its two reads. -/
theorem checksComeFirst : Obligations.ChecksComeFirst := by
  refine ⟨fun _ _ _ => exec_checksFirst_fault, fun i s t hread hf h ht => ?_⟩
  by_cases hi : i = .getsc
  · subst hi
    obtain ⟨u, hr, hu⟩ := exec_getsc_fault hf h ht
    obtain ⟨hframe, hforward⟩ := hr.faulted hu
    exact ⟨fun hne => absurd rfl hne, fun _ => hframe, hforward⟩
  · obtain ⟨u, hr, hu⟩ := exec_midStructure_fault hread hi hf h ht
    obtain ⟨hframe, hforward⟩ := hr.faulted hu
    exact ⟨fun _ => hframe, fun e => absurd e hi, hforward⟩

end Sys2Proof.Machine
end
